-- ==== Sys2Proof/Word.lean ====
section
/-! DEFINITION. The word types of the block: registers of REG_W = 32 bits and samples of SAMPLE_W = 8 bits
(00_scope.md R5). -/

namespace Sys2Proof

/-- A 32-bit register value or write datum (00_scope.md R5, REG_W). -/
abbrev Word := BitVec 32

/-- An 8-bit sample, and one byte of the data memory (00_scope.md R5, SAMPLE_W). -/
abbrev Byte := BitVec 8

end Sys2Proof
end

