-- ==== Sys2Proof/Syntax.lean ====
section
/-! DEFINITION. The instructions (one constructor per row of spec/opcode_table.json), the registers of the window,
and a host access as the bus carries it. -/

namespace Sys2Proof

/-- The eight registers of the window (10_state.md R21). -/
inductive Reg where
  | ctrl | status | src | sstride | dst | dstride | count | id
  deriving DecidableEq, Repr

/-- The direction of a host transaction (42_host_access.md R140). -/
inductive Dir where
  | read | write
  deriving DecidableEq, Repr

/-- A host access to the block's window, before decoding: direction, width in bits, byte offset from REG_BASE, and
the write datum, which a read does not use (42_host_access.md R140, R141). Log entry 1. -/
structure Access where
  dir   : Dir
  width : Nat
  off   : Nat
  data  : Word
  deriving DecidableEq, Repr

/-- Why an access is not one of the supported transactions (42_host_access.md R141). -/
inductive Reject where
  /-- The access is not 32 bits wide. -/
  | width
  /-- The offset is not a multiple of 4. -/
  | misaligned
  /-- The offset is 0x20 or more. -/
  | outsideWindow
  deriving DecidableEq, Repr

/-- The instructions: the two block commands and the sixteen host register transactions (00_scope.md R2,
30_encoding.md R72 and R82). `yccFwd` and `yccInv` are the CTRL writes with START = 1 and OP = 1 or 2; `wrCtrl` is
every other CTRL write (`WellFormed`). Log entry 2. -/
inductive Instr where
  /-- YCC.FWD: start the forward transform with `nch` channels (41_commands.md R122). -/
  | yccFwd (nch : Byte)
  /-- YCC.INV: start the inverse transform with `nch` channels (41_commands.md R123). -/
  | yccInv (nch : Byte)
  /-- RD.CTRL (42_host_access.md R143), and so for the seven reads after it. -/
  | rdCtrl
  | rdStatus
  | rdSrc
  | rdSstride
  | rdDst
  | rdDstride
  | rdCount
  | rdId
  /-- WR.CTRL with a value that is not one of the two commands (42_host_access.md R145). -/
  | wrCtrl (v : Word)
  /-- WR.STATUS (42_host_access.md R146). -/
  | wrStatus (v : Word)
  /-- WR.SRC (42_host_access.md R147), and so for the four writes after it. -/
  | wrSrc (v : Word)
  | wrSstride (v : Word)
  | wrDst (v : Word)
  | wrDstride (v : Word)
  | wrCount (v : Word)
  /-- WR.ID (42_host_access.md R148). -/
  | wrId (v : Word)
  deriving DecidableEq, Repr

end Sys2Proof
end

