-- ==== Sys2Proof/WellFormed.lean ====
section
/-! DEFINITION. Which terms of `Instr` are instructions: a CTRL write that is one of the two commands is written
`yccFwd` or `yccInv`, never `wrCtrl`. -/

namespace Sys2Proof

/-- The mask of the two command rows of the table: START and OP (30_encoding.md R73). -/
def WellFormed.commandMask : Word := 0x8000000F

/-- A CTRL value is one of the two commands (30_encoding.md R73). -/
def WellFormed.isCommand (v : Word) : Bool :=
  v &&& WellFormed.commandMask == 0x80000001 || v &&& WellFormed.commandMask == 0x80000002

/-- The well-formed instructions. The only check is that `wrCtrl` carries no command word; every other operand may
take every value of its width (a channel count of 0 is an illegal operand, not an illegal encoding: 30_encoding.md
R74). -/
def WellFormed : Instr → Bool
  | .wrCtrl v => !WellFormed.isCommand v
  | .yccFwd _ | .yccInv _ => true
  | .rdCtrl | .rdStatus | .rdSrc | .rdSstride | .rdDst | .rdDstride | .rdCount | .rdId => true
  | .wrStatus _ | .wrSrc _ | .wrSstride _ | .wrDst _ | .wrDstride _ | .wrCount _ | .wrId _ => true

end Sys2Proof
end

