-- ==== Sys2Proof/Decode.lean ====
section
/-! DEFINITION. The decoder, total on every access and rejecting by name (30_encoding.md R73, R82; 42_host_access.md
R141), the encoder, and the layout of a word of spec/opcode_table.json as an access. -/

namespace Sys2Proof

/-- The byte offset of a register from REG_BASE (10_state.md R21). -/
def regOffset : Reg → Nat
  | .ctrl => 0x00
  | .status => 0x04
  | .src => 0x08
  | .sstride => 0x0C
  | .dst => 0x10
  | .dstride => 0x14
  | .count => 0x18
  | .id => 0x1C

/-- The register at an offset, if the offset is one of the eight (42_host_access.md R141). -/
def regAt (off : Nat) : Option Reg :=
  match off with
  | 0x00 => some .ctrl
  | 0x04 => some .status
  | 0x08 => some .src
  | 0x0C => some .sstride
  | 0x10 => some .dst
  | 0x14 => some .dstride
  | 0x18 => some .count
  | 0x1C => some .id
  | _ => none

/-- The rejection of an offset that is no register's (42_host_access.md R141). -/
def offsetReject (off : Nat) : Reject := if off % 4 = 0 then .outsideWindow else .misaligned

/-- CTRL[3:0], the OP field (10_state.md R22). -/
def opField (v : Word) : BitVec 4 := v.extractLsb' 0 4

/-- CTRL[15:8], the NCH field (10_state.md R22). -/
def nchField (v : Word) : Byte := v.extractLsb' 8 8

/-- The decoding of a CTRL write: the first matching row of 30_encoding.md R73. The rows "not a command" and
"reserved" are both `wrCtrl`, whose meaning tells them apart by bit 31. -/
def decodeCtrl (v : Word) : Instr :=
  if v &&& 0x8000000F = 0x80000001 then .yccFwd (nchField v)
  else if v &&& 0x8000000F = 0x80000002 then .yccInv (nchField v)
  else .wrCtrl v

/-- The read rows of 30_encoding.md R82. -/
def decodeRead : Reg → Instr
  | .ctrl => .rdCtrl
  | .status => .rdStatus
  | .src => .rdSrc
  | .sstride => .rdSstride
  | .dst => .rdDst
  | .dstride => .rdDstride
  | .count => .rdCount
  | .id => .rdId

/-- The write rows of 30_encoding.md R82. -/
def decodeWrite (r : Reg) (v : Word) : Instr :=
  match r with
  | .ctrl => decodeCtrl v
  | .status => .wrStatus v
  | .src => .wrSrc v
  | .sstride => .wrSstride v
  | .dst => .wrDst v
  | .dstride => .wrDstride v
  | .count => .wrCount v
  | .id => .wrId v

/-- The decoder: an aligned 32-bit access to one of the eight offsets is a transaction, every other access is
rejected (30_encoding.md R82, 42_host_access.md R141). -/
def decode (a : Access) : Except Reject Instr :=
  if a.width = 32 then
    match regAt a.off with
    | none => .error (offsetReject a.off)
    | some r =>
      match a.dir with
      | .read => .ok (decodeRead r)
      | .write => .ok (decodeWrite r a.data)
  else .error .width

/-- The CTRL value of a command (30_encoding.md R70): START = 1, reserved bits 0. -/
def commandWord (op : BitVec 4) (nch : Byte) : Word := 1#1 ++ 0#15 ++ nch ++ 0#4 ++ op

/-- A supported read of a register. -/
def readAccess (r : Reg) : Access := { dir := .read, width := 32, off := regOffset r, data := 0 }

/-- A supported write of a register. -/
def writeAccess (r : Reg) (v : Word) : Access := { dir := .write, width := 32, off := regOffset r, data := v }

/-- The encoder: the access that is the instruction (30_encoding.md R70, R72, R82). -/
def encode : Instr → Access
  | .yccFwd nch => writeAccess .ctrl (commandWord 1 nch)
  | .yccInv nch => writeAccess .ctrl (commandWord 2 nch)
  | .rdCtrl => readAccess .ctrl
  | .rdStatus => readAccess .status
  | .rdSrc => readAccess .src
  | .rdSstride => readAccess .sstride
  | .rdDst => readAccess .dst
  | .rdDstride => readAccess .dstride
  | .rdCount => readAccess .count
  | .rdId => readAccess .id
  | .wrCtrl v => writeAccess .ctrl v
  | .wrStatus v => writeAccess .status v
  | .wrSrc v => writeAccess .src v
  | .wrSstride v => writeAccess .sstride v
  | .wrDst v => writeAccess .dst v
  | .wrDstride v => writeAccess .dstride v
  | .wrCount v => writeAccess .count v
  | .wrId v => writeAccess .id v

/-- A word of spec/opcode_table.json laid out as an access. A 32-bit word with bit 31 set is a CTRL value (format
CTRL). Any other word is a transaction (formats HOST_RD32, HOST_WR32): bits 4:0 are the offset; the table gives a
read and the write of the same register the SAME word, so bit 5, which the table leaves free, tells a write from a
read; bits 7:6 count on into the offset, which the decoder then rejects; the write datum stands above bit 7.
DESIGN CHOICE, log entry 1. -/
def tableAccess (nbits w : Nat) : Access :=
  if nbits = 32 ∧ w.testBit 31 then
    { dir := .write, width := 32, off := 0, data := BitVec.ofNat 32 w }
  else
    { dir := if w.testBit 5 then .write else .read
      width := 32
      off := w % 32 + 64 * (w / 64 % 4)
      data := BitVec.ofNat 32 (w / 256) }

/-- The instruction the decoder reads from a word of the table. -/
def decodeTableWord (nbits w : Nat) : Option Instr := (decode (tableAccess nbits w)).toOption

end Sys2Proof
end

