-- ==== Sys2Proof/Config.lean ====
section
/-! DEFINITION. What the platform fixes and what the spec leaves free. Every constant here is uninterpreted: no
proof can see a value of it, so a statement about it holds for every value. -/

namespace Sys2Proof

/-- The open parameter MEM_SIZE, as its highest address MEM_SIZE - 1: its 32 bits give 1 ≤ MEM_SIZE ≤ 2^32
(00_scope.md R5). It is the value of State's `memTop` after reset. Log entry 7. -/
opaque Config.memTop : Word

/-- The open parameter REG_BASE (00_scope.md R5, 10_state.md R21). It is the value of State's `regBase` after
reset. Log entry 8. -/
opaque Config.regBase : Nat

/-- How many host steps come before the engine's step number `n`, where State fixes none: free and finite, which is
the spec's fairness (70_reset_and_hazards.md R190). Log entry 4. -/
opaque Config.hostSteps : Nat → Nat

/-- The `n`-th free byte: a value the spec leaves open ("any value", 93_implementation_defined.md part 2).
Log entries 12 and 13. -/
opaque Config.freeByte : Nat → Byte

/-- The `n`-th free choice at an address: which of a race's outcomes happens, by its place in their list
(70_reset_and_hazards.md R186, 92_eei_decisions.md D27). Log entry 10. -/
opaque Config.choice : Nat → Nat → Nat

end Sys2Proof
end

