-- ==== Sys2Proof/Machine/State.lean ====
section
/-! DEFINITION. The machine's state as plain data, the reasons a step can stop, and the state after reset. -/

namespace Sys2Proof.Machine

/-- The registers and hidden state of one block instance (10_state.md R21 to R33). Reserved bits and START hold
nothing and ID is hard-wired, so none of them is a field (10_state.md R32, R40). -/
structure Block where
  /-- CTRL.OP (R22). -/
  op      : BitVec 4
  /-- CTRL.NCH (R22). -/
  nch     : Byte
  /-- STATUS.BUSY (R24). -/
  busy    : Bool
  /-- STATUS.DONE (R24). -/
  done    : Bool
  /-- STATUS.ERR (R25). -/
  err     : Bool
  /-- STATUS.WIB (R26). -/
  wib     : Bool
  /-- STATUS.ERRCODE (R25, 60_exceptions.md R161). -/
  errcode : BitVec 4
  /-- SRC (R27). -/
  src     : Word
  /-- SSTRIDE (R28). -/
  sstride : Word
  /-- DST (R29). -/
  dst     : Word
  /-- DSTRIDE (R30). -/
  dstride : Word
  /-- COUNT (R31). -/
  count   : Word
  /-- The hidden index of the next pixel to process (R33, R34). -/
  k       : Nat
  deriving DecidableEq, Repr

/-- The error codes a command can end with (60_exceptions.md R161). -/
inductive ErrCode where
  | op | param | bounds | overlap
  deriving DecidableEq, Repr

/-- The operands of a command, zero-extended to exact integers (30_encoding.md R71). -/
structure Operands where
  op  : BitVec 4
  nch : Nat
  src : Nat
  ss  : Nat
  dst : Nat
  ds  : Nat
  n   : Nat
  deriving DecidableEq, Repr

/-- What the host and the platform do: a register transaction, a poll (30_encoding.md R76), a read or write of one
byte of the data memory by the host or another bus agent (00_scope.md R12), a reset (70_reset_and_hazards.md
R180). -/
inductive Event where
  | access (a : Access)
  | poll (off : Nat) (mask value : Word)
  | memWrite (addr : Nat) (v : Byte)
  | memRead (addr : Nat)
  | reset
  deriving DecidableEq, Repr

/-- The data memory: the bytes written so far, at strictly rising addresses. A byte that is not listed was never
written and has no value (20_memory.md R50, 70_reset_and_hazards.md R184). Log entry 6. -/
abbrev Memory := List Host.Cell

/-- The hazard interval of a command, from its START until it is closed (70_reset_and_hazards.md R186). Log entries 10
and 11. -/
structure Window where
  /-- The command's operands. -/
  ops    : Operands
  /-- The memory at START, which holds the old bytes. -/
  before : Memory
  /-- The racing host writes into the command's source and destination bytes so far, newest first. -/
  raced  : List Host.Cell
  /-- The bytes that older open commands, under a race, may have put into the command's source bytes, newest first. Log
  entry 22. -/
  fed    : List Host.Cell
  deriving DecidableEq, Repr

/-- The machine: one block instance, the data memory, the platform's parameters, and the host's side. -/
structure State where
  block    : Block
  mem      : Memory
  /-- MEM_SIZE - 1 (00_scope.md R5); no step changes it. Log entry 7. -/
  memTop   : Word
  /-- REG_BASE (00_scope.md R5); no step changes it. Log entry 8. -/
  regBase  : Nat
  /-- MODEL's own: the value the host's last register read returned (42_host_access.md R140). Log entry 3. -/
  rdata    : Word
  /-- MODEL's own: the value the host's last memory read returned. Log entry 3. -/
  hostByte : Byte
  /-- MODEL's own: what the host and the platform do next, oldest first. Log entry 16. -/
  queue    : List Event
  /-- MODEL's own: how many host steps come before each of the engine's next steps. Log entry 4. -/
  pace     : List Nat
  /-- MODEL's own: the engine's steps so far, the argument of `Config.hostSteps`. Log entry 4. -/
  turns    : Nat
  /-- MODEL's own: the free values and choices drawn so far, the argument of `Config.freeByte` and `Config.choice`.
  Log entries 10, 12 and 13. -/
  draws    : Nat
  /-- MODEL's own: the open hazard intervals, the newest command's first (70_reset_and_hazards.md R186). Log
  entry 11. -/
  windows  : List Window
  /-- MODEL's own: the last START was accepted with a pixel to process and its DONE = 1 is not read yet (20_memory.md
  R59). Log entry 11. -/
  awaited  : Bool
  deriving DecidableEq, Repr

/-- The faults of the machine. The spec has none (93_implementation_defined.md part 2); this one is the model's. -/
inductive Fault where
  /-- An access to a byte at or above MEM_SIZE, which does not exist (20_memory.md R50). Raised by a host memory
  event, and by an engine step in states outside the invariant only (START has checked every address). Safe: the
  machine stops. Log entry 15. -/
  | addressOutsideMemory
  deriving DecidableEq, Repr

/-- The refusals of the machine. -/
inductive Refusal where
  /-- An instruction without a meaning, by its mnemonic; none is left. Safe. -/
  | notModelled (mnemonic : String)
  /-- A host access that is not a supported transaction: "a model must refuse such a transaction and give it no
  effect" (42_host_access.md R141). Raised by the host's step. Safe. -/
  | unsupportedAccess (r : Reject)
  /-- The engine reads a source byte that nothing has written: "refuse the command" (70_reset_and_hazards.md R184).
  Raised by the engine's step. Safe. -/
  | sourceByteNeverWritten
  deriving DecidableEq, Repr

/-- The block after reset (10_state.md R21, 70_reset_and_hazards.md R180). The spec gives the hidden index no
meaning then; 0 is a DESIGN CHOICE, log entry 14. -/
def Block.reset : Block where
  op := 0
  nch := 0
  busy := false
  done := false
  err := false
  wib := false
  errcode := 0
  src := 0
  sstride := 0
  dst := 0
  dstride := 0
  count := 0
  k := 0

/-- The machine right after reset: the block at its reset values, no byte of memory written, the open parameters
uninterpreted, and the host's side empty (log entries 3, 4, 6 to 8, 10, 11, 16). -/
def State.reset : State where
  block := Block.reset
  mem := []
  memTop := Config.memTop
  regBase := Config.regBase
  rdata := 0
  hostByte := 0
  queue := []
  pace := []
  turns := 0
  draws := 0
  windows := []
  awaited := false

/-- MEM_SIZE: the data memory is the addresses below it (20_memory.md R50). -/
def State.memSize (s : State) : Nat := s.memTop.toNat + 1

/-- Replace the block. -/
def State.withBlock (s : State) (b : Block) : State := { s with block := b }

/-- Replace the memory. -/
def State.withMem (s : State) (m : Memory) : State := { s with mem := m }

/-- Deliver a register read's value to the host. -/
def State.withRdata (s : State) (v : Word) : State := { s with rdata := v }

/-- Set STATUS.WIB. -/
def Block.withWib (b : Block) : Block := { b with wib := true }

/-- Clear DONE, ERR and ERRCODE. -/
def Block.clearOutcome (b : Block) : Block := { b with done := false, err := false, errcode := 0 }

end Sys2Proof.Machine
end

