-- ==== Sys2Proof/Machine/Flags.lean ====
section
/-! DEFINITION. The status bits: the words the registers read as, and every way a STATUS bit changes (10_state.md
R22 to R26). -/

namespace Sys2Proof.Machine

/-- The ID register's hard-wired value, "YCC1" (10_state.md R32). -/
def idValue : Word := 0x31434359

/-- What CTRL reads as: reserved bits and START read 0 (42_host_access.md R143). -/
def ctrlWord (b : Block) : Word := 0#16 ++ b.nch ++ 0#4 ++ b.op

/-- What STATUS reads as (42_host_access.md R143). -/
def statusWord (b : Block) : Word :=
  0#24 ++ b.errcode ++ BitVec.ofBool b.wib ++ BitVec.ofBool b.err ++ BitVec.ofBool b.done ++ BitVec.ofBool b.busy

/-- The value of an error in STATUS.ERRCODE (60_exceptions.md R161). -/
def errBits : ErrCode → BitVec 4
  | .op => 1
  | .param => 2
  | .bounds => 3
  | .overlap => 4

/-- A command that ends without an error before any pixel: DONE becomes 1 (41_commands.md R120, R128). -/
def endEmpty (b : Block) : Block := { b with done := true }

/-- The engine becomes busy at pixel 0 (41_commands.md R120). -/
def beginBusy (b : Block) : Block := { b with k := 0, busy := true }

/-- The end of a pixel: `k` goes on, and with the last pixel BUSY falls and DONE rises at once (41_commands.md R121,
R127). -/
def endPixel (b : Block) : Block :=
  if b.k + 1 = b.count.toNat then { b with k := b.k + 1, busy := false, done := true }
  else { b with k := b.k + 1 }

end Sys2Proof.Machine
end

