-- ==== Sys2Proof/Machine/Operands.lean ====
section
/-! DEFINITION. The operands of a command, the addresses it uses, and their validation at START (30_encoding.md R71,
41_commands.md R124, 60_exceptions.md R164). -/

namespace Sys2Proof.Machine

/-- The operands a START reads (30_encoding.md R71). -/
def operands (b : Block) : Operands where
  op := b.op
  nch := b.nch.toNat
  src := b.src.toNat
  ss := b.sstride.toNat
  dst := b.dst.toNat
  ds := b.dstride.toNat
  n := b.count.toNat

/-- The address of channel `j` of source pixel `k` (41_commands.md R124). -/
def srcAddr (o : Operands) (k j : Nat) : Nat := o.src + k * o.ss + j

/-- The address of channel `j` of destination pixel `k` (41_commands.md R124). -/
def dstAddr (o : Operands) (k j : Nat) : Nat := o.dst + k * o.ds + j

/-- The last source byte of a command with `n > 0` (60_exceptions.md R164). -/
def srcEnd (o : Operands) : Nat := o.src + (o.n - 1) * o.ss + o.nch - 1

/-- The last destination byte of a command with `n > 0` (60_exceptions.md R164). -/
def dstEnd (o : Operands) : Nat := o.dst + (o.n - 1) * o.ds + o.nch - 1

/-- The command is in place (41_commands.md R129). -/
def inPlace (o : Operands) : Bool := o.src = o.dst && o.ss = o.ds

/-- The check of the operands, in the spec's order: the first that fails decides (60_exceptions.md R164, R165). -/
def validate (memSize : Nat) (o : Operands) : Option ErrCode :=
  if o.op ≠ 1 ∧ o.op ≠ 2 then some .op
  else if o.nch = 0 ∨ o.ss < o.nch ∨ o.ds < o.nch then some .param
  else if o.n = 0 then none
  else if memSize ≤ srcEnd o ∨ memSize ≤ dstEnd o then some .bounds
  else if inPlace o = false ∧ o.src ≤ dstEnd o ∧ o.dst ≤ srcEnd o then some .overlap
  else none

/-- The pixel whose byte `a` is, in a buffer at `base` with `n` pixels of `nch` bytes each `stride` bytes; `none` for
a gap byte and for an address outside the buffer (41_commands.md R124, R130). -/
def pixelAt (base stride n nch a : Nat) : Option Nat :=
  if base ≤ a ∧ (a - base) / stride < n ∧ (a - base) % stride < nch then some ((a - base) / stride) else none

/-- The destination bytes of pixel `k`, in increasing channel (41_commands.md R125). -/
def dstPixel (o : Operands) (k : Nat) : List Nat := (List.range o.nch).map (dstAddr o k)

/-- Every destination byte of a command (41_commands.md R130). -/
def dstBytes (o : Operands) : List Nat := (List.range o.n).flatMap (dstPixel o)

/-- `a` is a destination byte of the command (41_commands.md R130). -/
def isDstByte (o : Operands) (a : Nat) : Bool := (pixelAt o.dst o.ds o.n o.nch a).isSome

/-- The pixel whose source byte `a` is, if any (41_commands.md R124). -/
def srcPixelOf (o : Operands) (a : Nat) : Option Nat := pixelAt o.src o.ss o.n o.nch a

/-- `a` is a source byte of the command (41_commands.md R124). -/
def isSrcByte (o : Operands) (a : Nat) : Bool := (srcPixelOf o a).isSome

/-- `a` is a source or a destination byte of the command (41_commands.md R124). -/
def touches (o : Operands) (a : Nat) : Bool := isSrcByte o a || isDstByte o a

end Sys2Proof.Machine
end

