-- ==== Sys2Proof/Machine/Ops.lean ====
section
/-! DEFINITION. The named operations over memory and registers: reading and writing a byte, the START sequence, and
the recording of an error, which is this block's analogue of taking an exception (60_exceptions.md R162, R167). -/

namespace Sys2Proof.Machine

/-! Memory -/

/-- The byte last written at `a`, or `none` if none was (20_memory.md R50). -/
def Memory.read : Memory → Nat → Option Byte
  | [], _ => none
  | (b, v) :: m, a => if a = b then some v else Memory.read m a

/-- Write the byte at `a`, keeping the addresses strictly rising (20_memory.md R50). -/
def Memory.write : Memory → Nat → Byte → Memory
  | [], a, v => [(a, v)]
  | (b, w) :: m, a, v =>
    if a < b then (a, v) :: (b, w) :: m
    else if a = b then (a, v) :: m
    else (b, w) :: Memory.write m a v

/-- The canonical form: strictly rising addresses. -/
def Memory.wf : Memory → Bool
  | [] => true
  | [_] => true
  | c :: d :: m => decide (c.1 < d.1) && Memory.wf (d :: m)

/-- Give each of the bytes a free value (93_implementation_defined.md part 2, "any value"). Log entry 12. -/
def freeBytes (s : State) : List Nat → State
  | [] => s
  | a :: as => freeBytes { s with mem := Memory.write s.mem a (Config.freeByte s.draws), draws := s.draws + 1 } as

/-! Registers -/

/-- A host write to a register other than ID: while BUSY nothing changes but WIB (42_host_access.md R144), while idle
the write has its effect. -/
def hostWrite (effect : State → State) (s : State) : State :=
  if s.block.busy then s.withBlock s.block.withWib else effect s

/-- A host read: the value goes to the host and the block does not change (42_host_access.md R143). -/
def hostRead (value : Block → Word) (s : State) : State := s.withRdata (value s.block)

/-! Errors and START -/

/-- `raise Error(code)`: what an error records, and all it does (60_exceptions.md R162, R167). -/
def raiseError (e : ErrCode) (b : Block) : Block := { b with err := true, errcode := errBits e, done := true }

/-- The return from an error, by the host: ERR and ERRCODE are cleared and nothing else (60_exceptions.md R168, first
way; the second is the next START, `startCommand`). -/
def clearError (b : Block) : Block := { b with err := false, errcode := 0 }

/-- The STATUS write while idle: each W1C bit that is 1 in `v` is cleared, ERRCODE with ERR (42_host_access.md
R146). -/
def clearStatus (v : Word) (b : Block) : Block :=
  let b1 := if v.getLsbD 1 then { b with done := false } else b
  let b2 := if v.getLsbD 2 then clearError b1 else b1
  if v.getLsbD 3 then { b2 with wib := false } else b2

/-- `start()`: the outcome of the last command is cleared, the operands are checked, and the command ends at once (with
an error, or empty) or the engine becomes busy (41_commands.md R120). The hazard interval of an accepted command opens
here (70_reset_and_hazards.md R186; log entry 11). -/
def startCommand (s : State) : State :=
  let b := s.block.clearOutcome
  match validate s.memSize (operands b) with
  | some e => { s with block := raiseError e b, awaited := false }
  | none =>
    if b.count = 0 then { s with block := endEmpty b, awaited := false }
    else
      { s with
        block := beginBusy b
        windows := { ops := operands b, before := s.mem, raced := [], fed := [] } :: s.windows
        awaited := true }

/-- Store the fields of a CTRL write (42_host_access.md R145). -/
def storeCtrl (op : BitVec 4) (nch : Byte) (s : State) : State :=
  s.withBlock { s.block with op := op, nch := nch }

end Sys2Proof.Machine
end

