-- ==== Sys2Proof/Machine/Command.lean ====
section
/-! DEFINITION. The meanings of the two block commands (41_commands.md R122, R123): the CTRL write that starts them.
The engine's steps (Engine.lean) then process the pixels. -/

namespace Sys2Proof.Machine

/-- YCC.FWD (41_commands.md R122): a CTRL write with START = 1 and OP = 1. -/
def execYccFwd (nch : Byte) (s : State) : Host.Outcome State Fault Refusal :=
  .next (hostWrite (fun s => startCommand (storeCtrl 1 nch s)) s)

/-- YCC.INV (41_commands.md R123): a CTRL write with START = 1 and OP = 2. -/
def execYccInv (nch : Byte) (s : State) : Host.Outcome State Fault Refusal :=
  .next (hostWrite (fun s => startCommand (storeCtrl 2 nch s)) s)

end Sys2Proof.Machine
end

