-- ==== Sys2Proof/Machine/HostRead.lean ====
section
/-! DEFINITION. The meanings of the eight register reads (42_host_access.md R143) and the byte-lane view of the
window (R142). -/

namespace Sys2Proof.Machine

/-- A STATUS read that returns DONE = 1 and ERR = 0 for an accepted command is the acquire point: from it on the host
may use the results (20_memory.md R59, 70_reset_and_hazards.md R188). With ERR = 1, or where the last START was refused
or empty, it closes no hazard interval. Log entry 11. -/
def acquire (s : State) : State :=
  if s.block.done && !s.block.err && s.awaited then { s with windows := [], awaited := false } else s

/-- RD.CTRL. -/
def execRdCtrl (s : State) : Host.Outcome State Fault Refusal := .next (hostRead ctrlWord s)

/-- RD.STATUS. -/
def execRdStatus (s : State) : Host.Outcome State Fault Refusal := .next (acquire (hostRead statusWord s))

/-- RD.SRC. -/
def execRdSrc (s : State) : Host.Outcome State Fault Refusal := .next (hostRead (fun b => b.src) s)

/-- RD.SSTRIDE. -/
def execRdSstride (s : State) : Host.Outcome State Fault Refusal := .next (hostRead (fun b => b.sstride) s)

/-- RD.DST. -/
def execRdDst (s : State) : Host.Outcome State Fault Refusal := .next (hostRead (fun b => b.dst) s)

/-- RD.DSTRIDE. -/
def execRdDstride (s : State) : Host.Outcome State Fault Refusal := .next (hostRead (fun b => b.dstride) s)

/-- RD.COUNT. -/
def execRdCount (s : State) : Host.Outcome State Fault Refusal := .next (hostRead (fun b => b.count) s)

/-- RD.ID: the hard-wired value in every state (10_state.md R32). -/
def execRdId (s : State) : Host.Outcome State Fault Refusal := .next (hostRead (fun _ => idValue) s)

/-- The current value of a register (42_host_access.md R143). -/
def regValue (b : Block) : Reg → Word
  | .ctrl => ctrlWord b
  | .status => statusWord b
  | .src => b.src
  | .sstride => b.sstride
  | .dst => b.dst
  | .dstride => b.dstride
  | .count => b.count
  | .id => idValue

/-- Byte lane `i` of a register value (42_host_access.md R142). -/
def byteLane (v : Word) (i : Nat) : Byte := v.extractLsb' (8 * i) 8

/-- The byte the register window shows at a platform address, `none` outside the window (42_host_access.md R142,
10_state.md R37). -/
def windowByte (s : State) (addr : Nat) : Option Byte :=
  if s.regBase ≤ addr then
    (regAt ((addr - s.regBase) / 4 * 4)).map fun r => byteLane (regValue s.block r) ((addr - s.regBase) % 4)
  else none

end Sys2Proof.Machine
end

