-- ==== Sys2Proof/Machine/HostWrite.lean ====
section
/-! DEFINITION. The meanings of the eight register writes (42_host_access.md R144 to R148). -/

namespace Sys2Proof.Machine

/-- The effect of a CTRL write while idle: the fields are stored, and START starts a command with them
(42_host_access.md R145). -/
def writeCtrl (v : Word) (s : State) : State :=
  let t := storeCtrl (opField v) (nchField v) s
  if v.getLsbD 31 then startCommand t else t

/-- WR.CTRL. -/
def execWrCtrl (v : Word) (s : State) : Host.Outcome State Fault Refusal := .next (hostWrite (writeCtrl v) s)

/-- WR.STATUS. -/
def execWrStatus (v : Word) (s : State) : Host.Outcome State Fault Refusal :=
  .next (hostWrite (fun s => s.withBlock (clearStatus v s.block)) s)

/-- WR.SRC. -/
def execWrSrc (v : Word) (s : State) : Host.Outcome State Fault Refusal :=
  .next (hostWrite (fun s => s.withBlock { s.block with src := v }) s)

/-- WR.SSTRIDE. -/
def execWrSstride (v : Word) (s : State) : Host.Outcome State Fault Refusal :=
  .next (hostWrite (fun s => s.withBlock { s.block with sstride := v }) s)

/-- WR.DST. -/
def execWrDst (v : Word) (s : State) : Host.Outcome State Fault Refusal :=
  .next (hostWrite (fun s => s.withBlock { s.block with dst := v }) s)

/-- WR.DSTRIDE. -/
def execWrDstride (v : Word) (s : State) : Host.Outcome State Fault Refusal :=
  .next (hostWrite (fun s => s.withBlock { s.block with dstride := v }) s)

/-- WR.COUNT. -/
def execWrCount (v : Word) (s : State) : Host.Outcome State Fault Refusal :=
  .next (hostWrite (fun s => s.withBlock { s.block with count := v }) s)

/-- WR.ID: no effect at any time, while BUSY too (42_host_access.md R148, 10_state.md R32). -/
def execWrId (_v : Word) (s : State) : Host.Outcome State Fault Refusal := .next s

end Sys2Proof.Machine
end

