-- ==== Sys2Proof/Machine/Dispatch.lean ====
section
/-! DEFINITION. One arm per instruction, each a direct call of its meaning. -/

namespace Sys2Proof.Machine

def exec (i : Instr) (s : State) : Host.Outcome State Fault Refusal :=
  match i with
  | .yccFwd nch => Sys2Proof.Machine.execYccFwd nch s
  | .yccInv nch => Sys2Proof.Machine.execYccInv nch s
  | .rdCtrl => Sys2Proof.Machine.execRdCtrl s
  | .rdStatus => Sys2Proof.Machine.execRdStatus s
  | .rdSrc => Sys2Proof.Machine.execRdSrc s
  | .rdSstride => Sys2Proof.Machine.execRdSstride s
  | .rdDst => Sys2Proof.Machine.execRdDst s
  | .rdDstride => Sys2Proof.Machine.execRdDstride s
  | .rdCount => Sys2Proof.Machine.execRdCount s
  | .rdId => Sys2Proof.Machine.execRdId s
  | .wrCtrl v => Sys2Proof.Machine.execWrCtrl v s
  | .wrStatus v => Sys2Proof.Machine.execWrStatus v s
  | .wrSrc v => Sys2Proof.Machine.execWrSrc v s
  | .wrSstride v => Sys2Proof.Machine.execWrSstride v s
  | .wrDst v => Sys2Proof.Machine.execWrDst v s
  | .wrDstride v => Sys2Proof.Machine.execWrDstride v s
  | .wrCount v => Sys2Proof.Machine.execWrCount v s
  | .wrId v => Sys2Proof.Machine.execWrId v s

end Sys2Proof.Machine
end

