-- ==== Sys2Proof/Machine/Pixel.lean ====
section
/-! DEFINITION. The pixel function (40_pixel_datapath.md): exact integer arithmetic, narrowed to bytes at the end. -/

namespace Sys2Proof.Machine

/-- `a >> n` = floor(a / 2^n), for negative `a` too (00_scope.md R7). -/
def shr (a : Int) (n : Nat) : Int := a / 2 ^ n

/-- `clamp8(v) = min(max(v, 0), 255)` (00_scope.md R7). -/
def clamp8 (v : Int) : Int := min (max v 0) 255

/-- A byte read as an unsigned integer (00_scope.md R7, `zext_8`). -/
def zext8 (b : Byte) : Int := b.toNat

/-- The byte of an integer in 0..255 (00_scope.md R7: a result stored into a byte is already in that range). -/
def toByte (v : Int) : Byte := BitVec.ofInt 8 v

/-- The forward transform (40_pixel_datapath.md R101). -/
def fwd (r g b : Int) : Int × Int × Int :=
  (shr (r + 2 * g + b + 2) 2, shr ((b - g) + 256) 1, shr ((r - g) + 256) 1)

/-- The inverse's unclamped results (R', G', B'), both others from the unclamped G' (40_pixel_datapath.md R104). -/
def invRaw (y cb cr : Int) : Int × Int × Int :=
  let dB := 2 * cb - 255
  let dR := 2 * cr - 255
  let g := y - shr (dB + dR + 2) 2
  (g + dR, g, g + dB)

/-- The inverse transform: all three results are clamped at the end (40_pixel_datapath.md R104). -/
def inv (y cb cr : Int) : Int × Int × Int :=
  let rgb := invRaw y cb cr
  (clamp8 rgb.1, clamp8 rgb.2.1, clamp8 rgb.2.2)

/-- A transform of integers on the three samples of a pixel. -/
def onBytes (f : Int → Int → Int → Int × Int × Int) (a b c : Byte) : List Byte :=
  let t := f (zext8 a) (zext8 b) (zext8 c)
  [toByte t.1, toByte t.2.1, toByte t.2.2]

/-- The pixel function on the bytes of one pixel: with three or more channels the first three are transformed and
the others are copies; with fewer every channel is a copy (40_pixel_datapath.md R100, R106, R107). START has checked
that `op` is 1 or 2; the pseudocode's other case, a copy, is kept (log entry 19). -/
def pix (op : BitVec 4) (nch : Nat) (p : List Byte) : List Byte :=
  match p with
  | a :: b :: c :: rest =>
    if 3 ≤ nch then
      if op = 1 then onBytes fwd a b c ++ rest
      else if op = 2 then onBytes inv a b c ++ rest
      else p
    else p
  | _ => p

end Sys2Proof.Machine
end

