-- ==== Sys2Proof/Machine/Race.lean ====
section
/-! DEFINITION. The outcomes of a race on a command's bytes: each byte takes its old or its new value, never a mix of
bits, and which one is a free choice (70_reset_and_hazards.md R186; 20_memory.md R54; 92_eei_decisions.md D27). Log
entry 10. -/

namespace Sys2Proof.Machine

/-- One of the outcomes `c :: cs`, by a free choice; where there is only one, that one. -/
def choose (draw a : Nat) (c : Byte) : List Byte → Byte
  | [] => c
  | d :: ds => (c :: d :: ds).getD (Config.choice draw a % (ds.length + 2)) c

/-- The values that writes have put at `a`, in their order. -/
def valuesAt (cs : List Host.Cell) (a : Nat) : List Byte := (cs.filter fun c => c.1 = a).map (·.2)

/-- The values racing host writes have put at `a`, newest first. -/
def Window.racing (w : Window) (a : Nat) : List Byte := valuesAt w.raced a

/-- The values a race may have brought to `a`: those of racing host writes, and those of older open commands. -/
def Window.finds (w : Window) (a : Nat) : List Byte := w.racing a ++ valuesAt w.fed a

/-- What the engine's read of a source byte may find: the byte in memory, or, after a race, the byte at START or any that
the race brought ("may or may not be seen", R186). A byte that nothing had written at START has no value, also where a
racing write came later (R184): the model's choice, log entries 6 and 10. -/
def seen (draw : Nat) (w : Window) (m : Memory) (a : Nat) : Option Byte :=
  match w.finds a with
  | [] => Memory.read m a
  | v :: vs => (Memory.read w.before a).map fun u => choose draw a u (v :: vs)

/-- What a destination byte holds once the engine has written `v` there: `v`, or the last racing host write ("may be
overwritten by the engine, or may survive", R186). -/
def landed (draw : Nat) (w : Window) (a : Nat) (v : Byte) : Byte := choose draw a v ((w.racing a).take 1)

/-- The values of a list of reads, if every one has a value. -/
def allSome : List (Option Byte) → Option (List Byte)
  | [] => some []
  | none :: _ => none
  | some v :: xs => (allSome xs).map (v :: ·)

/-- The bytes the engine writes for pixel `k`, from the source bytes at START and the racing writes; none if a source
byte had no value. -/
def newPixel (draw : Nat) (w : Window) (k : Nat) : Option (List Byte) :=
  (allSome ((List.range w.ops.nch).map fun j => seen draw w w.before (srcAddr w.ops k j))).map
    (pix w.ops.op w.ops.nch)

/-- The old and the new byte of a destination byte of the command. An old byte that was never written is any value. -/
def oldAndNew (draw : Nat) (w : Window) (a : Nat) : List Byte :=
  match pixelAt w.ops.dst w.ops.ds w.ops.n w.ops.nch a with
  | none => []
  | some k =>
    (Memory.read w.before a).getD (Config.freeByte draw) ::
      ((newPixel (draw + 1) w k).bind fun q => q[a - dstAddr w.ops k 0]?).toList

/-- Record a racing host write in a window whose bytes it falls on. -/
def Window.note (a : Nat) (v : Byte) (w : Window) : Window :=
  if touches w.ops a then { w with raced := (a, v) :: w.raced } else w

/-- What a destination byte of a recomputed pixel holds: the recomputed byte `v`, the last racing host write, or the byte
that stood there, be it this command's or a newer one's (92_eei_decisions.md D27: every old/new combination). -/
def relanded (draw : Nat) (w : Window) (m : Memory) (a : Nat) (v : Byte) : Byte :=
  choose draw a v ((w.racing a).take 1 ++ (Memory.read m a).toList)

/-- What memory holds once the bytes of a recomputed pixel, from `a` on, have been settled one by one. -/
def relandBytes (draw : Nat) (w : Window) (a : Nat) : List Byte → Memory → Memory
  | [], m => m
  | v :: vs, m => relandBytes draw w (a + 1) vs (Memory.write m a (relanded draw w m a v))

/-- The bytes from `a` on, as writes. -/
def cellsFrom (a : Nat) : List Byte → List Host.Cell
  | [] => []
  | v :: vs => (a, v) :: cellsFrom (a + 1) vs

/-- What a racing host write has done so far, while it spreads from the oldest open command to the newest. -/
structure Spread where
  /-- The machine. -/
  state   : State
  /-- The bytes of the pixels recomputed so far. -/
  cells   : List Host.Cell
  /-- The windows passed so far, newest first. -/
  windows : List Window
  deriving DecidableEq, Repr

/-- A pixel the engine has processed may have been computed with what the race brought: then its destination bytes are
those recomputed, and a newer command may have read them. -/
def recompute (w : Window) (r : Spread) (k : Nat) : Spread :=
  match newPixel r.state.draws w k with
  | none => r
  | some q =>
    { r with
      state := { r.state with
        mem := relandBytes (r.state.draws + 1) w (dstAddr w.ops k 0) q r.state.mem
        draws := r.state.draws + 2 }
      cells := cellsFrom (dstAddr w.ops k 0) q ++ r.cells }

/-- The pixels among the `done` processed ones that have a source byte among the addresses. -/
def pixelsHit (o : Operands) (done : Nat) (as : List Nat) : List Nat :=
  ((as.filterMap (srcPixelOf o)).filter (· < done)).eraseDups

/-- Record what recomputed pixels of older commands bring to a command's source bytes. -/
def Window.feed (cs : List Host.Cell) (w : Window) : Window :=
  { w with fed := cs.filter (fun c => isSrcByte w.ops c.1) ++ w.fed }

/-- A racing write to `a` spreads over the open commands, given newest first with the number of their processed pixels: the
oldest is settled first, and what its recomputed pixels bring races with the newer ones in turn
(70_reset_and_hazards.md R186). Log entry 22. -/
def spread (a : Nat) (s : State) : List (Window × Nat) → Spread
  | [] => { state := s, cells := [], windows := [] }
  | (w, done) :: older =>
    let r := spread a s older
    let w' := w.feed r.cells
    let t := (pixelsHit w.ops done (a :: r.cells.map (·.1))).foldl (recompute w') r
    { t with windows := w' :: r.windows }

end Sys2Proof.Machine
end

