-- ==== Sys2Proof/Machine/Engine.lean ====
section
/-! DEFINITION. The command engine: one pixel a step (41_commands.md R121, R125, R127). -/

namespace Sys2Proof.Machine

/-- The hazard interval of the running command. -/
def currentWindow (s : State) : Window :=
  s.windows.headD { ops := operands s.block, before := s.mem, raced := [], fed := [] }

/-- The byte an engine read finds: the byte in memory, but for a race (20_memory.md R50, 70_reset_and_hazards.md
R186). -/
def engineSees (s : State) (a : Nat) : Option Byte := seen s.draws (currentWindow s) s.mem a

/-- `MemRead(a, 1)` by the engine (20_memory.md R50). A byte without a value is refused (70_reset_and_hazards.md
R184). -/
def engineRead (s : State) (a : Nat) : Host.Outcome Byte Fault Refusal :=
  if s.memSize ≤ a then .fault .addressOutsideMemory
  else
    match engineSees s a with
    | some v => .next v
    | none => .refused .sourceByteNeverWritten

/-- Read `n` bytes from `a` on, in increasing address (41_commands.md R125). -/
def engineReads (s : State) (a : Nat) : Nat → Host.Outcome (List Byte) Fault Refusal
  | 0 => .next []
  | n + 1 =>
    match engineRead s a with
    | .fault f => .fault f
    | .refused r => .refused r
    | .next v =>
      match engineReads s (a + 1) n with
      | .fault f => .fault f
      | .refused r => .refused r
      | .next vs => .next (v :: vs)

/-- `MemWrite(a, 1, v)` by the engine (20_memory.md R50). A racing host write there may survive it
(70_reset_and_hazards.md R186). -/
def engineWrite (s : State) (a : Nat) (v : Byte) : Host.Outcome State Fault Refusal :=
  if s.memSize ≤ a then .fault .addressOutsideMemory
  else .next (s.withMem (Memory.write s.mem a (landed (s.draws + 1) (currentWindow s) a v)))

/-- Write the bytes from `a` on, in increasing address (41_commands.md R125). -/
def engineWrites (s : State) (a : Nat) : List Byte → Host.Outcome State Fault Refusal
  | [] => .next s
  | v :: vs =>
    match engineWrite s a v with
    | .fault f => .fault f
    | .refused r => .refused r
    | .next t => engineWrites t (a + 1) vs

/-- `process_pixel(k)`: all reads, then the pixel function, then all writes (41_commands.md R125). -/
def processPixel (s : State) (o : Operands) (k : Nat) : Host.Outcome State Fault Refusal :=
  match engineReads s (srcAddr o k 0) o.nch with
  | .fault f => .fault f
  | .refused r => .refused r
  | .next p => engineWrites s (dstAddr o k 0) (pix o.op o.nch p)

/-- `engine_step()`: the pixel `k`, then `k` goes on and the last pixel completes the command (41_commands.md R121,
R127). It runs only while BUSY (`agent`), and uses up the two free choices its reads and writes may have made. -/
def engineStep (s : State) : Host.Outcome State Fault Refusal :=
  match processPixel s (operands s.block) s.block.k with
  | .fault f => .fault f
  | .refused r => .refused r
  | .next t => .next { t with block := endPixel t.block, draws := t.draws + 2 }

end Sys2Proof.Machine
end

