-- ==== Sys2Proof/Machine/HostMemory.lean ====
section
/-! DEFINITION. The data memory as the host and other bus agents reach it, with the races the spec names
(70_reset_and_hazards.md R186, 20_memory.md R58 to R60), and the platform's reset (70_reset_and_hazards.md R180). -/

namespace Sys2Proof.Machine

/-- The open windows, newest first, each with the number of its pixels the engine has processed. -/
def processed (s : State) : List (Window × Nat) :=
  match s.windows with
  | [] => []
  | w :: ws => (w, if s.block.busy then s.block.k else w.ops.n) :: ws.map fun w => (w, w.ops.n)

/-- What the byte at `a` holds after a host write of `v`: on a destination byte of an open command, `v` or the byte that
stood there, which a write of the engine may have put there after it (70_reset_and_hazards.md R186). A byte that nothing
had written holds `v`. -/
def hostLanded (s : State) (a : Nat) (v : Byte) : Byte :=
  if s.windows.any fun w => isDstByte w.ops a then choose s.draws a v (Memory.read s.mem a).toList else v

/-- The host's write itself, recorded in the open windows. -/
def landHost (a : Nat) (v : Byte) (s : State) : State :=
  { s with
    mem := Memory.write s.mem a (hostLanded s a v)
    windows := s.windows.map (Window.note a v)
    draws := s.draws + 1 }

/-- A host write of one byte. Outside the bytes of every open command it is a plain write. Otherwise it races, and every
outcome the spec lists may happen, in every combination over the open commands (70_reset_and_hazards.md R186,
92_eei_decisions.md D27; log entry 22). That the byte then counts as written for the commands that start after it, and not
for those already open, is the model's choice (R184; log entries 6 and 10). -/
def hostMemWrite (a : Nat) (v : Byte) (s : State) : Host.Outcome State Fault Refusal :=
  if s.memSize ≤ a then .fault .addressOutsideMemory
  else if s.windows.any fun w => touches w.ops a then
    let r := spread a (landHost a v s) (processed (landHost a v s))
    .next { r.state with windows := r.windows }
  else .next (s.withMem (Memory.write s.mem a v))

/-- The old and the new bytes a host read of a destination byte of an open command may return
(70_reset_and_hazards.md R186, R188; 20_memory.md R54, R59). -/
def racingReads (s : State) (a : Nat) : List Byte := s.windows.flatMap fun w => oldAndNew s.draws w a

/-- A host read of one byte: the byte last written (20_memory.md R50); of a destination byte of an open command its old
or its new byte, or the one that stands there now (70_reset_and_hazards.md R186, log entry 10); of a byte nothing has
written any value (R181, log entry 13). -/
def hostMemRead (a : Nat) (s : State) : Host.Outcome State Fault Refusal :=
  if s.memSize ≤ a then .fault .addressOutsideMemory
  else
    match racingReads s a, Memory.read s.mem a with
    | c :: cs, now => .next { s with hostByte := choose s.draws a c (cs ++ now.toList), draws := s.draws + 2 }
    | [], some v => .next { s with hostByte := v }
    | [], none => .next { s with hostByte := Config.freeByte s.draws, draws := s.draws + 1 }

/-- A reset of the instance. A running command is abandoned, and each of its destination bytes has any value; no
other byte of memory changes (70_reset_and_hazards.md R180, R181). Log entries 12 and 21. -/
def platformReset (s : State) : State :=
  if s.block.busy then
    freeBytes { s with block := Block.reset, windows := s.windows.tail, awaited := false }
      (dstBytes (operands s.block))
  else { s with block := Block.reset, awaited := false }

end Sys2Proof.Machine
end

