-- ==== Sys2Proof/Machine/Turn.lean ====
section
/-! DEFINITION. Which agent moves next, and what its step is (00_scope.md R12, 42_host_access.md R140,
70_reset_and_hazards.md R190). -/

namespace Sys2Proof.Machine

/-- The agent that moves next. -/
inductive Agent where
  /-- The engine: one pixel. -/
  | engine
  /-- The host or the platform: this event. -/
  | host (e : Event)
  /-- Nobody: the block is idle and the host has nothing to do. -/
  | nobody
  deriving DecidableEq, Repr

/-- How many host steps come before the engine's next step: fixed by State, or free and finite
(70_reset_and_hazards.md R190). Log entry 4. -/
def hostBudget (s : State) : Nat :=
  match s.pace with
  | n :: _ => n
  | [] => Config.hostSteps s.turns

/-- The engine moves only while BUSY (41_commands.md R121); the host may move at any time; between them the order is
free (70_reset_and_hazards.md R190). Log entries 4 and 5. -/
def agent (s : State) : Agent :=
  match s.block.busy, s.queue with
  | false, [] => .nobody
  | false, e :: _ => .host e
  | true, [] => .engine
  | true, e :: _ =>
    match hostBudget s with
    | 0 => .engine
    | _ + 1 => .host e

/-- The state in which the host's step runs: its event is taken, and while BUSY one of its steps is used up. -/
def takeEvent (s : State) : State :=
  { s with
    queue := s.queue.tail
    pace := if s.block.busy then (hostBudget s - 1) :: s.pace.tail else s.pace }

/-- The state after the engine's step, with the next choice of pace to come. -/
def passTurn (s : State) : State := { s with pace := s.pace.tail, turns := s.turns + 1 }

/-- A host transaction: decoded and run, or refused with no effect (42_host_access.md R141). -/
def transact (a : Access) (s : State) : Host.Outcome State Fault Refusal :=
  match decode a with
  | .ok i => exec i s
  | .error r => .refused (.unsupportedAccess r)

/-- One read of a poll loop; the poll stays pending until the condition holds (30_encoding.md R76). Log entry 17. -/
def pollOnce (off : Nat) (mask value : Word) (s : State) : Host.Outcome State Fault Refusal :=
  match transact { dir := .read, width := 32, off := off, data := 0 } s with
  | .fault f => .fault f
  | .refused r => .refused r
  | .next t =>
    if t.rdata &&& mask = value then .next t
    else .next { t with queue := .poll off mask value :: t.queue }

/-- The step of an event (00_scope.md R12, 70_reset_and_hazards.md R180). -/
def hostTurn (e : Event) (s : State) : Host.Outcome State Fault Refusal :=
  match e with
  | .access a => transact a s
  | .poll off mask value => pollOnce off mask value s
  | .memWrite a v => hostMemWrite a v s
  | .memRead a => hostMemRead a s
  | .reset => .next (platformReset s)

/-- The engine's step and the turn it ends. -/
def engineTurn (s : State) : Host.Outcome State Fault Refusal :=
  match engineStep s with
  | .fault f => .fault f
  | .refused r => .refused r
  | .next t => .next (passTurn t)

/-- Place a word of the opcode table as the host's next transaction, and let the host move next. -/
def placeAccess (a : Access) (s : State) : State :=
  { s with
    queue := .access a :: s.queue
    pace := if s.block.busy then (hostBudget s + 1) :: s.pace.tail else s.pace }

end Sys2Proof.Machine
end

