-- ==== Sys2Proof/Machine/Step.lean ====
section
/-! DEFINITION. One step of the machine: the agent that moves next takes its step. -/

namespace Sys2Proof.Machine

/-- One step. Where nobody has anything to do, nothing changes (log entry 5). -/
def step (s : State) : Host.Outcome State Fault Refusal :=
  match agent s with
  | .engine => engineTurn s
  | .host e => hostTurn e (takeEvent s)
  | .nobody => .next s

/-- `s` with the instruction of a table word as the host's next transaction, so that the next step runs it. A program
is a list of transactions that comes from outside the block; this stands for that load. Log entry 16. -/
def State.withFetchWord (s : State) (nbits w : Nat) : State := placeAccess (tableAccess nbits w) s

end Sys2Proof.Machine
end

