-- ==== Sys2Proof/Safety.lean ====
section
/-! DEFINITION. What holds of every state the machine reaches, and the other terms the statements use. -/

namespace Sys2Proof.Machine

/-- A command that passed validation with at least one pixel (60_exceptions.md R164, 41_commands.md R120). -/
def Accepted (memSize : Nat) (o : Operands) : Prop := validate memSize o = none ∧ 0 < o.n

/-- The invariant of the block: BUSY excludes DONE (10_state.md R24), ERR and ERRCODE agree (10_state.md R25,
60_exceptions.md R161), and a running command was accepted and has a pixel to go (10_state.md R33). -/
structure Block.Inv (memSize : Nat) (b : Block) : Prop where
  notBoth  : ¬(b.busy = true ∧ b.done = true)
  noCode   : b.err = false → b.errcode = 0
  code     : b.err = true → 1 ≤ b.errcode.toNat ∧ b.errcode.toNat ≤ 4
  running  : b.busy = true → b.err = false ∧ Accepted memSize (operands b) ∧ b.k < b.count.toNat

/-- The invariant of the machine: the memory is in its canonical form and inside MEM_SIZE (20_memory.md R50), the
block keeps its own invariant, every open hazard window is of an accepted command and holds a canonical memory, and the
running command's window is the newest and its DONE = 1 is awaited (70_reset_and_hazards.md R186). -/
structure Inv (s : State) : Prop where
  wf      : Memory.wf s.mem = true
  inside  : ∀ c ∈ s.mem, c.1 < s.memSize
  block   : Block.Inv s.memSize s.block
  windows : ∀ w ∈ s.windows, Accepted s.memSize w.ops ∧ Memory.wf w.before = true
  current : s.block.busy = true →
    s.awaited = true ∧ ∃ w rest, s.windows = w :: rest ∧ w.ops = operands s.block

/-- The bytes of source pixel `k`, a byte nothing has written read as 0 (used only where all of
them were written). -/
def sourcePixel (m : Memory) (o : Operands) (k : Nat) : List Byte :=
  (List.range o.nch).map fun j => (Memory.read m (srcAddr o k j)).getD 0

/-- The next state of an outcome, if it has one. -/
def nextState? : Host.Outcome State Fault Refusal → Option State
  | .next s => some s
  | .fault _ => none
  | .refused _ => none

/-- An address lies in the source or the destination interval of a command (60_exceptions.md R164,
70_reset_and_hazards.md R186). -/
def InBuffers (o : Operands) (a : Nat) : Prop := (o.src ≤ a ∧ a ≤ srcEnd o) ∨ (o.dst ≤ a ∧ a ≤ dstEnd o)

/-- A host write of `a` may change `b`, a destination byte of an open command, because `a` is a source byte of it or of an
older one, which may feed it. The commands are given newest first. -/
def Reached (os : List Operands) (a b : Nat) : Prop :=
  ∃ o older, (o :: older) <:+ os ∧ isDstByte o b = true ∧ ∃ x ∈ o :: older, isSrcByte x a = true

/-- The pixels before `k` are transformed and every other byte of the command's buffers is as in `m0`, the memory at
START (41_commands.md R131). -/
def Transformed (m0 : Memory) (o : Operands) (k : Nat) (m : Memory) : Prop :=
  (∀ k' j, k' < k → j < o.nch →
    Memory.read m (dstAddr o k' j) = (pix o.op o.nch (sourcePixel m0 o k'))[j]?) ∧
  (∀ a, InBuffers o a → (∀ k' j, k' < k → j < o.nch → a ≠ dstAddr o k' j) →
    Memory.read m a = Memory.read m0 a)

/-- A command `o` that began on memory `m0` is running in `s`, no race has touched it, and its buffers are as far as its
`k`. -/
def Underway (m0 : Memory) (o : Operands) (s : State) : Prop :=
  Inv s ∧ s.block.busy = true ∧ operands s.block = o ∧
    (∃ rest, s.windows = { ops := o, before := m0, raced := [], fed := [] } :: rest) ∧ Transformed m0 o s.block.k s.mem

/-- The same machine with another block and no hazard record: what another instance of the block sees, which shares only
the data memory (60_exceptions.md R171). -/
def State.asInstance (s : State) (b : Block) : State := { s with block := b, windows := [], awaited := false }

end Sys2Proof.Machine
end

