-- ==== Sys2Proof/Certificates/Slice0/Obligations.lean ====
section
/-! DEFINITION. The statements for the provers. Each docstring names the rule or the section of spec/ it rests on, and
the log entry where it rests on a choice of the model's. -/

open Sys2Proof Sys2Proof.Machine

/-! ## Encoding -/

/-- Words written out from the encodings of the spec decode to the instructions they stand for (30_encoding.md R70,
R72, R82; the CTRL words are those of 95_test_vectors.md P1, P2 and X17). -/
def Obligations.WordsOfTheSpecDecode : Prop :=
  decode { dir := .write, width := 32, off := 0x00, data := 0x80000401 } = .ok (.yccFwd 4) ∧
  decode { dir := .write, width := 32, off := 0x00, data := 0xFFFF03F1 } = .ok (.yccFwd 3) ∧
  decode { dir := .write, width := 32, off := 0x00, data := 0x80000302 } = .ok (.yccInv 3) ∧
  decode { dir := .write, width := 32, off := 0x00, data := 0x80000303 } = .ok (.wrCtrl 0x80000303) ∧
  decode { dir := .write, width := 32, off := 0x00, data := 0x00000301 } = .ok (.wrCtrl 0x00000301) ∧
  decode { dir := .read, width := 32, off := 0x1C, data := 0 } = .ok .rdId ∧
  decode { dir := .read, width := 32, off := 0x04, data := 0 } = .ok .rdStatus ∧
  decode { dir := .write, width := 32, off := 0x04, data := 0x0000000E } = .ok (.wrStatus 0x0000000E) ∧
  decode { dir := .write, width := 32, off := 0x18, data := 0x00000002 } = .ok (.wrCount 0x00000002)

/-- Decoding an encoded well-formed instruction gives it back, with every operand at every value (30_encoding.md R70,
R73, R82). -/
def Obligations.DecodeEncodeRoundTrip : Prop :=
  ∀ i : Instr, WellFormed i = true → decode (encode i) = .ok i

/-- What decodes is well-formed, and encoding it gives the access back but for a read's unused datum and the reserved
bits of a command word (30_encoding.md R73, R82). -/
def Obligations.EncodeDecodeGivesTheAccessBack : Prop :=
  ∀ (a : Access) (i : Instr), decode a = .ok i →
    WellFormed i = true ∧ (encode i).dir = a.dir ∧ (encode i).width = a.width ∧ (encode i).off = a.off ∧
    (a.dir = .write →
      (encode i).data = a.data ∨ (a.off = 0 ∧ (encode i).data = a.data &&& 0x8000FF0F))

/-- R73: the decoding of a CTRL write, first matching row first; bits 7:4 and 30:16 do not enter it; a reserved command
ends with ERR_OP. (Of the model's own fields `awaited` may change, log entry 11.) -/
def Obligations.CtrlWriteDecodesByFirstRow : Prop :=
  (∀ w : Word, decode { dir := .write, width := 32, off := 0x00, data := w } = .ok
    (if w.getLsbD 31 = false then .wrCtrl w
     else if w &&& 0x8000000F = 0x80000001 then .yccFwd (w.extractLsb' 8 8)
     else if w &&& 0x8000000F = 0x80000002 then .yccInv (w.extractLsb' 8 8)
     else .wrCtrl w)) ∧
  (∀ (w : Word) (s : State), s.block.busy = false → w.getLsbD 31 = true →
    w &&& 0x8000000F ≠ 0x80000001 → w &&& 0x8000000F ≠ 0x80000002 →
    ∃ t, exec (.wrCtrl w) s = .next t ∧ t = { s with
      block := { s.block with
        op := w.extractLsb' 0 4, nch := w.extractLsb' 8 8, done := true, err := true, errcode := 1 }
      awaited := t.awaited })

/-- A CTRL write has the effect of HostWrite(0x00, w) whichever row it decodes to (30_encoding.md R82, 42_host_access.md
R145). -/
def Obligations.CommandIsACtrlWrite : Prop :=
  ∀ (w : Word) (s : State), exec (decodeCtrl w) s = exec (.wrCtrl w) s

/-- R141: exactly the aligned 32-bit accesses to the eight offsets are supported; every other is refused, with no
effect. -/
def Obligations.UnsupportedAccessIsRefused : Prop :=
  ∀ a : Access,
    (a.width = 32 ∧ a.off ∈ [0x00, 0x04, 0x08, 0x0C, 0x10, 0x14, 0x18, 0x1C] → ∃ i, decode a = .ok i) ∧
    (¬(a.width = 32 ∧ a.off ∈ [0x00, 0x04, 0x08, 0x0C, 0x10, 0x14, 0x18, 0x1C]) →
      ∃ r, ∀ s rest, s.queue = .access a :: rest → (s.block.busy = true → hostBudget s ≠ 0) →
        step s = .refused (.unsupportedAccess r))

/-! ## Steps -/

/-- The host's step is its next event's, on the state whose queue has lost the event and, while BUSY, one step of the
host's: an access that decodes runs its instruction, a poll reads once, a memory write, a memory read and a reset have
their effects (00_scope.md R12, 42_host_access.md R140, 70_reset_and_hazards.md R180; the order of the agents is log
entry 4, the events are log entries 16, 17 and 21). -/
def Obligations.StepRunsDecodedAccess : Prop :=
  ∀ (s : State) (e : Event) (rest : List Event), s.queue = e :: rest → (s.block.busy = true → hostBudget s ≠ 0) →
    let u := { s with
      queue := rest, pace := if s.block.busy then (hostBudget s - 1) :: s.pace.tail else s.pace }
    step s = hostTurn e u ∧
    (∀ a i, e = .access a → decode a = .ok i → step s = exec i u) ∧
    (∀ off mask value, e = .poll off mask value → step s = hostTurn (.poll off mask value) u) ∧
    (∀ a v, e = .memWrite a v → step s = hostMemWrite a v u) ∧
    (∀ a, e = .memRead a → step s = hostMemRead a u) ∧
    (e = .reset → step s = .next (platformReset u))

/-- The engine's step runs while BUSY when the host has nothing to do or has used up its steps, and never otherwise
(41_commands.md R121; log entry 4). With BUSY = 0 and nothing to do, nothing changes (log entry 5). -/
def Obligations.StepRunsTheEngineOnlyWhileBusy : Prop :=
  ∀ s : State,
    (s.block.busy = true → s.queue = [] ∨ hostBudget s = 0 →
      (∀ t, engineStep s = .next t → step s = .next { t with pace := t.pace.tail, turns := t.turns + 1 }) ∧
      (∀ f, engineStep s = .fault f → step s = .fault f) ∧
      (∀ r, engineStep s = .refused r → step s = .refused r)) ∧
    (agent s = .engine → s.block.busy = true) ∧
    (s.block.busy = false → s.queue = [] → step s = .next s)

/-- Placing a word of the table makes the next step run the instruction the decoder reads from it (log entries 1,
16). -/
def Obligations.PlacedWordRunsNext : Prop :=
  ∀ (s : State) (nbits w : Nat) (i : Instr), decodeTableWord nbits w = some i →
    step (s.withFetchWord nbits w) =
      exec i { s with pace := if s.block.busy then hostBudget s :: s.pace.tail else s.pace }

/-- The order of host and engine is free while BUSY: in every BUSY state with an event pending the engine may move next
and the host may (70_reset_and_hazards.md R187, R190; log entry 4). -/
def Obligations.EitherAgentMayMoveWhileBusy : Prop :=
  ∀ (s : State) (e : Event) (rest : List Event), s.block.busy = true → s.queue = e :: rest →
    (∃ p, agent { s with pace := p } = .engine) ∧ (∃ p, agent { s with pace := p } = .host e)

/-- While BUSY every host step, a reset apart, uses up one of the finitely many that come before the engine's next step
and leaves the engine where it is: the engine gets its step (70_reset_and_hazards.md R190; log entry 4). -/
def Obligations.HostStepsBeforeTheEngineRunOut : Prop :=
  ∀ (s t : State) (e : Event), s.block.busy = true → agent s = .host e → e ≠ .reset → step s = .next t →
    t.block.busy = true ∧ t.block.k = s.block.k ∧ hostBudget t + 1 = hostBudget s

/-- A poll reads its register once a step and stays pending until the condition holds (30_encoding.md R76; log entry
17). -/
def Obligations.PollReadsUntilTheConditionHolds : Prop :=
  ∀ (s : State) (off : Nat) (mask value : Word) (i : Instr),
    decode { dir := .read, width := 32, off := off, data := 0 } = .ok i →
    ∃ t, exec i s = .next t ∧ t.block = s.block ∧
      (t.rdata &&& mask = value → hostTurn (.poll off mask value) s = .next t) ∧
      (t.rdata &&& mask ≠ value →
        hostTurn (.poll off mask value) s = .next { t with queue := .poll off mask value :: t.queue })

/-! ## Register reads -/

/-- Each of the eight reads answers the register's current value, in every state; the block, the memory and all else
stay as they are (42_host_access.md R143). A STATUS read that returns DONE = 1 is also the acquire point (20_memory.md
R59, 70_reset_and_hazards.md R188; log entry 11): with ERR = 0, and for an accepted command, it closes the hazard
intervals. -/
def Obligations.ReadsReturnTheRegisters : Prop :=
  ∀ s : State,
    exec .rdCtrl s = .next { s with rdata := 0#16 ++ s.block.nch ++ 0#4 ++ s.block.op } ∧
    exec .rdStatus s = .next { s with
      rdata := 0#24 ++ s.block.errcode ++ BitVec.ofBool s.block.wib ++ BitVec.ofBool s.block.err ++
        BitVec.ofBool s.block.done ++ BitVec.ofBool s.block.busy
      windows := if s.block.done && !s.block.err && s.awaited then [] else s.windows
      awaited := if s.block.done && !s.block.err && s.awaited then false else s.awaited } ∧
    exec .rdSrc s = .next { s with rdata := s.block.src } ∧
    exec .rdSstride s = .next { s with rdata := s.block.sstride } ∧
    exec .rdDst s = .next { s with rdata := s.block.dst } ∧
    exec .rdDstride s = .next { s with rdata := s.block.dstride } ∧
    exec .rdCount s = .next { s with rdata := s.block.count } ∧
    exec .rdId s = .next { s with rdata := 0x31434359 }

/-- R32, R148: ID reads 0x31434359 at all times, its bytes at increasing offsets are 0x59 0x43 0x43 0x31, and a write to
it has no effect at any time, while BUSY too. -/
def Obligations.IdIsHardWired : Prop :=
  ∀ s : State,
    exec .rdId s = .next { s with rdata := 0x31434359 } ∧
    windowByte s (s.regBase + 0x1C) = some 0x59 ∧ windowByte s (s.regBase + 0x1D) = some 0x43 ∧
    windowByte s (s.regBase + 0x1E) = some 0x43 ∧ windowByte s (s.regBase + 0x1F) = some 0x31 ∧
    ∀ v, exec (.wrId v) s = .next s

/-- R142: byte lane `i` of a register, at address REG_BASE + off + i, carries bits 8i+7 to 8i of its value, which is the
value the read of that register delivers. -/
def Obligations.RegistersAreLittleEndian : Prop :=
  ∀ (s : State) (r : Reg) (i : Nat), i < 4 →
    ∃ t b, exec (decodeRead r) s = .next t ∧ windowByte s (s.regBase + regOffset r + i) = some b ∧
      ∀ n, n < 8 → b.getLsbD n = t.rdata.getLsbD (8 * i + n)

/-! ## Register writes -/

/-- R144: while BUSY a write to any offset 0x00 to 0x18, a command too, changes nothing but WIB; a write to ID changes
nothing. -/
def Obligations.WritesWhileBusyAreDropped : Prop :=
  ∀ (s : State) (v : Word) (nch : Byte), s.block.busy = true →
    (∀ i ∈ [Instr.yccFwd nch, .yccInv nch, .wrCtrl v, .wrStatus v, .wrSrc v, .wrSstride v, .wrDst v, .wrDstride v,
        .wrCount v],
      exec i s = .next { s with block := { s.block with wib := true } }) ∧
    exec (.wrId v) s = .next s

/-- R145: a CTRL write while idle stores OP and NCH, bits 7:4 and 30:16 do not enter, and START starts a command with
the values just stored; without START nothing else changes, STATUS included. -/
def Obligations.CtrlWriteStoresAndStarts : Prop :=
  ∀ (s : State) (v : Word), s.block.busy = false →
    let t := { s with block := { s.block with op := v.extractLsb' 0 4, nch := v.extractLsb' 8 8 } }
    (v.getLsbD 31 = false → exec (.wrCtrl v) s = .next t) ∧
    (v.getLsbD 31 = true → exec (.wrCtrl v) s = .next (startCommand t))

/-- R146: a STATUS write while idle clears DONE, ERR (with ERRCODE) and WIB where the value has a 1, and changes nothing
else. -/
def Obligations.StatusWriteClearsWhereOne : Prop :=
  ∀ (s : State) (v : Word), s.block.busy = false →
    exec (.wrStatus v) s = .next { s with block := { s.block with
      done := if v.getLsbD 1 then false else s.block.done
      err := if v.getLsbD 2 then false else s.block.err
      errcode := if v.getLsbD 2 then 0 else s.block.errcode
      wib := if v.getLsbD 3 then false else s.block.wib } }

/-- R147: an operand register write while idle stores all 32 bits, without a check, and the value reads back. -/
def Obligations.OperandWritesStoreAndReadBack : Prop :=
  ∀ (s : State) (v : Word), s.block.busy = false →
    (∃ t, exec (.wrSrc v) s = .next t ∧ t = { s with block := { s.block with src := v } } ∧
      exec .rdSrc t = .next { t with rdata := v }) ∧
    (∃ t, exec (.wrSstride v) s = .next t ∧ t = { s with block := { s.block with sstride := v } } ∧
      exec .rdSstride t = .next { t with rdata := v }) ∧
    (∃ t, exec (.wrDst v) s = .next t ∧ t = { s with block := { s.block with dst := v } } ∧
      exec .rdDst t = .next { t with rdata := v }) ∧
    (∃ t, exec (.wrDstride v) s = .next t ∧ t = { s with block := { s.block with dstride := v } } ∧
      exec .rdDstride t = .next { t with rdata := v }) ∧
    (∃ t, exec (.wrCount v) s = .next t ∧ t = { s with block := { s.block with count := v } } ∧
      exec .rdCount t = .next { t with rdata := v })

/-- R40: the reserved bits of CTRL and STATUS, and START, read as 0; a write's reserved bits have no effect and raise no
error. -/
def Obligations.ReservedBitsReadZeroAndIgnoreWrites : Prop :=
  (∀ (s t : State), exec .rdCtrl s = .next t → t.rdata &&& 0xFFFF00F0 = 0) ∧
  (∀ (s t : State), exec .rdStatus s = .next t → t.rdata &&& 0xFFFFFF00 = 0) ∧
  (∀ (s : State) (v : Word), exec (.wrCtrl v) s = exec (.wrCtrl (v &&& 0x8000FF0F)) s) ∧
  (∀ (s : State) (v : Word), exec (.wrStatus v) s = exec (.wrStatus (v &&& 0x000000FF)) s)

/-- After any CTRL write while idle, a command too, CTRL reads back the OP and NCH of the write and 0 elsewhere
(10_state.md R22, R38). -/
def Obligations.CtrlReadsBackOpAndNch : Prop :=
  ∀ (s t u : State) (v : Word), s.block.busy = false → exec (decodeCtrl v) s = .next t → exec .rdCtrl t = .next u →
    u.rdata = v &&& 0x0000FF0F

/-- No host transaction changes a byte of memory: the block writes memory only in its engine's steps (20_memory.md R50,
41_commands.md R120). -/
def Obligations.TransactionsLeaveMemoryAlone : Prop :=
  ∀ (i : Instr) (s t : State), exec i s = .next t → ∀ a, Memory.read t.mem a = Memory.read s.mem a

/-! ## START -/

/-- What a START while idle does (41_commands.md R120). YCC.FWD and YCC.INV, and any CTRL write with START = 1, store OP
and NCH and then end at once with the error validation finds, end at once empty, or make the engine busy at pixel 0;
nothing else changes, memory in particular, but the model's own hazard record `windows` and `awaited` (log entries 10 and
11), whose clauses are the model's choice. -/
def Obligations.StartEndsAtOnceOrBegins : Prop :=
  ∀ (s : State) (i : Instr) (op : BitVec 4) (nch : Byte) (v : Word), s.block.busy = false →
    ((i = .yccFwd nch ∧ op = 1) ∨ (i = .yccInv nch ∧ op = 2) ∨
      (i = .wrCtrl v ∧ v.getLsbD 31 = true ∧ op = v.extractLsb' 0 4 ∧ nch = v.extractLsb' 8 8)) →
    let b := { s.block with op := op, nch := nch }
    (∀ e, validate s.memSize (operands b) = some e →
      exec i s = .next { s with
        block := { b with done := true, err := true, errcode := errBits e }, awaited := false }) ∧
    (validate s.memSize (operands b) = none → s.block.count = 0 →
      exec i s = .next { s with
        block := { b with done := true, err := false, errcode := 0 }, awaited := false }) ∧
    (validate s.memSize (operands b) = none → s.block.count ≠ 0 →
      exec i s = .next { s with
        block := { b with done := false, err := false, errcode := 0, k := 0, busy := true }
        windows := { ops := operands b, before := s.mem, raced := [], fed := [] } :: s.windows
        awaited := true })

/-- R164: the checks of a START in their order, with exact arithmetic, and the rule's example. -/
def Obligations.ValidationFollowsTheChecks : Prop :=
  (∀ (m : Nat) (o : Operands),
    let badOp := o.op ≠ 1 ∧ o.op ≠ 2
    let badParam := o.nch = 0 ∨ o.ss < o.nch ∨ o.ds < o.nch
    let sEnd : Int := o.src + (o.n - 1) * o.ss + o.nch - 1
    let dEnd : Int := o.dst + (o.n - 1) * o.ds + o.nch - 1
    let badBounds := 0 < o.n ∧ (sEnd ≥ m ∨ dEnd ≥ m)
    let badOverlap := 0 < o.n ∧ ¬(o.src = o.dst ∧ o.ss = o.ds) ∧ o.src ≤ dEnd ∧ o.dst ≤ sEnd
    (validate m o = some .op ↔ badOp) ∧
    (validate m o = some .param ↔ ¬badOp ∧ badParam) ∧
    (validate m o = some .bounds ↔ ¬badOp ∧ ¬badParam ∧ badBounds) ∧
    (validate m o = some .overlap ↔ ¬badOp ∧ ¬badParam ∧ ¬badBounds ∧ badOverlap) ∧
    (validate m o = none ↔ ¬badOp ∧ ¬badParam ∧ ¬badBounds ∧ ¬badOverlap)) ∧
  (∀ m, 0x108 ≤ m →
    validate m { op := 1, nch := 3, src := 0x100, ss := 3, dst := 0x102, ds := 3, n := 2 } = some .overlap)

/-- R162: an error sets ERR, ERRCODE and DONE and changes nothing else: BUSY stays 0, the operands and WIB stay, and
memory stays. The error may come from YCC.FWD, YCC.INV or a CTRL write with START = 1 and a reserved OP. (Of the model's own
fields `awaited` may change, log entry 11.) -/
def Obligations.ErrorRecordsOnlyStatus : Prop :=
  ∀ (s : State) (nch : Byte) (op : BitVec 4) (i : Instr) (v : Word) (e : ErrCode), s.block.busy = false →
    ((i = .yccFwd nch ∧ op = 1) ∨ (i = .yccInv nch ∧ op = 2) ∨
      (i = .wrCtrl v ∧ v.getLsbD 31 = true ∧ op = v.extractLsb' 0 4 ∧ nch = v.extractLsb' 8 8)) →
    validate s.memSize (operands { s.block with op := op, nch := nch }) = some e →
    ∃ t, exec i s = .next t ∧
      t.block.err = true ∧ t.block.done = true ∧ t.block.busy = false ∧ t.block.wib = s.block.wib ∧
      t.block.errcode = (match e with | .op => 1 | .param => 2 | .bounds => 3 | .overlap => 4) ∧
      t.block.op = op ∧ t.block.nch = nch ∧ t.block.src = s.block.src ∧ t.block.sstride = s.block.sstride ∧
      t.block.dst = s.block.dst ∧ t.block.dstride = s.block.dstride ∧ t.block.count = s.block.count ∧
      t = { s with block := t.block, awaited := t.awaited } ∧ ∀ a, Memory.read t.mem a = Memory.read s.mem a

/-- R163: a command that ends with ERR = 1 has written no byte, and STATUS reads 0x06 with the code of the error that
validation finds in bits 7:4, and 0x08 too if WIB is set: 0x16 for ERR_OP, 0x26 for ERR_PARAM, 0x36 for ERR_BOUNDS, 0x46
for ERR_OVERLAP. -/
def Obligations.FailedCommandStatusWord : Prop :=
  ∀ (s t : State) (i : Instr) (op : BitVec 4) (nch : Byte) (v : Word), s.block.busy = false →
    ((i = .yccFwd nch ∧ op = 1) ∨ (i = .yccInv nch ∧ op = 2) ∨
      (i = .wrCtrl v ∧ v.getLsbD 31 = true ∧ op = v.extractLsb' 0 4 ∧ nch = v.extractLsb' 8 8)) →
    exec i s = .next t → t.block.err = true →
    (∀ a, Memory.read t.mem a = Memory.read s.mem a) ∧
    ∃ e u, validate s.memSize (operands { s.block with op := op, nch := nch }) = some e ∧
      exec .rdStatus t = .next u ∧
      u.rdata = (match e with | .op => 0x16#32 | .param => 0x26#32 | .bounds => 0x36#32 | .overlap => 0x46#32) |||
        (if s.block.wib then 0x08#32 else 0#32)

/-- R128: a START that passes validation with COUNT = 0 sets DONE at once, BUSY never becomes 1 and memory is as it was;
bounds and overlap do not matter, the OP, NCH and stride checks still do; and the rule's example. -/
def Obligations.EmptyCommandEndsAtOnce : Prop :=
  (∀ (s : State) (i : Instr) (op : BitVec 4) (nch : Byte), s.block.busy = false →
    ((i = .yccFwd nch ∧ op = 1) ∨ (i = .yccInv nch ∧ op = 2)) → s.block.count = 0 →
    ∃ t, exec i s = .next t ∧ t.block.busy = false ∧ t.block.done = true ∧
      (∀ a, Memory.read t.mem a = Memory.read s.mem a) ∧
      (nch ≠ 0 ∧ nch.toNat ≤ s.block.sstride.toNat ∧ nch.toNat ≤ s.block.dstride.toNat →
        t.block.err = false ∧ t.block.errcode = 0) ∧
      (¬(nch ≠ 0 ∧ nch.toNat ≤ s.block.sstride.toNat ∧ nch.toNat ≤ s.block.dstride.toNat) →
        t.block.err = true ∧ t.block.errcode = 2)) ∧
  (∀ (s : State) (v : Word), s.block.busy = false → s.block.count = 0 → v.getLsbD 31 = true →
    v.extractLsb' 0 4 ≠ 1 → v.extractLsb' 0 4 ≠ 2 →
    ∃ t, exec (.wrCtrl v) s = .next t ∧ t.block.busy = false ∧ t.block.done = true ∧ t.block.err = true ∧
      t.block.errcode = 1) ∧
  (∀ s : State, s.block = { Block.reset with sstride := 3, dstride := 3 } →
    ∃ t u, exec (decodeCtrl 0x80000301) s = .next t ∧ exec .rdStatus t = .next u ∧ u.rdata = 0x00000002)

/-- R183: a START written straight after reset ends with an error and touches no memory: ERR_OP when the write supplies
no valid OP (STATUS = 0x16), ERR_PARAM (STATUS = 0x26) when it does. -/
def Obligations.StartAfterResetIsAnError : Prop :=
  ∀ (s : State) (v : Word), s.block = Block.reset → v.getLsbD 31 = true →
    ∃ t u, exec (decodeCtrl v) s = .next t ∧ exec .rdStatus t = .next u ∧ t.block.busy = false ∧
      (∀ a, Memory.read t.mem a = Memory.read s.mem a) ∧
      u.rdata = (if v.extractLsb' 0 4 = 1#4 ∨ v.extractLsb' 0 4 = 2#4 then 0x26#32 else 0x16#32)

/-- A START is accepted whether or not DONE or ERR is set, and what it leads to does not depend on them: the previous
outcome is gone; WIB stays (41_commands.md R133, 10_state.md R26). -/
def Obligations.StartForgetsTheLastOutcome : Prop :=
  ∀ (s : State) (nch : Byte) (d e : Bool) (c : BitVec 4), s.block.busy = false →
    (∀ i ∈ [Instr.yccFwd nch, .yccInv nch],
      exec i { s with block := { s.block with done := d, err := e, errcode := c } } = exec i s) ∧
    (∀ (i : Instr) (t : State), i ∈ [Instr.yccFwd nch, .yccInv nch] → exec i s = .next t →
      t.block.wib = s.block.wib)

/-! ## The pixel function -/

/-- R101: the forward transform of the first three channels, rounded down, and the rule's example. -/
def Obligations.ForwardTransform : Prop :=
  (∀ (nch : Nat) (r g b : Byte) (rest : List Byte), 3 ≤ nch →
    ∃ y cb cr : Byte, pix 1 nch (r :: g :: b :: rest) = y :: cb :: cr :: rest ∧
      y.toNat = (r.toNat + 2 * g.toNat + b.toNat + 2) / 4 ∧
      cb.toNat = (b.toNat + 256 - g.toNat) / 2 ∧
      cr.toNat = (r.toNat + 256 - g.toNat) / 2) ∧
  pix 1 3 [128, 64, 32] = [72, 112, 160]

/-- R104: the inverse transform: `t` is the shift rounded down, blue and red come from the unclamped green, and all three
are clamped at the end; with the rule's corner cases and example. -/
def Obligations.InverseTransform : Prop :=
  (∀ (nch : Nat) (y cb cr : Byte) (rest : List Byte), 3 ≤ nch →
    ∃ (r g b : Byte) (t : Int), pix 2 nch (y :: cb :: cr :: rest) = r :: g :: b :: rest ∧
      (let dB : Int := 2 * cb.toNat - 255
       let dR : Int := 2 * cr.toNat - 255
       4 * t ≤ dB + dR + 2 ∧ dB + dR + 2 < 4 * t + 4 ∧
       (g.toNat : Int) = min (max ((y.toNat : Int) - t) 0) 255 ∧
       (b.toNat : Int) = min (max ((y.toNat : Int) - t + dB) 0) 255 ∧
       (r.toNat : Int) = min (max ((y.toNat : Int) - t + dR) 0) 255)) ∧
  pix 2 3 [64, 128, 255] = [255, 0, 1] ∧ pix 2 3 [0, 255, 0] = [0, 0, 255] ∧ pix 2 3 [0, 1, 255] = [254, 0, 0] ∧
  pix 2 3 [100, 126, 127] = [100, 101, 98]

/-- R102: the forward transform needs no clamp: its operands and results stay in their ranges; with the closed forms. -/
def Obligations.ForwardNeedsNoClamp : Prop :=
  ∀ r g b : Byte,
    let R := zext8 r
    let G := zext8 g
    let B := zext8 b
    (2 ≤ R + 2 * G + B + 2 ∧ R + 2 * G + B + 2 ≤ 1022) ∧ (1 ≤ B - G + 256 ∧ B - G + 256 ≤ 511) ∧
    (1 ≤ R - G + 256 ∧ R - G + 256 ≤ 511) ∧
    (0 ≤ (fwd R G B).1 ∧ (fwd R G B).1 ≤ 255) ∧ (0 ≤ (fwd R G B).2.1 ∧ (fwd R G B).2.1 ≤ 255) ∧
    (0 ≤ (fwd R G B).2.2 ∧ (fwd R G B).2.2 ≤ 255) ∧
    (fwd R G B).1 = (R + 2 * G + B + 2) / 4 ∧ (fwd R G B).2.1 = 128 + shr (B - G) 1 ∧
    (fwd R G B).2.2 = 128 + shr (R - G) 1

/-- The inverse's intermediates stay in the ranges of 40_pixel_datapath.md R109, and every one of them reaches both ends
of its range, so 11-bit two's complement holds every one of them and 10 bits do not hold 512. -/
def Obligations.InverseFitsElevenBits : Prop :=
  (∀ y cb cr : Byte,
    let s := (2 * zext8 cb - 255) + (2 * zext8 cr - 255) + 2
    let raw := invRaw (zext8 y) (zext8 cb) (zext8 cr)
    (-508 ≤ s ∧ s ≤ 512) ∧ (-127 ≤ shr s 2 ∧ shr s 2 ≤ 128) ∧ (-128 ≤ raw.2.1 ∧ raw.2.1 ≤ 382) ∧
    (-255 ≤ raw.1 ∧ raw.1 ≤ 510) ∧ (-255 ≤ raw.2.2 ∧ raw.2.2 ≤ 510) ∧
    s.bmod 2048 = s ∧ raw.1.bmod 2048 = raw.1 ∧ raw.2.1.bmod 2048 = raw.2.1 ∧ raw.2.2.bmod 2048 = raw.2.2) ∧
  (let s : Byte → Byte → Int := fun cb cr => (2 * zext8 cb - 255) + (2 * zext8 cr - 255) + 2
   s 0 0 = -508 ∧ s 255 255 = 512 ∧ shr (s 0 0) 2 = -127 ∧ shr (s 255 255) 2 = 128) ∧
  (invRaw 0 255 255).2.1 = -128 ∧ (invRaw 255 0 0).2.1 = 382 ∧ (invRaw 0 255 0).1 = -255 ∧
  (invRaw 255 0 255).1 = 510 ∧ (invRaw 0 0 255).2.2 = -255 ∧ (invRaw 255 255 0).2.2 = 510 ∧
  (512 : Int).bmod 1024 ≠ 512

/-- The round trip RGB to YCbCr to RGB is off by at most 1 in R and B, and by 0 or -1 in G (40_pixel_datapath.md R110,
without its counts). -/
def Obligations.RoundTripErrorIsAtMostOne : Prop :=
  ∀ r g b : Byte, ∃ r2 g2 b2 : Byte,
    pix 2 3 (pix 1 3 [r, g, b]) = [r2, g2, b2] ∧
    (r2.toNat : Int) - r.toNat ∈ [-1, 0, 1] ∧ (g2.toNat : Int) - g.toNat ∈ [-1, 0] ∧
    (b2.toNat : Int) - b.toNat ∈ [-1, 0, 1]

/-- The forward transform is not injective, and the inverse does not undo it (40_pixel_datapath.md R103, R110, R111;
90_conflicts.md C1). -/
def Obligations.ForwardIsNotInjective : Prop :=
  pix 1 3 [0, 0, 0] = [0, 128, 128] ∧ pix 1 3 [0, 0, 1] = [0, 128, 128] ∧ pix 1 3 [1, 0, 0] = [0, 128, 128] ∧
  pix 2 3 (pix 1 3 [128, 128, 128]) = [128, 127, 128] ∧ pix 1 3 (pix 2 3 [0, 0, 0]) = [64, 64, 64]

/-- R106: channels 3 and up pass through unchanged in both directions; with the rule's example. -/
def Obligations.HigherChannelsPassThrough : Prop :=
  (∀ (op : BitVec 4) (nch : Nat) (p : List Byte) (j : Nat), op = 1 ∨ op = 2 → p.length = nch → 3 ≤ j → j < nch →
    (pix op nch p)[j]? = p[j]?) ∧
  pix 2 5 [64, 128, 255, 7, 200] = [255, 0, 1, 7, 200]

/-- R107: with one or two channels every channel passes through unchanged in both directions; with the rule's example. -/
def Obligations.FewChannelsPassThrough : Prop :=
  (∀ (op : BitVec 4) (nch : Nat) (p : List Byte), op = 1 ∨ op = 2 → p.length = nch → nch = 1 ∨ nch = 2 →
    pix op nch p = p) ∧
  pix 1 2 [255, 0] = [255, 0]

/-- Which channels an output channel depends on: Y on all three, Cb not on R, Cr not on B, and a channel from 3 up on
itself only (40_pixel_datapath.md R108). -/
def Obligations.LanesDependAsStated : Prop :=
  (∀ (nch : Nat) (r r' g b b' : Byte) (rest rest' : List Byte), 3 ≤ nch →
    (pix 1 nch (r :: g :: b :: rest))[1]? = (pix 1 nch (r' :: g :: b :: rest'))[1]? ∧
    (pix 1 nch (r :: g :: b :: rest))[2]? = (pix 1 nch (r :: g :: b' :: rest'))[2]?) ∧
  (∀ (op : BitVec 4) (nch : Nat) (p q : List Byte) (j : Nat), p.length = nch → q.length = nch → 3 ≤ j →
    p[j]? = q[j]? → (pix op nch p)[j]? = (pix op nch q)[j]?) ∧
  (∀ (op : BitVec 4) (nch : Nat) (p q : List Byte) (j : Nat), p.length = nch → q.length = nch → j < 3 →
    p.take 3 = q.take 3 → (pix op nch p)[j]? = (pix op nch q)[j]?)

/-! ## The engine -/

/-- One engine step where its bytes are in memory and no race has touched the command: the destination bytes of pixel `k`
take the pixel function of its source bytes, all read before any is written; `k` goes on; with the last pixel BUSY falls
and DONE rises; nothing else changes but the model's count of draws (41_commands.md R121, R125, R127, R130). -/
def Obligations.EngineStepTransformsOnePixel : Prop :=
  ∀ s : State, s.block.busy = true → (currentWindow s).raced = [] → (currentWindow s).fed = [] →
    let o := operands s.block
    let k := s.block.k
    (∀ j, j < o.nch → srcAddr o k j < s.memSize ∧ dstAddr o k j < s.memSize ∧
      (Memory.read s.mem (srcAddr o k j)).isSome) →
    ∃ t, engineStep s = .next t ∧
      (∀ j, j < o.nch → Memory.read t.mem (dstAddr o k j) = (pix o.op o.nch (sourcePixel s.mem o k))[j]?) ∧
      (∀ a, (∀ j, j < o.nch → a ≠ dstAddr o k j) → Memory.read t.mem a = Memory.read s.mem a) ∧
      t.block = { s.block with
        k := k + 1
        busy := decide (k + 1 ≠ s.block.count.toNat)
        done := s.block.done || decide (k + 1 = s.block.count.toNat) } ∧
      t = { s with block := t.block, mem := t.mem, draws := t.draws }

/-- From a state of the invariant the engine makes no access outside the memory: its step completes, or refuses because a
source byte of the pixel has no value for it (20_memory.md R50, 60_exceptions.md R160, 70_reset_and_hazards.md R184): one
that is not in memory, or, after a race, was not in memory at START (the model's choice, log entry 10). -/
def Obligations.EngineStepNeverFaults : Prop :=
  ∀ s : State, Inv s → s.block.busy = true →
    ((∀ j, j < (operands s.block).nch →
        (engineSees s (srcAddr (operands s.block) s.block.k j)).isSome) → ∃ t, engineStep s = .next t) ∧
    ((∃ j, j < (operands s.block).nch ∧
        engineSees s (srcAddr (operands s.block) s.block.k j) = none) →
      engineStep s = .refused .sourceByteNeverWritten) ∧
    (∀ a, engineSees s a = none ↔
      ((currentWindow s).finds a = [] ∧ Memory.read s.mem a = none) ∨
      ((currentWindow s).finds a ≠ [] ∧ Memory.read (currentWindow s).before a = none))

/-- No pixel value sets a status bit: two engine steps that differ in memory only leave the block the same
(10_state.md R35, 40_pixel_datapath.md R113). -/
def Obligations.PixelValuesSetNoFlag : Prop :=
  ∀ (s t u : State) (m : Memory), engineStep s = .next t → engineStep { s with mem := m } = .next u →
    t.block = u.block ∧ t.block.err = s.block.err ∧ t.block.errcode = s.block.errcode ∧ t.block.wib = s.block.wib

/-- HEADLINE. YCC.FWD and YCC.INV, accepted with their source bytes in memory, run to their end in exactly `n` engine
steps, BUSY until the last: every destination byte is the pixel function of the source bytes at START, every other byte
is as at START, and of the block only OP, NCH, STATUS and the hidden index have changed. In place or not, with the host
idle meanwhile (41_commands.md R121, R122, R123, R127, R129, R130, R131). -/
def Obligations.CommandEndState : Prop :=
  ∀ (s : State) (i : Instr) (op : BitVec 4) (nch : Byte), Inv s → s.block.busy = false → s.queue = [] →
    ((i = .yccFwd nch ∧ op = 1) ∨ (i = .yccInv nch ∧ op = 2)) →
    let b := { s.block with op := op, nch := nch }
    let o := operands b
    Accepted s.memSize o →
    (∀ k j, k < o.n → j < o.nch → (Memory.read s.mem (srcAddr o k j)).isSome) →
    ∃ u, exec i s = .next u ∧
      (∃ t, Host.Core.run Sys2Proof.core o.n u = .next t ∧
        t.block = { b with busy := false, done := true, err := false, errcode := 0, k := o.n } ∧
        (∀ k j, k < o.n → j < o.nch →
          Memory.read t.mem (dstAddr o k j) = (pix o.op o.nch (sourcePixel s.mem o k))[j]?) ∧
        (∀ a, (∀ k j, k < o.n → j < o.nch → a ≠ dstAddr o k j) → Memory.read t.mem a = Memory.read s.mem a)) ∧
      (∀ m, m < o.n → ∃ w, Host.Core.run Sys2Proof.core m u = .next w ∧ w.block.busy = true)

/-- HEADLINE. The end state does not depend on how host and engine steps interleave: whatever the next step is, a host
transaction, a poll, a memory read, or a write outside the buffers of every open command, the command's buffers stay as
the rule gives them for the pixels done so far, up to the last (41_commands.md R131; 20_memory.md R58, R60). -/
def Obligations.CommandProgressUnderInterleaving : Prop :=
  ∀ (m0 : Memory) (o : Operands) (s t : State), Underway m0 o s → step s = .next t → agent s ≠ .host .reset →
    (∀ a v, agent s = .host (.memWrite a v) → ∀ w ∈ s.windows, ¬InBuffers w.ops a) →
    Underway m0 o t ∨
      (Inv t ∧ t.block.busy = false ∧ t.block.done = true ∧ t.block.err = false ∧ operands t.block = o ∧
        Transformed m0 o o.n t.mem)

/-- Engine steps of two instances whose byte ranges do not meet give the same memory in either order (60_exceptions.md
R171; log entry 9). -/
def Obligations.InstancesOnDisjointRangesCommute : Prop :=
  ∀ (s t1 t2 : State) (b1 b2 : Block),
    Block.Inv s.memSize b1 → Block.Inv s.memSize b2 → b1.busy = true → b2.busy = true →
    (let o1 := operands b1
     let o2 := operands b2
     (dstEnd o1 < o2.src ∨ srcEnd o2 < o1.dst) ∧ (dstEnd o1 < o2.dst ∨ dstEnd o2 < o1.dst) ∧
     (dstEnd o2 < o1.src ∨ srcEnd o1 < o2.dst)) →
    engineStep (s.asInstance b1) = .next t1 → engineStep (t1.asInstance b2) = .next t2 →
    ∃ u2 u1, engineStep (s.asInstance b2) = .next u2 ∧ engineStep (u2.asInstance b1) = .next u1 ∧
      u1.block = t1.block ∧ u2.block = t2.block ∧ ∀ a, Memory.read u1.mem a = Memory.read t2.mem a

/-! ## Whole-machine rules -/

/-- The state after reset meets the invariant. -/
def Obligations.ResetMeetsTheInvariant : Prop := Inv State.reset

/-- HEADLINE. Every step from a state of the invariant keeps it: the memory's canonical form and bounds, BUSY and DONE
never together, ERR and ERRCODE in agreement with codes 0 to 4 only, and a running command accepted with a pixel to go
(10_state.md R24, R25, R33; 60_exceptions.md R161; 20_memory.md R50). And no step at all changes MEM_SIZE or REG_BASE
(00_scope.md R5; that they are fields is log entries 7 and 8). -/
def Obligations.StepKeepsTheInvariant : Prop :=
  ∀ s t : State, step s = .next t →
    (Inv s → Inv t) ∧ t.memTop = s.memTop ∧ t.memSize = s.memSize ∧ t.regBase = s.regBase

/-- From a state of the invariant a step stops only where the model says: a host access to memory at or above MEM_SIZE
faults; an unsupported transaction, and an engine read of a source byte that has no value, are refused. Nothing else stops
(93_implementation_defined.md part 2; log entry 15). -/
def Obligations.StepStopsOnlyWhereNamed : Prop :=
  ∀ s : State, Inv s →
    (∀ f, step s = .fault f → ∃ a, s.memSize ≤ a ∧
      (agent s = .host (.memRead a) ∨ ∃ v, agent s = .host (.memWrite a v))) ∧
    (∀ r, step s = .refused r →
      (r = .sourceByteNeverWritten ∧ agent s = .engine ∧ ∃ j, j < (operands s.block).nch ∧
        engineSees s (srcAddr (operands s.block) s.block.k j) = none) ∨
      (∃ a x, r = .unsupportedAccess x ∧ decode a = .error x ∧
        (agent s = .host (.access a) ∨
          ∃ mask value, agent s = .host (.poll a.off mask value) ∧ a.dir = .read ∧ a.width = 32)))

/-- The operands of a running command cannot change: no step while BUSY, a reset apart, changes OP, NCH, SRC, SSTRIDE,
DST, DSTRIDE or COUNT (10_state.md R38, 42_host_access.md R144, 20_memory.md R63). -/
def Obligations.OperandsAreStableWhileBusy : Prop :=
  ∀ s t : State, s.block.busy = true → step s = .next t → agent s ≠ .host .reset →
    t.block.op = s.block.op ∧ t.block.nch = s.block.nch ∧ t.block.src = s.block.src ∧
    t.block.sstride = s.block.sstride ∧ t.block.dst = s.block.dst ∧ t.block.dstride = s.block.dstride ∧
    t.block.count = s.block.count

/-- BUSY ends only with the last pixel, when DONE rises in the same step, or by a reset (10_state.md R24, 41_commands.md
R121, R127). -/
def Obligations.BusyEndsWithTheLastPixelOrReset : Prop :=
  ∀ s t : State, s.block.busy = true → step s = .next t → t.block.busy = false →
    (agent s = .engine ∧ s.block.k + 1 = s.block.count.toNat ∧ t.block.done = true) ∨ agent s = .host .reset

/-- BUSY begins only with a CTRL write that has START = 1 and passes validation with a pixel to process (10_state.md R24,
41_commands.md R120). -/
def Obligations.BusyBeginsOnlyWithAnAcceptedStart : Prop :=
  ∀ s t : State, s.block.busy = false → step s = .next t → t.block.busy = true →
    (∃ a, agent s = .host (.access a) ∧ a.dir = .write ∧ a.off = 0 ∧ a.data.getLsbD 31 = true ∧
      t.block.op = a.data.extractLsb' 0 4 ∧ t.block.nch = a.data.extractLsb' 8 8) ∧
    Accepted s.memSize (operands t.block) ∧ t.block.k = 0 ∧ t.block.done = false ∧ t.block.err = false

/-- R26: WIB rises exactly when a register write is dropped because BUSY = 1, which changes neither ERR nor DONE, and
falls only when the host writes 1 to it while not BUSY, or by a reset; a START does not clear it. -/
def Obligations.WibIsStickyUntilClearedOrReset : Prop :=
  (∀ s t : State, step s = .next t → s.block.wib = true → t.block.wib = false →
    (s.block.busy = false ∧ ∃ a, agent s = .host (.access a) ∧ a.dir = .write ∧ a.off = 0x04 ∧
      a.data.getLsbD 3 = true) ∨ agent s = .host .reset) ∧
  (∀ s t : State, step s = .next t → s.block.wib = false → t.block.wib = true →
    s.block.busy = true ∧ t.block.err = s.block.err ∧ t.block.done = s.block.done ∧
    ∃ a, agent s = .host (.access a) ∧ a.dir = .write ∧ a.off ≠ 0x1C) ∧
  (∀ (s t : State) (a : Access), step s = .next t → s.block.busy = true → agent s = .host (.access a) →
    a.dir = .write → a.off ≠ 0x1C → t.block.wib = true)

/-- HEADLINE. From a state of the invariant a byte of memory changes only by the engine writing a destination byte of the
pixel it processes, by a host write of that byte (or of a source byte of the command it is a destination byte of, or of an
older command open with it), or by a reset that abandons the command it is a destination byte of (20_memory.md R50,
41_commands.md R130, 70_reset_and_hazards.md R181, R186; log entries 10, 12 and 22). -/
def Obligations.MemoryChangesOnlyWhereNamed : Prop :=
  ∀ (s t : State) (a : Nat), Inv s → step s = .next t → Memory.read t.mem a ≠ Memory.read s.mem a →
    (agent s = .engine ∧ ∃ j, j < (operands s.block).nch ∧ a = dstAddr (operands s.block) s.block.k j) ∨
    (∃ b v, agent s = .host (.memWrite b v) ∧
      (a = b ∨ Reached (s.windows.map (·.ops)) b a)) ∨
    (agent s = .host .reset ∧ s.block.busy = true ∧ isDstByte (operands s.block) a = true)

/-! ## The data memory and reset -/

/-- Two memories in canonical form that read the same at every address are the same data. -/
def Obligations.CanonicalMemoriesAreEqualData : Prop :=
  ∀ m m' : Memory, Memory.wf m = true → Memory.wf m' = true → (∀ a, Memory.read m a = Memory.read m' a) → m = m'

/-- The memory is plain storage: a host write outside the buffers of every open command changes that byte only, and a
host read then returns it (20_memory.md R50, R55). -/
def Obligations.HostWriteThenReadReturnsTheByte : Prop :=
  ∀ (s : State) (a : Nat) (v : Byte), Inv s → a < s.memSize → (∀ w ∈ s.windows, ¬InBuffers w.ops a) →
    ∃ t, hostMemWrite a v s = .next t ∧ t = { s with mem := t.mem } ∧
      (∀ b, b ≠ a → Memory.read t.mem b = Memory.read s.mem b) ∧
      hostMemRead a t = .next { t with hostByte := v }

/-- What a host write into an open command's bytes does (70_reset_and_hazards.md R186). The block stays; every window the
write falls on records it; besides the byte written, only destination bytes of a command it reached may change: one whose
source byte it is, or one that is newer than such a command. The written byte holds what was written, or, if it is a
destination byte, what was written or the byte that stood there. If every command whose source byte it is has not processed
that pixel, or can compute nothing from it (a source byte had no value at START), nothing else changes. If it is a source
byte of exactly one open command, of its pixel `k`, already processed, and that pixel feeds no newer command: each of the
pixel's destination bytes is, one by one, that of the pixel computed with what the engine may have seen, the last racing
host write there, or the byte that stood there, be it a newer command's. The form of the free choice is the model's choice
(log entry 10), and so is the account of several open commands (log entry 22). -/
def Obligations.RacingWriteOpensOnlyDestinationBytes : Prop :=
  ∀ (s t : State) (a : Nat) (v : Byte), Inv s → (∃ w ∈ s.windows, touches w.ops a = true) →
    hostMemWrite a v s = .next t →
    let noted := s.windows.map (fun w => if touches w.ops a then { w with raced := (a, v) :: w.raced } else w)
    t.block = s.block ∧
    t.windows.map (fun w => { w with fed := [] }) = noted.map (fun w => { w with fed := [] }) ∧
    (∀ b, b ≠ a → ¬Reached (s.windows.map (·.ops)) a b → Memory.read t.mem b = Memory.read s.mem b) ∧
    (¬Reached (s.windows.map (·.ops)) a a → Memory.read t.mem a = some (hostLanded s a v)) ∧
    ((∀ w ∈ s.windows, isDstByte w.ops a = false) → Memory.read t.mem a = some v ∧ hostLanded s a v = v) ∧
    ((∃ w ∈ s.windows, isDstByte w.ops a = true) →
      (Memory.read s.mem a = none → hostLanded s a v = v) ∧
      ∀ u, Memory.read s.mem a = some u → hostLanded s a v = if Config.choice s.draws a % 2 = 0 then v else u) ∧
    ((∀ pre w post k, s.windows = pre ++ w :: post → srcPixelOf w.ops a = some k →
        (pre = [] ∧ s.block.busy = true ∧ s.block.k ≤ k) ∨
        newPixel (s.draws + 1) { w with raced := (a, v) :: w.raced } k = none) →
      t.windows = noted ∧ Memory.read t.mem a = some (hostLanded s a v) ∧
      ∀ b, b ≠ a → Memory.read t.mem b = Memory.read s.mem b) ∧
    (∀ pre w post k q, s.windows = pre ++ w :: post → (∀ x ∈ pre ++ post, isSrcByte x.ops a = false) →
      srcPixelOf w.ops a = some k → (pre = [] → s.block.busy = true → k < s.block.k) →
      (∀ x ∈ pre, ∀ j, j < w.ops.nch → isSrcByte x.ops (dstAddr w.ops k j) = false) →
      let w' := { w with raced := (a, v) :: w.raced }
      newPixel (s.draws + 1) w' k = some q →
      t.windows = noted ∧
      (∀ b, b ≠ a → (∀ j, j < w.ops.nch → b ≠ dstAddr w.ops k j) → Memory.read t.mem b = Memory.read s.mem b) ∧
      ((∀ j, j < w.ops.nch → a ≠ dstAddr w.ops k j) → Memory.read t.mem a = some (hostLanded s a v)) ∧
      ∀ j, j < w.ops.nch → ∃ x, q[j]? = some x ∧
        let d := dstAddr w.ops k j
        let outcomes := x :: ((w'.racing d).take 1 ++ (Memory.read (Memory.write s.mem a (hostLanded s a v)) d).toList)
        Memory.read t.mem d = outcomes[Config.choice (s.draws + 2) d % outcomes.length]?)

/-- A host write that races with an older open command reaches the newer command that the older one's pixel feeds
(70_reset_and_hazards.md R186; 92_eei_decisions.md D27, every old/new combination; the form is the model's choice, log
entries 10 and 22). The byte written is a source byte of the older command only, of its pixel `k`. First each destination
byte of that pixel is, one by one, the recomputed byte, the last racing host write there, or the byte that stood there, so
that a newer command's bytes may stay where others change. The recomputed bytes that are source bytes of the newer command
are recorded as bytes its engine may find. If they fall in its pixel `k'` alone, then that pixel, if the engine has processed
it and it has a value, is recomputed in turn, and its destination bytes are settled in the same way; if the engine has not
processed it, nothing more changes. -/
def Obligations.RaceReachesNewerCommands : Prop :=
  ∀ (s t : State) (a : Nat) (v : Byte) (newer older : Window) (post : List Window) (k k' : Nat) (q q' : List Byte),
    Inv s → s.windows = newer :: older :: post → (∀ x ∈ newer :: post, isSrcByte x.ops a = false) →
    srcPixelOf older.ops a = some k → hostMemWrite a v s = .next t →
    let note := fun w : Window => if touches w.ops a then { w with raced := (a, v) :: w.raced } else w
    let cells := cellsFrom (dstAddr older.ops k 0) q
    let fedNewer := { note newer with
      fed := cells.filter (fun c => isSrcByte newer.ops c.1) ++ newer.fed }
    let outcomes := fun (w : Window) (m : Memory) (d : Nat) (x : Byte) =>
      x :: ((w.racing d).take 1 ++ (Memory.read m d).toList)
    let m0 := Memory.write s.mem a (hostLanded s a v)
    newPixel (s.draws + 1) (note older) k = some q →
    t.windows = fedNewer :: note older :: post.map note ∧
    ∃ m1 : Memory,
      (∀ j, j < older.ops.nch → ∃ x, q[j]? = some x ∧
        let d := dstAddr older.ops k j
        let os := outcomes (note older) m0 d x
        Memory.read m1 d = os[Config.choice (s.draws + 2) d % os.length]?) ∧
      (∀ b, (∀ j, j < older.ops.nch → b ≠ dstAddr older.ops k j) → Memory.read m1 b = Memory.read m0 b) ∧
      ((∀ j, j < older.ops.nch → isSrcByte newer.ops (dstAddr older.ops k j) = false) →
        ∀ b, Memory.read t.mem b = Memory.read m1 b) ∧
      ((∃ j, j < older.ops.nch ∧ srcPixelOf newer.ops (dstAddr older.ops k j) = some k') →
        (∀ j x, j < older.ops.nch → srcPixelOf newer.ops (dstAddr older.ops k j) = some x → x = k') →
        s.block.busy = true → s.block.k ≤ k' → ∀ b, Memory.read t.mem b = Memory.read m1 b) ∧
      ((∃ j, j < older.ops.nch ∧ srcPixelOf newer.ops (dstAddr older.ops k j) = some k') →
        (∀ j x, j < older.ops.nch → srcPixelOf newer.ops (dstAddr older.ops k j) = some x → x = k') →
        (s.block.busy = true → k' < s.block.k) → newPixel (s.draws + 3) fedNewer k' = some q' →
        (∀ j, j < newer.ops.nch → ∃ x, q'[j]? = some x ∧
          let d := dstAddr newer.ops k' j
          let os := outcomes fedNewer m1 d x
          Memory.read t.mem d = os[Config.choice (s.draws + 4) d % os.length]?) ∧
        ∀ b, (∀ j, j < newer.ops.nch → b ≠ dstAddr newer.ops k' j) → Memory.read t.mem b = Memory.read m1 b)

/-- The outcomes of a race for the engine (70_reset_and_hazards.md R186; 20_memory.md R54; 92_eei_decisions.md D27; the
form of the free choice is log entry 10). Its read of a byte that a race has touched finds the byte at START or one that
racing writes, or older open commands under a race (log entry 22), have brought, by the free choice; a byte no race has
touched is read from memory. The destination bytes of the pixel are the pixel function of what its reads find; where racing
writes have touched such a byte, the engine's byte or the last racing write stands, by the free choice. And `newPixel`, the pixel that a racing read or a later racing write is answered
with, is the pixel function of such finds on the memory at START. -/
def Obligations.EngineRaceTakesOldOrNewBytes : Prop :=
  (∀ (s : State) (a : Nat), (currentWindow s).finds a = [] → engineSees s a = Memory.read s.mem a) ∧
  (∀ (s : State) (a : Nat) (u v : Byte) (vs : List Byte), (currentWindow s).finds a = v :: vs →
    Memory.read (currentWindow s).before a = some u →
    engineSees s a = (u :: v :: vs)[Config.choice s.draws a % (vs.length + 2)]? ∧
    ∃ x ∈ u :: v :: vs, engineSees s a = some x) ∧
  (∀ (s : State) (p : List Byte), Inv s → s.block.busy = true →
    let o := operands s.block
    let k := s.block.k
    p.length = o.nch → (∀ j, j < o.nch → engineSees s (srcAddr o k j) = p[j]?) →
    ∃ t, engineStep s = .next t ∧
      (∀ a, (∀ j, j < o.nch → a ≠ dstAddr o k j) → Memory.read t.mem a = Memory.read s.mem a) ∧
      ∀ j, j < o.nch → ∃ x, (pix o.op o.nch p)[j]? = some x ∧
        ((currentWindow s).racing (dstAddr o k j) = [] → Memory.read t.mem (dstAddr o k j) = some x) ∧
        ∀ v vs, (currentWindow s).racing (dstAddr o k j) = v :: vs →
          Memory.read t.mem (dstAddr o k j) =
            some (if Config.choice (s.draws + 1) (dstAddr o k j) % 2 = 0 then x else v)) ∧
  (∀ d w k q, newPixel d w k = some q ↔ ∃ p, p.length = w.ops.nch ∧
    (∀ j, j < w.ops.nch → seen d w w.before (srcAddr w.ops k j) = p[j]?) ∧ q = pix w.ops.op w.ops.nch p)

/-- A racing host read of a destination byte of pixel `k` of an open command returns its old byte, its new byte, or the
byte that stands there now (which is one of the two unless a racing host write has put another there), never a mix of
bits, by a free choice (70_reset_and_hazards.md R186; 20_memory.md R54; 92_eei_decisions.md D27; the form of the free
choice is log entry 10). Here no race has touched the pixel's source bytes, and the byte is a destination byte of no other
open command. -/
def Obligations.RacingReadReturnsOldOrNewByte : Prop :=
  ∀ (s : State) (pre post : List Window) (w : Window) (k j : Nat) (u x : Byte),
    Inv s → s.windows = pre ++ w :: post →
    let a := dstAddr w.ops k j
    (∀ v ∈ pre ++ post, isDstByte v.ops a = false) → k < w.ops.n → j < w.ops.nch →
    (∀ i, i < w.ops.nch → w.finds (srcAddr w.ops k i) = [] ∧ (Memory.read w.before (srcAddr w.ops k i)).isSome) →
    Memory.read w.before a = some u → (pix w.ops.op w.ops.nch (sourcePixel w.before w.ops k))[j]? = some x →
    ∃ y, hostMemRead a s = .next { s with hostByte := y, draws := s.draws + 2 } ∧
      (y = u ∨ y = x ∨ Memory.read s.mem a = some y) ∧
      (Config.choice s.draws a % 3 = 0 → Memory.read s.mem a ≠ none → y = u) ∧
      (Config.choice s.draws a % 3 = 1 → Memory.read s.mem a ≠ none → y = x)

/-- After a STATUS read that returns DONE = 1 and ERR = 0 for an accepted command whose DONE = 1 was awaited, the host
reads every byte as it stands in memory, destination bytes included (20_memory.md R59, 70_reset_and_hazards.md R188). That
it then closes the intervals of earlier commands too is the model's choice (log entry 11). A STATUS read that returns
DONE = 0 or ERR = 1, or follows a START that was refused or empty, closes none. -/
def Obligations.StatusReadWithDoneIsTheAcquirePoint : Prop :=
  (∀ (s t : State) (a : Nat) (v : Byte), exec .rdStatus s = .next t → t.rdata.getLsbD 1 = true →
    t.rdata.getLsbD 2 = false → s.awaited = true → a < s.memSize →
    Memory.read s.mem a = some v → hostMemRead a t = .next { t with hostByte := v }) ∧
  (∀ s t : State, exec .rdStatus s = .next t →
    t.rdata.getLsbD 1 = false ∨ t.rdata.getLsbD 2 = true ∨ s.awaited = false → t.windows = s.windows)

/-- The step with a reset next gives every register its reset value and leaves the block idle; of memory it changes at
most the destination bytes of the command it abandons, and every one of these takes a fresh free byte (10_state.md R21,
70_reset_and_hazards.md R180, R181; log entry 12). -/
def Obligations.PlatformResetRestoresTheBlock : Prop :=
  ∀ (s : State) (rest : List Event), Inv s → s.queue = .reset :: rest → (s.block.busy = true → hostBudget s ≠ 0) →
    ∃ t, step s = .next t ∧ t.queue = rest ∧
      (ctrlWord t.block = 0 ∧ statusWord t.block = 0 ∧ t.block.src = 0 ∧ t.block.sstride = 0 ∧ t.block.dst = 0 ∧
        t.block.dstride = 0 ∧ t.block.count = 0) ∧
      (∀ a, (s.block.busy = true → isDstByte (operands s.block) a = false) →
        Memory.read t.mem a = Memory.read s.mem a) ∧
      (s.block.busy = true → ∀ a, isDstByte (operands s.block) a = true →
        ∃ n, s.draws ≤ n ∧ Memory.read t.mem a = some (Config.freeByte n))
end

