-- ==== Sys2Proof/Laws/State.lean ====
section
/-! SUPPORT. One lemma per field per named update of the state and the block, so that no proof unfolds an update. -/

namespace Sys2Proof.Machine

@[simp] theorem State.withBlock_block (s : State) (b : Block) : (s.withBlock b).block = b := rfl
@[simp] theorem State.withBlock_mem (s : State) (b : Block) : (s.withBlock b).mem = s.mem := rfl
@[simp] theorem State.withBlock_memTop (s : State) (b : Block) : (s.withBlock b).memTop = s.memTop := rfl
@[simp] theorem State.withBlock_regBase (s : State) (b : Block) : (s.withBlock b).regBase = s.regBase := rfl
@[simp] theorem State.withBlock_rdata (s : State) (b : Block) : (s.withBlock b).rdata = s.rdata := rfl
@[simp] theorem State.withBlock_hostByte (s : State) (b : Block) : (s.withBlock b).hostByte = s.hostByte := rfl
@[simp] theorem State.withBlock_queue (s : State) (b : Block) : (s.withBlock b).queue = s.queue := rfl
@[simp] theorem State.withBlock_pace (s : State) (b : Block) : (s.withBlock b).pace = s.pace := rfl
@[simp] theorem State.withBlock_turns (s : State) (b : Block) : (s.withBlock b).turns = s.turns := rfl
@[simp] theorem State.withBlock_draws (s : State) (b : Block) : (s.withBlock b).draws = s.draws := rfl
@[simp] theorem State.withBlock_windows (s : State) (b : Block) : (s.withBlock b).windows = s.windows := rfl
@[simp] theorem State.withBlock_awaited (s : State) (b : Block) : (s.withBlock b).awaited = s.awaited := rfl
@[simp] theorem State.withBlock_memSize (s : State) (b : Block) : (s.withBlock b).memSize = s.memSize := rfl

@[simp] theorem State.withMem_block (s : State) (m : Memory) : (s.withMem m).block = s.block := rfl
@[simp] theorem State.withMem_mem (s : State) (m : Memory) : (s.withMem m).mem = m := rfl
@[simp] theorem State.withMem_memTop (s : State) (m : Memory) : (s.withMem m).memTop = s.memTop := rfl
@[simp] theorem State.withMem_regBase (s : State) (m : Memory) : (s.withMem m).regBase = s.regBase := rfl
@[simp] theorem State.withMem_rdata (s : State) (m : Memory) : (s.withMem m).rdata = s.rdata := rfl
@[simp] theorem State.withMem_hostByte (s : State) (m : Memory) : (s.withMem m).hostByte = s.hostByte := rfl
@[simp] theorem State.withMem_queue (s : State) (m : Memory) : (s.withMem m).queue = s.queue := rfl
@[simp] theorem State.withMem_pace (s : State) (m : Memory) : (s.withMem m).pace = s.pace := rfl
@[simp] theorem State.withMem_turns (s : State) (m : Memory) : (s.withMem m).turns = s.turns := rfl
@[simp] theorem State.withMem_draws (s : State) (m : Memory) : (s.withMem m).draws = s.draws := rfl
@[simp] theorem State.withMem_windows (s : State) (m : Memory) : (s.withMem m).windows = s.windows := rfl
@[simp] theorem State.withMem_awaited (s : State) (m : Memory) : (s.withMem m).awaited = s.awaited := rfl
@[simp] theorem State.withMem_memSize (s : State) (m : Memory) : (s.withMem m).memSize = s.memSize := rfl

@[simp] theorem State.withRdata_block (s : State) (v : Word) : (s.withRdata v).block = s.block := rfl
@[simp] theorem State.withRdata_mem (s : State) (v : Word) : (s.withRdata v).mem = s.mem := rfl
@[simp] theorem State.withRdata_memTop (s : State) (v : Word) : (s.withRdata v).memTop = s.memTop := rfl
@[simp] theorem State.withRdata_regBase (s : State) (v : Word) : (s.withRdata v).regBase = s.regBase := rfl
@[simp] theorem State.withRdata_rdata (s : State) (v : Word) : (s.withRdata v).rdata = v := rfl
@[simp] theorem State.withRdata_hostByte (s : State) (v : Word) : (s.withRdata v).hostByte = s.hostByte := rfl
@[simp] theorem State.withRdata_queue (s : State) (v : Word) : (s.withRdata v).queue = s.queue := rfl
@[simp] theorem State.withRdata_pace (s : State) (v : Word) : (s.withRdata v).pace = s.pace := rfl
@[simp] theorem State.withRdata_turns (s : State) (v : Word) : (s.withRdata v).turns = s.turns := rfl
@[simp] theorem State.withRdata_draws (s : State) (v : Word) : (s.withRdata v).draws = s.draws := rfl
@[simp] theorem State.withRdata_windows (s : State) (v : Word) : (s.withRdata v).windows = s.windows := rfl
@[simp] theorem State.withRdata_awaited (s : State) (v : Word) : (s.withRdata v).awaited = s.awaited := rfl
@[simp] theorem State.withRdata_memSize (s : State) (v : Word) : (s.withRdata v).memSize = s.memSize := rfl

@[simp] theorem Block.withWib_op (b : Block) : b.withWib.op = b.op := rfl
@[simp] theorem Block.withWib_nch (b : Block) : b.withWib.nch = b.nch := rfl
@[simp] theorem Block.withWib_busy (b : Block) : b.withWib.busy = b.busy := rfl
@[simp] theorem Block.withWib_done (b : Block) : b.withWib.done = b.done := rfl
@[simp] theorem Block.withWib_err (b : Block) : b.withWib.err = b.err := rfl
@[simp] theorem Block.withWib_wib (b : Block) : b.withWib.wib = true := rfl
@[simp] theorem Block.withWib_errcode (b : Block) : b.withWib.errcode = b.errcode := rfl
@[simp] theorem Block.withWib_src (b : Block) : b.withWib.src = b.src := rfl
@[simp] theorem Block.withWib_sstride (b : Block) : b.withWib.sstride = b.sstride := rfl
@[simp] theorem Block.withWib_dst (b : Block) : b.withWib.dst = b.dst := rfl
@[simp] theorem Block.withWib_dstride (b : Block) : b.withWib.dstride = b.dstride := rfl
@[simp] theorem Block.withWib_count (b : Block) : b.withWib.count = b.count := rfl
@[simp] theorem Block.withWib_k (b : Block) : b.withWib.k = b.k := rfl

@[simp] theorem Block.clearOutcome_op (b : Block) : b.clearOutcome.op = b.op := rfl
@[simp] theorem Block.clearOutcome_nch (b : Block) : b.clearOutcome.nch = b.nch := rfl
@[simp] theorem Block.clearOutcome_busy (b : Block) : b.clearOutcome.busy = b.busy := rfl
@[simp] theorem Block.clearOutcome_done (b : Block) : b.clearOutcome.done = false := rfl
@[simp] theorem Block.clearOutcome_err (b : Block) : b.clearOutcome.err = false := rfl
@[simp] theorem Block.clearOutcome_wib (b : Block) : b.clearOutcome.wib = b.wib := rfl
@[simp] theorem Block.clearOutcome_errcode (b : Block) : b.clearOutcome.errcode = 0 := rfl
@[simp] theorem Block.clearOutcome_src (b : Block) : b.clearOutcome.src = b.src := rfl
@[simp] theorem Block.clearOutcome_sstride (b : Block) : b.clearOutcome.sstride = b.sstride := rfl
@[simp] theorem Block.clearOutcome_dst (b : Block) : b.clearOutcome.dst = b.dst := rfl
@[simp] theorem Block.clearOutcome_dstride (b : Block) : b.clearOutcome.dstride = b.dstride := rfl
@[simp] theorem Block.clearOutcome_count (b : Block) : b.clearOutcome.count = b.count := rfl
@[simp] theorem Block.clearOutcome_k (b : Block) : b.clearOutcome.k = b.k := rfl

@[simp] theorem endEmpty_op (b : Block) : (endEmpty b).op = b.op := rfl
@[simp] theorem endEmpty_nch (b : Block) : (endEmpty b).nch = b.nch := rfl
@[simp] theorem endEmpty_busy (b : Block) : (endEmpty b).busy = b.busy := rfl
@[simp] theorem endEmpty_done (b : Block) : (endEmpty b).done = true := rfl
@[simp] theorem endEmpty_err (b : Block) : (endEmpty b).err = b.err := rfl
@[simp] theorem endEmpty_wib (b : Block) : (endEmpty b).wib = b.wib := rfl
@[simp] theorem endEmpty_errcode (b : Block) : (endEmpty b).errcode = b.errcode := rfl
@[simp] theorem endEmpty_src (b : Block) : (endEmpty b).src = b.src := rfl
@[simp] theorem endEmpty_sstride (b : Block) : (endEmpty b).sstride = b.sstride := rfl
@[simp] theorem endEmpty_dst (b : Block) : (endEmpty b).dst = b.dst := rfl
@[simp] theorem endEmpty_dstride (b : Block) : (endEmpty b).dstride = b.dstride := rfl
@[simp] theorem endEmpty_count (b : Block) : (endEmpty b).count = b.count := rfl
@[simp] theorem endEmpty_k (b : Block) : (endEmpty b).k = b.k := rfl

@[simp] theorem beginBusy_op (b : Block) : (beginBusy b).op = b.op := rfl
@[simp] theorem beginBusy_nch (b : Block) : (beginBusy b).nch = b.nch := rfl
@[simp] theorem beginBusy_busy (b : Block) : (beginBusy b).busy = true := rfl
@[simp] theorem beginBusy_done (b : Block) : (beginBusy b).done = b.done := rfl
@[simp] theorem beginBusy_err (b : Block) : (beginBusy b).err = b.err := rfl
@[simp] theorem beginBusy_wib (b : Block) : (beginBusy b).wib = b.wib := rfl
@[simp] theorem beginBusy_errcode (b : Block) : (beginBusy b).errcode = b.errcode := rfl
@[simp] theorem beginBusy_src (b : Block) : (beginBusy b).src = b.src := rfl
@[simp] theorem beginBusy_sstride (b : Block) : (beginBusy b).sstride = b.sstride := rfl
@[simp] theorem beginBusy_dst (b : Block) : (beginBusy b).dst = b.dst := rfl
@[simp] theorem beginBusy_dstride (b : Block) : (beginBusy b).dstride = b.dstride := rfl
@[simp] theorem beginBusy_count (b : Block) : (beginBusy b).count = b.count := rfl
@[simp] theorem beginBusy_k (b : Block) : (beginBusy b).k = 0 := rfl

@[simp] theorem raiseError_op (e : ErrCode) (b : Block) : (raiseError e b).op = b.op := rfl
@[simp] theorem raiseError_nch (e : ErrCode) (b : Block) : (raiseError e b).nch = b.nch := rfl
@[simp] theorem raiseError_busy (e : ErrCode) (b : Block) : (raiseError e b).busy = b.busy := rfl
@[simp] theorem raiseError_done (e : ErrCode) (b : Block) : (raiseError e b).done = true := rfl
@[simp] theorem raiseError_err (e : ErrCode) (b : Block) : (raiseError e b).err = true := rfl
@[simp] theorem raiseError_wib (e : ErrCode) (b : Block) : (raiseError e b).wib = b.wib := rfl
@[simp] theorem raiseError_errcode (e : ErrCode) (b : Block) : (raiseError e b).errcode = errBits e := rfl
@[simp] theorem raiseError_src (e : ErrCode) (b : Block) : (raiseError e b).src = b.src := rfl
@[simp] theorem raiseError_sstride (e : ErrCode) (b : Block) : (raiseError e b).sstride = b.sstride := rfl
@[simp] theorem raiseError_dst (e : ErrCode) (b : Block) : (raiseError e b).dst = b.dst := rfl
@[simp] theorem raiseError_dstride (e : ErrCode) (b : Block) : (raiseError e b).dstride = b.dstride := rfl
@[simp] theorem raiseError_count (e : ErrCode) (b : Block) : (raiseError e b).count = b.count := rfl
@[simp] theorem raiseError_k (e : ErrCode) (b : Block) : (raiseError e b).k = b.k := rfl

@[simp] theorem takeEvent_block (s : State) : (takeEvent s).block = s.block := rfl
@[simp] theorem takeEvent_mem (s : State) : (takeEvent s).mem = s.mem := rfl
@[simp] theorem takeEvent_memTop (s : State) : (takeEvent s).memTop = s.memTop := rfl
@[simp] theorem takeEvent_regBase (s : State) : (takeEvent s).regBase = s.regBase := rfl
@[simp] theorem takeEvent_rdata (s : State) : (takeEvent s).rdata = s.rdata := rfl
@[simp] theorem takeEvent_hostByte (s : State) : (takeEvent s).hostByte = s.hostByte := rfl
@[simp] theorem takeEvent_queue (s : State) : (takeEvent s).queue = s.queue.tail := rfl
@[simp] theorem takeEvent_pace (s : State) : (takeEvent s).pace = if s.block.busy then (hostBudget s - 1) :: s.pace.tail else s.pace := rfl
@[simp] theorem takeEvent_turns (s : State) : (takeEvent s).turns = s.turns := rfl
@[simp] theorem takeEvent_draws (s : State) : (takeEvent s).draws = s.draws := rfl
@[simp] theorem takeEvent_windows (s : State) : (takeEvent s).windows = s.windows := rfl
@[simp] theorem takeEvent_awaited (s : State) : (takeEvent s).awaited = s.awaited := rfl
@[simp] theorem takeEvent_memSize (s : State) : (takeEvent s).memSize = s.memSize := rfl

@[simp] theorem passTurn_block (s : State) : (passTurn s).block = s.block := rfl
@[simp] theorem passTurn_mem (s : State) : (passTurn s).mem = s.mem := rfl
@[simp] theorem passTurn_memTop (s : State) : (passTurn s).memTop = s.memTop := rfl
@[simp] theorem passTurn_regBase (s : State) : (passTurn s).regBase = s.regBase := rfl
@[simp] theorem passTurn_rdata (s : State) : (passTurn s).rdata = s.rdata := rfl
@[simp] theorem passTurn_hostByte (s : State) : (passTurn s).hostByte = s.hostByte := rfl
@[simp] theorem passTurn_queue (s : State) : (passTurn s).queue = s.queue := rfl
@[simp] theorem passTurn_pace (s : State) : (passTurn s).pace = s.pace.tail := rfl
@[simp] theorem passTurn_turns (s : State) : (passTurn s).turns = s.turns + 1 := rfl
@[simp] theorem passTurn_draws (s : State) : (passTurn s).draws = s.draws := rfl
@[simp] theorem passTurn_windows (s : State) : (passTurn s).windows = s.windows := rfl
@[simp] theorem passTurn_awaited (s : State) : (passTurn s).awaited = s.awaited := rfl
@[simp] theorem passTurn_memSize (s : State) : (passTurn s).memSize = s.memSize := rfl

/-- A command's operands are read from seven fields; the status bits and `k` do not enter them. -/
theorem operands_congr {b c : Block} (h1 : b.op = c.op) (h2 : b.nch = c.nch) (h3 : b.src = c.src)
    (h4 : b.sstride = c.sstride) (h5 : b.dst = c.dst) (h6 : b.dstride = c.dstride) (h7 : b.count = c.count) :
    operands b = operands c := by
  simp [operands, h1, h2, h3, h4, h5, h6, h7]

@[simp] theorem operands_withWib (b : Block) : operands b.withWib = operands b := rfl
@[simp] theorem operands_clearOutcome (b : Block) : operands b.clearOutcome = operands b := rfl
@[simp] theorem operands_endEmpty (b : Block) : operands (endEmpty b) = operands b := rfl
@[simp] theorem operands_beginBusy (b : Block) : operands (beginBusy b) = operands b := rfl
@[simp] theorem operands_raiseError (e : ErrCode) (b : Block) : operands (raiseError e b) = operands b := rfl

@[simp] theorem operands_endPixel (b : Block) : operands (endPixel b) = operands b := by
  unfold endPixel; split <;> rfl

end Sys2Proof.Machine
end

