-- ==== Sys2Proof/Laws/Memory.lean ====
section
/-! SUPPORT. The laws of the data memory: a read after a write, and that every operation keeps the canonical form. -/

namespace Sys2Proof.Machine

theorem Memory.read_write_same (m : Memory) (a : Nat) (v : Byte) : Memory.read (Memory.write m a v) a = some v := by
  induction m with
  | nil => simp [Memory.write, Memory.read]
  | cons c m ih =>
    obtain ⟨b, w⟩ := c
    simp only [Memory.write]
    split
    · simp [Memory.read]
    · split
      · simp [Memory.read]
      · rename_i h
        simp [Memory.read, h, ih]

theorem Memory.read_write_ne (m : Memory) {a b : Nat} (v : Byte) (h : b ≠ a) :
    Memory.read (Memory.write m a v) b = Memory.read m b := by
  induction m with
  | nil => simp [Memory.write, Memory.read, h]
  | cons c m ih =>
    obtain ⟨d, w⟩ := c
    simp only [Memory.write]
    split
    · simp [Memory.read, h]
    · split
      · rename_i h1; subst h1; simp [Memory.read, h]
      · simp only [Memory.read, ih]

theorem Memory.read_write (m : Memory) (a b : Nat) (v : Byte) :
    Memory.read (Memory.write m a v) b = if b = a then some v else Memory.read m b := by
  split
  · rename_i h; subst h; exact Memory.read_write_same m b v
  · rename_i h; exact Memory.read_write_ne m v h

/-- The head of a canonical memory after a write is the written address or the old head. -/
theorem Memory.write_head (m : Memory) (a : Nat) (v : Byte) :
    ∃ c rest, Memory.write m a v = c :: rest ∧ (c.1 = a ∨ ∃ d t, m = d :: t ∧ c.1 = d.1) := by
  cases m with
  | nil => exact ⟨_, _, rfl, .inl rfl⟩
  | cons d t =>
    simp only [Memory.write]
    split
    · exact ⟨_, _, rfl, .inl rfl⟩
    · split
      · exact ⟨_, _, rfl, .inl rfl⟩
      · exact ⟨_, _, rfl, .inr ⟨d, t, rfl, rfl⟩⟩

theorem Memory.wf_cons_iff (c : Host.Cell) (m : Memory) :
    Memory.wf (c :: m) = true ↔ (∀ d t, m = d :: t → c.1 < d.1) ∧ Memory.wf m = true := by
  cases m with
  | nil => simp [Memory.wf]
  | cons d t => simp [Memory.wf]

/-- A write keeps the canonical form. -/
theorem Memory.write_wf (m : Memory) (a : Nat) (v : Byte) (h : Memory.wf m = true) :
    Memory.wf (Memory.write m a v) = true := by
  induction m with
  | nil => rfl
  | cons c m ih =>
    obtain ⟨b, w⟩ := c
    obtain ⟨hhead, hm⟩ := (Memory.wf_cons_iff _ _).1 h
    simp only [Memory.write]
    split
    · rename_i hab
      exact (Memory.wf_cons_iff _ _).2 ⟨fun d t e => by cases e; exact hab, h⟩
    · split
      · rename_i hab
        exact (Memory.wf_cons_iff _ _).2 ⟨fun d t e => by rw [hab]; exact hhead d t e, hm⟩
      · rename_i h1 h2
        refine (Memory.wf_cons_iff _ _).2 ⟨fun d t e => ?_, ih hm⟩
        obtain ⟨c, rest, hw, hc⟩ := Memory.write_head m a v
        rw [hw] at e
        cases e
        rcases hc with hc | ⟨d', t', hm', hc⟩
        · simp only [hc]; omega
        · rw [hc]; exact hhead d' t' hm'

/-- Every cell after a write is an old cell or the written one. -/
theorem Memory.mem_write {m : Memory} {a : Nat} {v : Byte} {c : Host.Cell} (h : c ∈ Memory.write m a v) :
    c = (a, v) ∨ c ∈ m := by
  induction m with
  | nil => simpa [Memory.write] using h
  | cons d m ih =>
    obtain ⟨b, w⟩ := d
    simp only [Memory.write] at h
    split at h
    · simpa using h
    · split at h
      · simp only [List.mem_cons] at h ⊢; tauto
      · simp only [List.mem_cons] at h ⊢
        rcases h with h | h
        · exact .inr (.inl h)
        · rcases ih h with h | h <;> tauto

/-- Writes inside MEM_SIZE keep the memory inside MEM_SIZE. -/
theorem Memory.write_inside {m : Memory} {a n : Nat} {v : Byte} (hm : ∀ c ∈ m, c.1 < n) (ha : a < n) :
    ∀ c ∈ Memory.write m a v, c.1 < n := by
  intro c hc
  rcases Memory.mem_write hc with rfl | h
  · exact ha
  · exact hm c h

/-! What giving bytes free values can do. -/

/-- `freeBytes` changes nothing but the memory and the count of drawn bytes. -/
theorem freeBytes_eq (s : State) (as : List Nat) :
    freeBytes s as = { s with mem := (freeBytes s as).mem, draws := (freeBytes s as).draws } := by
  induction as generalizing s with
  | nil => rfl
  | cons a as ih => simp only [freeBytes]; rw [ih]

@[simp] theorem freeBytes_block (s : State) (as : List Nat) : (freeBytes s as).block = s.block := by
  rw [freeBytes_eq]
@[simp] theorem freeBytes_memTop (s : State) (as : List Nat) : (freeBytes s as).memTop = s.memTop := by
  rw [freeBytes_eq]
@[simp] theorem freeBytes_memSize (s : State) (as : List Nat) : (freeBytes s as).memSize = s.memSize := by
  simp [State.memSize]
@[simp] theorem freeBytes_regBase (s : State) (as : List Nat) : (freeBytes s as).regBase = s.regBase := by
  rw [freeBytes_eq]
@[simp] theorem freeBytes_windows (s : State) (as : List Nat) : (freeBytes s as).windows = s.windows := by
  rw [freeBytes_eq]
@[simp] theorem freeBytes_awaited (s : State) (as : List Nat) : (freeBytes s as).awaited = s.awaited := by
  rw [freeBytes_eq]
@[simp] theorem freeBytes_queue (s : State) (as : List Nat) : (freeBytes s as).queue = s.queue := by
  rw [freeBytes_eq]
@[simp] theorem freeBytes_pace (s : State) (as : List Nat) : (freeBytes s as).pace = s.pace := by
  rw [freeBytes_eq]
@[simp] theorem freeBytes_turns (s : State) (as : List Nat) : (freeBytes s as).turns = s.turns := by
  rw [freeBytes_eq]
@[simp] theorem freeBytes_rdata (s : State) (as : List Nat) : (freeBytes s as).rdata = s.rdata := by
  rw [freeBytes_eq]
@[simp] theorem freeBytes_hostByte (s : State) (as : List Nat) : (freeBytes s as).hostByte = s.hostByte := by
  rw [freeBytes_eq]

/-- A byte that is not given a free value keeps its own. -/
theorem freeBytes_read (s : State) (as : List Nat) {a : Nat} (h : a ∉ as) :
    Memory.read (freeBytes s as).mem a = Memory.read s.mem a := by
  induction as generalizing s with
  | nil => rfl
  | cons b as ih =>
    simp only [List.mem_cons, not_or] at h
    simp only [freeBytes]
    rw [ih _ h.2]
    exact Memory.read_write_ne _ _ h.1

/-- The count of drawn bytes only grows. -/
theorem freeBytes_draws_le (s : State) (as : List Nat) : s.draws ≤ (freeBytes s as).draws := by
  induction as generalizing s with
  | nil => exact Nat.le_refl _
  | cons a as ih =>
    have h := ih { s with mem := Memory.write s.mem a (Config.freeByte s.draws), draws := s.draws + 1 }
    exact Nat.le_trans (Nat.le_succ s.draws) h

/-- A byte that is given a free value holds a fresh one. -/
theorem freeBytes_read_mem (s : State) (as : List Nat) {a : Nat} (h : a ∈ as) :
    ∃ n, s.draws ≤ n ∧ Memory.read (freeBytes s as).mem a = some (Config.freeByte n) := by
  induction as generalizing s with
  | nil => simp at h
  | cons b as ih =>
    by_cases ha : a ∈ as
    · obtain ⟨n, hn, hr⟩ := ih { s with mem := Memory.write s.mem b (Config.freeByte s.draws), draws := s.draws + 1 } ha
      exact ⟨n, Nat.le_trans (Nat.le_succ _) hn, hr⟩
    · rcases List.mem_cons.1 h with rfl | h
      · exact ⟨s.draws, Nat.le_refl _, by rw [freeBytes, freeBytes_read _ _ ha]; exact Memory.read_write_same _ _ _⟩
      · exact absurd h ha

theorem freeBytes_wf (s : State) (as : List Nat) (h : Memory.wf s.mem = true) :
    Memory.wf (freeBytes s as).mem = true := by
  induction as generalizing s with
  | nil => exact h
  | cons a as ih => exact ih _ (Memory.write_wf _ _ _ h)

theorem freeBytes_inside (s : State) (as : List Nat) {n : Nat} (h : ∀ c ∈ s.mem, c.1 < n) (has : ∀ a ∈ as, a < n) :
    ∀ c ∈ (freeBytes s as).mem, c.1 < n := by
  induction as generalizing s with
  | nil => exact h
  | cons a as ih =>
    exact ih _ (Memory.write_inside h (has a (by simp))) fun b hb => has b (by simp [hb])

end Sys2Proof.Machine
end

