-- ==== Sys2Proof/Laws/Operands.lean ====
section
/-! SUPPORT. What an accepted command's operands satisfy, and the arithmetic of its addresses (41_commands.md R124,
R129, R130). -/

namespace Sys2Proof.Machine

/-- What validation has checked of an accepted command (60_exceptions.md R164). -/
theorem Accepted.checked {memSize : Nat} {o : Operands} (h : Accepted memSize o) :
    (o.op = 1 ∨ o.op = 2) ∧ 0 < o.nch ∧ o.nch ≤ o.ss ∧ o.nch ≤ o.ds ∧ 0 < o.n ∧
      srcEnd o < memSize ∧ dstEnd o < memSize ∧ (inPlace o = true ∨ dstEnd o < o.src ∨ srcEnd o < o.dst) := by
  obtain ⟨hv, hn⟩ := h
  unfold validate at hv
  split at hv
  · cases hv
  · rename_i hop
    split at hv
    · cases hv
    · rename_i hp
      rw [if_neg (by omega)] at hv
      split at hv
      · cases hv
      · rename_i hb
        split at hv
        · cases hv
        · rename_i ho
          refine ⟨?_, by omega, by omega, by omega, hn, by omega, by omega, ?_⟩
          · by_cases h1 : o.op = 1
            · exact .inl h1
            · exact .inr (by by_contra h2; exact hop ⟨h1, h2⟩)
          · cases hi : inPlace o with
            | true => exact .inl rfl
            | false => right; simp only [hi, true_and] at ho; omega

/-- A byte of a buffer lies between its first and its last byte. -/
theorem buffer_le (base stride n nch k j : Nat) (hk : k < n) (hj : j < nch) :
    base + k * stride + j ≤ base + (n - 1) * stride + nch - 1 := by
  have : k * stride ≤ (n - 1) * stride := Nat.mul_le_mul_right _ (by omega)
  omega

theorem srcAddr_le (o : Operands) {k j : Nat} (hk : k < o.n) (hj : j < o.nch) : srcAddr o k j ≤ srcEnd o :=
  buffer_le _ _ _ _ _ _ hk hj

theorem dstAddr_le (o : Operands) {k j : Nat} (hk : k < o.n) (hj : j < o.nch) : dstAddr o k j ≤ dstEnd o :=
  buffer_le _ _ _ _ _ _ hk hj

theorem src_le_srcAddr (o : Operands) (k j : Nat) : o.src ≤ srcAddr o k j := by unfold srcAddr; omega

theorem dst_le_dstAddr (o : Operands) (k j : Nat) : o.dst ≤ dstAddr o k j := by unfold dstAddr; omega

/-- Two bytes of a buffer whose stride is at least the pixel's width are the same byte only if they are the same
channel of the same pixel (41_commands.md R131). -/
theorem buffer_inj {stride nch k j k' j' : Nat} (hs : nch ≤ stride) (hj : j < nch) (hj' : j' < nch)
    (h : k * stride + j = k' * stride + j') : k = k' ∧ j = j' := by
  have hk : k = k' := by
    rcases Nat.lt_trichotomy k k' with hlt | heq | hgt
    · have : (k + 1) * stride ≤ k' * stride := Nat.mul_le_mul_right _ hlt
      rw [Nat.succ_mul] at this; omega
    · exact heq
    · have : (k' + 1) * stride ≤ k * stride := Nat.mul_le_mul_right _ hgt
      rw [Nat.succ_mul] at this; omega
  subst hk
  exact ⟨rfl, by omega⟩

theorem dstAddr_inj {o : Operands} {k j k' j' : Nat} (hs : o.nch ≤ o.ds) (hj : j < o.nch) (hj' : j' < o.nch)
    (h : dstAddr o k j = dstAddr o k' j') : k = k' ∧ j = j' :=
  buffer_inj hs hj hj' (by unfold dstAddr at h; omega)

/-- `pixelAt` finds exactly the pixel a byte belongs to. -/
theorem pixelAt_eq_some {base stride n nch a k : Nat} (hs : nch ≤ stride) :
    pixelAt base stride n nch a = some k ↔ k < n ∧ ∃ j, j < nch ∧ a = base + k * stride + j := by
  unfold pixelAt
  constructor
  · intro h
    split at h
    · rename_i hc
      cases h
      refine ⟨hc.2.1, (a - base) % stride, hc.2.2, ?_⟩
      have := Nat.div_add_mod (a - base) stride
      rw [Nat.mul_comm] at this; omega
    · cases h
  · rintro ⟨hk, j, hj, rfl⟩
    have h1 : base + k * stride + j - base = j + k * stride := by omega
    have hpos : 0 < stride := by omega
    have hdiv : (j + k * stride) / stride = k := by
      rw [Nat.add_mul_div_right _ _ hpos, Nat.div_eq_of_lt (by omega)]; omega
    have hmod : (j + k * stride) % stride = j := by
      rw [Nat.add_mul_mod_self_right, Nat.mod_eq_of_lt (by omega)]
    rw [if_pos ⟨by omega, by rw [h1, hdiv]; exact hk, by rw [h1, hmod]; exact hj⟩, h1, hdiv]

theorem isDstByte_iff {o : Operands} (hs : o.nch ≤ o.ds) (a : Nat) :
    isDstByte o a = true ↔ ∃ k j, k < o.n ∧ j < o.nch ∧ a = dstAddr o k j := by
  unfold isDstByte
  rw [Option.isSome_iff_exists]
  simp only [pixelAt_eq_some hs]
  exact ⟨fun ⟨k, hk, j, hj, h⟩ => ⟨k, j, hk, hj, h⟩, fun ⟨k, j, hk, hj, h⟩ => ⟨k, hk, j, hj, h⟩⟩

/-- `srcPixelOf` finds exactly the pixel a source byte belongs to. -/
theorem srcPixelOf_eq_some {o : Operands} (hs : o.nch ≤ o.ss) {a k : Nat} :
    srcPixelOf o a = some k ↔ k < o.n ∧ ∃ j, j < o.nch ∧ a = srcAddr o k j := pixelAt_eq_some hs

theorem isSrcByte_of_srcPixelOf {o : Operands} {a k : Nat} (h : srcPixelOf o a = some k) : isSrcByte o a = true := by
  simp [isSrcByte, h]

theorem mem_dstPixel {o : Operands} {k a : Nat} : a ∈ dstPixel o k ↔ ∃ j, j < o.nch ∧ a = dstAddr o k j := by
  simp only [dstPixel, List.mem_map, List.mem_range]
  exact ⟨fun ⟨j, hj, h⟩ => ⟨j, hj, h.symm⟩, fun ⟨j, hj, h⟩ => ⟨j, hj, h.symm⟩⟩

theorem mem_dstBytes {o : Operands} {a : Nat} :
    a ∈ dstBytes o ↔ ∃ k j, k < o.n ∧ j < o.nch ∧ a = dstAddr o k j := by
  simp only [dstBytes, List.mem_flatMap, List.mem_range, mem_dstPixel]
  exact ⟨fun ⟨k, hk, j, hj, h⟩ => ⟨k, j, hk, hj, h⟩, fun ⟨k, j, hk, hj, h⟩ => ⟨k, hk, j, hj, h⟩⟩

/-- A destination byte of an accepted command is inside MEM_SIZE. -/
theorem Accepted.dstByte_lt {memSize : Nat} {o : Operands} (h : Accepted memSize o) {a : Nat}
    (ha : isDstByte o a = true) : a < memSize := by
  obtain ⟨_, _, _, hd, _, _, he, _⟩ := h.checked
  obtain ⟨k, j, hk, hj, rfl⟩ := (isDstByte_iff hd a).1 ha
  exact Nat.lt_of_le_of_lt (dstAddr_le o hk hj) he

/-- A source or destination byte of a command lies in one of its buffers (70_reset_and_hazards.md R186). -/
theorem touches_inBuffers {o : Operands} (hs : o.nch ≤ o.ss) (hd : o.nch ≤ o.ds) {a : Nat}
    (h : touches o a = true) : InBuffers o a := by
  unfold touches at h
  rw [Bool.or_eq_true] at h
  rcases h with h | h
  · unfold isSrcByte srcPixelOf at h
    obtain ⟨k, hk⟩ := Option.isSome_iff_exists.1 h
    obtain ⟨hkn, j, hj, rfl⟩ := (pixelAt_eq_some hs).1 hk
    exact .inl ⟨by omega, srcAddr_le o hkn hj⟩
  · obtain ⟨k, j, hk, hj, rfl⟩ := (isDstByte_iff hd a).1 h
    exact .inr ⟨dst_le_dstAddr _ _ _, dstAddr_le _ hk hj⟩

end Sys2Proof.Machine
end

