-- ==== Sys2Proof/Laws/Race.lean ====
section
/-! SUPPORT. What the outcomes of a race are: one of the listed bytes, and the plain byte where nothing races. -/

namespace Sys2Proof.Machine

/-- A choice is one of its outcomes (20_memory.md R54). -/
theorem choose_mem (draw a : Nat) (c : Byte) (cs : List Byte) : choose draw a c cs ∈ c :: cs := by
  cases cs with
  | nil => simp [choose]
  | cons d ds =>
    have h : Config.choice draw a % (ds.length + 2) < (c :: d :: ds).length := Nat.mod_lt _ (Nat.succ_pos _)
    rw [choose, List.getD_eq_getElem _ _ h]
    exact List.getElem_mem h

@[simp] theorem choose_nil (draw a : Nat) (c : Byte) : choose draw a c [] = c := rfl

/-- A choice among two outcomes. -/
theorem choose_two (draw a : Nat) (c d : Byte) :
    choose draw a c [d] = if Config.choice draw a % 2 = 0 then c else d := by
  have : Config.choice draw a % 2 < 2 := Nat.mod_lt _ (by omega)
  rw [choose]
  split
  · rename_i h; simp [h]
  · rename_i h; simp [show Config.choice draw a % 2 = 1 by omega]

/-- Which outcome a choice takes: the one at its place in the list. -/
theorem choose_eq_getElem (draw a : Nat) (c : Byte) (cs : List Byte) :
    some (choose draw a c cs) = (c :: cs)[Config.choice draw a % (c :: cs).length]? := by
  have h : Config.choice draw a % (c :: cs).length < (c :: cs).length := Nat.mod_lt _ (Nat.succ_pos _)
  cases cs with
  | nil => simp [choose, Nat.mod_one]
  | cons d ds =>
    show some ((c :: d :: ds).getD (Config.choice draw a % (c :: d :: ds).length) c) = _
    rw [List.getD_eq_getElem _ _ h, List.getElem?_eq_getElem h]

theorem racing_of_raced_nil {w : Window} (h : w.raced = []) (a : Nat) : w.racing a = [] := by
  simp [Window.racing, valuesAt, h]

theorem finds_of_nil {w : Window} (h : w.raced = [] ∧ w.fed = []) (a : Nat) : w.finds a = [] := by
  simp [Window.finds, Window.racing, valuesAt, h.1, h.2]

/-- Where no race has touched a byte the engine finds the byte in memory. -/
theorem seen_of_quiet {w : Window} {a : Nat} (h : w.finds a = []) (draw : Nat) (m : Memory) :
    seen draw w m a = Memory.read m a := by simp [seen, h]

/-- Without a racing write the engine's byte stands. -/
theorem landed_of_quiet {w : Window} {a : Nat} (h : w.racing a = []) (draw : Nat) (v : Byte) :
    landed draw w a v = v := by simp [landed, h]

theorem landed_mem (draw : Nat) (w : Window) (a : Nat) (v : Byte) :
    landed draw w a v = v ∨ landed draw w a v ∈ w.racing a := by
  rcases List.mem_cons.1 (choose_mem draw a v ((w.racing a).take 1)) with h | h
  · exact .inl h
  · exact .inr (List.mem_of_mem_take h)

@[simp] theorem Window.note_ops (a : Nat) (v : Byte) (w : Window) : (Window.note a v w).ops = w.ops := by
  unfold Window.note; split <;> rfl

@[simp] theorem Window.note_before (a : Nat) (v : Byte) (w : Window) : (Window.note a v w).before = w.before := by
  unfold Window.note; split <;> rfl

@[simp] theorem Window.note_fed (a : Nat) (v : Byte) (w : Window) : (Window.note a v w).fed = w.fed := by
  unfold Window.note; split <;> rfl

@[simp] theorem Window.feed_ops (cs : List Host.Cell) (w : Window) : (w.feed cs).ops = w.ops := rfl
@[simp] theorem Window.feed_before (cs : List Host.Cell) (w : Window) : (w.feed cs).before = w.before := rfl
@[simp] theorem Window.feed_raced (cs : List Host.Cell) (w : Window) : (w.feed cs).raced = w.raced := rfl

/-- What settling the bytes of a recomputed pixel from `a` on does to memory. -/
theorem relandBytes_read (draw : Nat) (w : Window) (a : Nat) (vs : List Byte) (m : Memory) (b : Nat) :
    Memory.read (relandBytes draw w a vs m) b =
      if a ≤ b then (match vs[b - a]? with
        | some v => some (relanded draw w m b v)
        | none => Memory.read m b) else Memory.read m b := by
  induction vs generalizing a m with
  | nil => simp [relandBytes]
  | cons v vs ih =>
    rw [relandBytes, ih, Memory.read_write]
    rcases Nat.lt_trichotomy a b with h | rfl | h
    · have hne : b ≠ a := Nat.ne_of_gt h
      have e : b - a = b - (a + 1) + 1 := by omega
      have hr : ∀ x y, relanded draw w (Memory.write m a x) b y = relanded draw w m b y := fun x y => by
        unfold relanded; rw [Memory.read_write_ne _ _ hne]
      rw [if_pos (Nat.succ_le_of_lt h), if_neg hne, if_pos (Nat.le_of_lt h), e, List.getElem?_cons_succ]
      simp only [hr]
    · simp
    · rw [if_neg (by omega), if_neg (by omega), if_neg (by omega)]

theorem relandBytes_wf (draw : Nat) (w : Window) (a : Nat) (vs : List Byte) (m : Memory) (h : Memory.wf m = true) :
    Memory.wf (relandBytes draw w a vs m) = true := by
  induction vs generalizing a m with
  | nil => exact h
  | cons v vs ih => exact ih _ _ (Memory.write_wf _ _ _ h)

theorem relandBytes_inside (draw : Nat) (w : Window) (a : Nat) (vs : List Byte) (m : Memory) {n : Nat}
    (h : ∀ c ∈ m, c.1 < n) (ha : a + vs.length ≤ n) : ∀ c ∈ relandBytes draw w a vs m, c.1 < n := by
  induction vs generalizing a m with
  | nil => exact h
  | cons v vs ih =>
    simp only [List.length_cons] at ha
    exact ih _ _ (Memory.write_inside h (by omega)) (by omega)

theorem cellsFrom_addr {a : Nat} {vs : List Byte} {c : Host.Cell} (h : c ∈ cellsFrom a vs) :
    a ≤ c.1 ∧ c.1 < a + vs.length := by
  induction vs generalizing a with
  | nil => simp [cellsFrom] at h
  | cons v vs ih =>
    simp only [cellsFrom, List.mem_cons] at h
    rcases h with rfl | h
    · simp
    · have := ih h; simp only [List.length_cons]; omega

theorem mem_pixelsHit {o : Operands} {done : Nat} {as : List Nat} {k : Nat} :
    k ∈ pixelsHit o done as ↔ k < done ∧ ∃ a ∈ as, srcPixelOf o a = some k := by
  simp [pixelsHit, and_comm]

theorem allSome_eq_some {xs : List (Option Byte)} {vs : List Byte} : allSome xs = some vs ↔ xs = vs.map some := by
  induction xs generalizing vs with
  | nil => cases vs <;> simp [allSome]
  | cons x xs ih =>
    cases x with
    | none => cases vs <;> simp [allSome]
    | some v =>
      cases vs with
      | nil => simp [allSome]
      | cons u us =>
        simp only [allSome, Option.map_eq_some_iff, List.cons.injEq, List.map_cons, Option.some.injEq]
        constructor
        · rintro ⟨ws, hw, rfl, rfl⟩; exact ⟨rfl, ih.1 hw⟩
        · rintro ⟨rfl, h⟩; exact ⟨us, ih.2 h, rfl, rfl⟩

/-- The pixel function keeps the number of channels (40_pixel_datapath.md R100). -/
theorem pix_length (op : BitVec 4) (nch : Nat) (p : List Byte) : (pix op nch p).length = p.length := by
  unfold pix
  split
  · split
    · split
      · simp [onBytes]
      · split
        · simp [onBytes]
        · rfl
    · rfl
  · rfl

/-- The bytes of a pixel under a race: the pixel function of what the engine saw. -/
theorem newPixel_eq_some {draw : Nat} {w : Window} {k : Nat} {q : List Byte} :
    newPixel draw w k = some q ↔ ∃ p, p.length = w.ops.nch ∧
      (∀ j, j < w.ops.nch → seen draw w w.before (srcAddr w.ops k j) = p[j]?) ∧ q = pix w.ops.op w.ops.nch p := by
  simp only [newPixel, Option.map_eq_some_iff, allSome_eq_some]
  constructor
  · rintro ⟨p, hp, rfl⟩
    have hl : p.length = w.ops.nch := by have := congrArg List.length hp; simpa using this.symm
    refine ⟨p, hl, fun j hj => ?_, rfl⟩
    have := congrArg (·[j]?) hp
    simp only [List.getElem?_map, List.getElem?_range hj, Option.map_some] at this
    rw [List.getElem?_eq_getElem (by omega)] at this ⊢
    simpa using this
  · rintro ⟨p, hl, hp, rfl⟩
    refine ⟨p, ?_, rfl⟩
    apply List.ext_getElem?
    intro j
    by_cases hj : j < w.ops.nch
    · simp only [List.getElem?_map, List.getElem?_range hj, Option.map_some, hp j hj]
      rw [List.getElem?_eq_getElem (by omega)]; rfl
    · rw [List.getElem?_eq_none (by simpa using hj), List.getElem?_eq_none (by simpa [hl] using hj)]

/-- An open command's recomputed pixel has its channels, and they are inside MEM_SIZE. -/
theorem newPixel_inside {memSize : Nat} {w : Window} {k draw : Nat} {q : List Byte} (ha : Accepted memSize w.ops)
    (hk : k < w.ops.n) (hq : newPixel draw w k = some q) :
    q.length = w.ops.nch ∧ dstAddr w.ops k 0 + q.length ≤ memSize := by
  obtain ⟨p, hp, _, rfl⟩ := newPixel_eq_some.1 hq
  have hl : (pix w.ops.op w.ops.nch p).length = w.ops.nch := by rw [pix_length, hp]
  obtain ⟨_, hn, _, _, _, _, hd, _⟩ := ha.checked
  have := dstAddr_le w.ops hk (show w.ops.nch - 1 < w.ops.nch by omega)
  exact ⟨hl, by rw [hl]; unfold dstAddr at *; omega⟩

/-- Everything the recomputed pixels of one command can do: the machine changes in its memory and count of draws only, the
memory stays canonical and inside MEM_SIZE, and only destination bytes of the command change or join the cells. -/
theorem recompute_foldl {w : Window} (ks : List Nat) {r : Spread} (ha : Accepted r.state.memSize w.ops)
    (hk : ∀ k ∈ ks, k < w.ops.n) :
    (ks.foldl (recompute w) r).state = { r.state with
      mem := (ks.foldl (recompute w) r).state.mem, draws := (ks.foldl (recompute w) r).state.draws } ∧
    (ks.foldl (recompute w) r).windows = r.windows ∧
    (Memory.wf r.state.mem = true → Memory.wf (ks.foldl (recompute w) r).state.mem = true) ∧
    ((∀ c ∈ r.state.mem, c.1 < r.state.memSize) →
      ∀ c ∈ (ks.foldl (recompute w) r).state.mem, c.1 < r.state.memSize) ∧
    (∀ c ∈ (ks.foldl (recompute w) r).cells, c ∈ r.cells ∨ (ks ≠ [] ∧ isDstByte w.ops c.1 = true)) ∧
    ∀ b, (ks = [] ∨ isDstByte w.ops b = false) →
      Memory.read (ks.foldl (recompute w) r).state.mem b = Memory.read r.state.mem b := by
  induction ks generalizing r with
  | nil => exact ⟨rfl, rfl, id, id, fun c h => .inl h, fun _ _ => rfl⟩
  | cons k ks ih =>
    have hds := ha.checked.2.2.2.1
    rw [List.foldl_cons]
    cases hq : newPixel r.state.draws w k with
    | none =>
      have he : recompute w r k = r := by unfold recompute; rw [hq]
      rw [he]
      obtain ⟨h1, h2, h3, h4, h5, h6⟩ := ih ha fun x hx => hk x (by simp [hx])
      exact ⟨h1, h2, h3, h4, fun c hc => (h5 c hc).imp id fun h => ⟨by simp, h.2⟩, fun b hb => h6 b (.inr (by simpa using hb))⟩
    | some q =>
      have hkn := hk k (by simp)
      obtain ⟨hl, hin⟩ := newPixel_inside ha hkn hq
      have hdst : ∀ b, dstAddr w.ops k 0 ≤ b → b < dstAddr w.ops k 0 + q.length → isDstByte w.ops b = true :=
        fun b h1 h2 => (isDstByte_iff hds b).2
          ⟨k, b - dstAddr w.ops k 0, hkn, by omega, by unfold dstAddr at *; omega⟩
      have he : recompute w r k =
          { r with
            state := { r.state with
              mem := relandBytes (r.state.draws + 1) w (dstAddr w.ops k 0) q r.state.mem
              draws := r.state.draws + 2 }
            cells := cellsFrom (dstAddr w.ops k 0) q ++ r.cells } := by unfold recompute; rw [hq]
      rw [he]
      obtain ⟨h1, h2, h3, h4, h5, h6⟩ := ih (r := { r with
        state := { r.state with
          mem := relandBytes (r.state.draws + 1) w (dstAddr w.ops k 0) q r.state.mem
          draws := r.state.draws + 2 }
        cells := cellsFrom (dstAddr w.ops k 0) q ++ r.cells }) ha fun x hx => hk x (by simp [hx])
      refine ⟨h1, h2, fun h => h3 (relandBytes_wf _ _ _ _ _ h), fun h => h4 (relandBytes_inside _ _ _ _ _ h hin),
        fun c hc => ?_, fun b hb => ?_⟩
      · rcases h5 c hc with h | h
        · rcases List.mem_append.1 h with h | h
          · exact .inr ⟨by simp, hdst _ (cellsFrom_addr h).1 (cellsFrom_addr h).2⟩
          · exact .inl h
        · exact .inr ⟨by simp, h.2⟩
      · have hb : isDstByte w.ops b = false := by simpa using hb
        rw [h6 b (.inr hb)]
        show Memory.read (relandBytes _ _ _ _ _) b = _
        rw [relandBytes_read]
        split
        · rename_i hle
          rw [List.getElem?_eq_none]
          by_contra hc
          rw [hdst b hle (by omega)] at hb
          cases hb
        · rfl

theorem reached_cons {o : Operands} {os : List Operands} {a b : Nat} :
    Reached (o :: os) a b ↔ (isDstByte o b = true ∧ ∃ x ∈ o :: os, isSrcByte x a = true) ∨ Reached os a b := by
  unfold Reached
  constructor
  · rintro ⟨p, older, hs, hd, hx⟩
    rcases List.suffix_cons_iff.1 hs with h | h
    · cases h; exact .inl ⟨hd, hx⟩
    · exact .inr ⟨p, older, h, hd, hx⟩
  · rintro (⟨hd, hx⟩ | ⟨p, older, hs, hd, hx⟩)
    · exact ⟨o, os, List.suffix_refl _, hd, hx⟩
    · exact ⟨p, older, hs.trans (List.suffix_cons _ _), hd, hx⟩

theorem Reached.source {os : List Operands} {a b : Nat} (h : Reached os a b) : ∃ x ∈ os, isSrcByte x a = true := by
  obtain ⟨_, _, hs, _, x, hx, he⟩ := h
  exact ⟨x, hs.subset hx, he⟩

/-- Everything a racing write can do while it spreads: the machine changes in its memory and count of draws only, the
memory stays canonical and inside MEM_SIZE, the windows change only in what feeds them, and only bytes the write can reach
change or join the cells (70_reset_and_hazards.md R186). -/
theorem spread_spec (a : Nat) (s : State) (ps : List (Window × Nat))
    (ha : ∀ p ∈ ps, Accepted s.memSize p.1.ops) :
    (spread a s ps).state = { s with mem := (spread a s ps).state.mem, draws := (spread a s ps).state.draws } ∧
    (spread a s ps).windows.map (fun w => { w with fed := [] }) = ps.map (fun p => { p.1 with fed := [] }) ∧
    (Memory.wf s.mem = true → Memory.wf (spread a s ps).state.mem = true) ∧
    ((∀ c ∈ s.mem, c.1 < s.memSize) → ∀ c ∈ (spread a s ps).state.mem, c.1 < s.memSize) ∧
    (∀ c ∈ (spread a s ps).cells, Reached (ps.map (·.1.ops)) a c.1) ∧
    ∀ b, ¬Reached (ps.map (·.1.ops)) a b → Memory.read (spread a s ps).state.mem b = Memory.read s.mem b := by
  induction ps with
  | nil => exact ⟨rfl, rfl, id, id, by simp [spread], fun _ _ => rfl⟩
  | cons p older ih =>
    obtain ⟨w, done⟩ := p
    obtain ⟨h1, h2, h3, h4, h5, h6⟩ := ih fun p hp => ha p (by simp [hp])
    have hacc : Accepted s.memSize w.ops := ha (w, done) (by simp)
    have hms : (spread a s older).state.memSize = s.memSize := by rw [h1]; rfl
    obtain ⟨g1, g2, g3, g4, g5, g6⟩ := recompute_foldl (w := w.feed (spread a s older).cells)
      (pixelsHit w.ops done (a :: (spread a s older).cells.map (·.1))) (r := spread a s older)
      (by rw [hms]; exact hacc) fun k hk => by
        obtain ⟨_, _, _, hs⟩ := mem_pixelsHit.1 hk
        exact ((srcPixelOf_eq_some hacc.checked.2.2.1).1 hs).1
    rw [hms] at g4
    have hhit : pixelsHit w.ops done (a :: (spread a s older).cells.map (·.1)) ≠ [] →
        ∃ x ∈ w.ops :: older.map (·.1.ops), isSrcByte x a = true := by
      intro hne
      obtain ⟨k, hk⟩ := List.exists_mem_of_ne_nil _ hne
      obtain ⟨_, b, hb, hs⟩ := mem_pixelsHit.1 hk
      rcases List.mem_cons.1 hb with rfl | hb
      · exact ⟨w.ops, by simp, isSrcByte_of_srcPixelOf hs⟩
      · obtain ⟨c, hc, rfl⟩ := List.mem_map.1 hb
        obtain ⟨x, hx, he⟩ := (h5 c hc).source
        exact ⟨x, List.mem_cons_of_mem _ hx, he⟩
    rw [show spread a s ((w, done) :: older) =
      { (pixelsHit w.ops done (a :: (spread a s older).cells.map (·.1))).foldl
          (recompute (w.feed (spread a s older).cells)) (spread a s older) with
        windows := w.feed (spread a s older).cells :: (spread a s older).windows } from rfl]
    refine ⟨?_, ?_, fun h => g3 (h3 h), fun h => g4 (h4 h), fun c hc => ?_, fun b hb => ?_⟩
    · dsimp only
      rw [g1, h1]
    · rw [List.map_cons, List.map_cons, h2]; rfl
    · rw [List.map_cons, reached_cons]
      rcases g5 c hc with h | ⟨hne, hd⟩
      · exact .inr (h5 c h)
      · exact .inl ⟨hd, hhit hne⟩
    · rw [List.map_cons, reached_cons, not_or] at hb
      dsimp only
      rw [g6 b ?_, h6 b hb.2]
      by_cases hne : pixelsHit w.ops done (a :: (spread a s older).cells.map (·.1)) = []
      · exact .inl hne
      · exact .inr (by by_contra hc; exact hb.1 ⟨by simpa using hc, hhit hne⟩)

end Sys2Proof.Machine
end

