-- ==== Sys2Proof/Laws/Engine.lean ====
section
/-! SUPPORT. What the engine's reads, writes and step can do. -/

namespace Sys2Proof.Machine

/-- The running command's window is the newest one, or the quiet one that stands in for it. -/
theorem currentWindow_cases (s : State) :
    (∃ w rest, s.windows = w :: rest ∧ currentWindow s = w) ∨
      (s.windows = [] ∧ (currentWindow s).raced = [] ∧ (currentWindow s).fed = []) := by
  unfold currentWindow
  cases hw : s.windows with
  | nil => exact .inr ⟨rfl, rfl, rfl⟩
  | cons w ws => exact .inl ⟨w, ws, rfl, rfl⟩

/-- What an engine write leaves is a matter of the windows alone. -/
theorem landed_withMem (s : State) (m : Memory) (draw a : Nat) :
    landed draw (currentWindow (s.withMem m)) a = landed draw (currentWindow s) a := by
  funext v
  unfold currentWindow landed
  cases hw : s.windows with
  | nil => simp [hw, Window.racing, valuesAt]
  | cons w ws => simp [hw]

/-- Where nothing races the engine finds the byte in memory. -/
theorem engineSees_of_quiet {s : State} {a : Nat} (h : (currentWindow s).finds a = []) :
    engineSees s a = Memory.read s.mem a := seen_of_quiet h _ _

/-- A read of a byte inside MEM_SIZE: its value, or the refusal of a byte that has no value. -/
theorem engineRead_of_lt {s : State} {a : Nat} (h : a < s.memSize) :
    engineRead s a = match engineSees s a with
      | some v => .next v
      | none => .refused .sourceByteNeverWritten := by
  unfold engineRead
  refine (if_neg (by omega)).trans ?_
  cases engineSees s a <;> rfl

/-- Reads inside MEM_SIZE answer the bytes or refuse; they never fault. -/
theorem engineReads_of_lt (s : State) (n a : Nat) (h : ∀ j, j < n → a + j < s.memSize) :
    engineReads s a n =
      if ∀ j, j < n → (engineSees s (a + j)).isSome then
        .next ((List.range n).map fun j => (engineSees s (a + j)).getD 0)
      else .refused .sourceByteNeverWritten := by
  induction n generalizing a with
  | zero => simp [engineReads]
  | succ n ih =>
    have ht := ih (a + 1) fun j hj => by have := h (j + 1) (by omega); omega
    rw [engineReads, engineRead_of_lt (show a < s.memSize by simpa using h 0 (by omega)), ht]
    cases hr : engineSees s a with
    | none =>
      have hno : ¬∀ j, j < n + 1 → (engineSees s (a + j)).isSome := fun hc => by
        have := hc 0 (by omega)
        simp [hr] at this
      rw [if_neg hno]
    | some v =>
      have hiff : (∀ j, j < n + 1 → (engineSees s (a + j)).isSome) ↔
          ∀ j, j < n → (engineSees s (a + 1 + j)).isSome := by
        constructor
        · intro hc j hj
          have := hc (j + 1) (by omega)
          rwa [show a + (j + 1) = a + 1 + j by omega] at this
        · intro hc j hj
          cases j with
          | zero => simp [hr]
          | succ j =>
            have := hc j (by omega)
            rwa [show a + 1 + j = a + (j + 1) by omega] at this
      by_cases hall : ∀ j, j < n → (engineSees s (a + 1 + j)).isSome
      · rw [if_pos hall, if_pos (hiff.2 hall)]
        simp [List.range_succ_eq_map, hr, Function.comp_def, Nat.add_assoc, Nat.add_comm 1]
      · rw [if_neg hall, if_neg (fun hc => hall (hiff.1 hc))]

/-- What a run of engine writes inside MEM_SIZE does: it changes nothing but the memory, and in memory nothing but the
bytes it stores, each of which holds what its race with the host's writes leaves there. -/
theorem engineWrites_spec (s : State) (a : Nat) (vs : List Byte) (h : ∀ j, j < vs.length → a + j < s.memSize) :
    ∃ t, engineWrites s a vs = .next t ∧ t = s.withMem t.mem ∧
      (∀ b, (b < a ∨ a + vs.length ≤ b) → Memory.read t.mem b = Memory.read s.mem b) ∧
      (∀ j, j < vs.length →
        Memory.read t.mem (a + j) = vs[j]?.map (landed (s.draws + 1) (currentWindow s) (a + j))) ∧
      (Memory.wf s.mem = true → Memory.wf t.mem = true) ∧
      ((∀ c ∈ s.mem, c.1 < s.memSize) → ∀ c ∈ t.mem, c.1 < s.memSize) := by
  induction vs generalizing s a with
  | nil => exact ⟨s, rfl, rfl, fun _ _ => rfl, by simp, id, id⟩
  | cons v vs ih =>
    have h0 : a < s.memSize := by simpa using h 0 (by simp)
    obtain ⟨x, hx⟩ : ∃ x, x = landed (s.draws + 1) (currentWindow s) a v := ⟨_, rfl⟩
    have hw : engineWrite s a v = .next (s.withMem (Memory.write s.mem a x)) := by
      unfold engineWrite; rw [if_neg (by omega), hx]
    obtain ⟨t, ht, hteq, htread, htown, htwf, htin⟩ := ih (s.withMem (Memory.write s.mem a x)) (a + 1) (by
      intro j hj; have := h (j + 1) (by simpa using hj); rw [State.withMem_memSize]; omega)
    refine ⟨t, by rw [engineWrites, hw]; exact ht, hteq, ?_, ?_, fun hm => htwf (Memory.write_wf _ _ _ hm),
      fun hin => htin (Memory.write_inside hin h0)⟩
    · intro b hb
      simp only [List.length_cons] at hb
      rw [htread b (by omega)]
      exact Memory.read_write_ne _ _ (by omega)
    · intro j hj
      cases j with
      | zero =>
        rw [show a + 0 = a from rfl, htread a (by omega), State.withMem_mem, Memory.read_write_same]
        rw [hx]; rfl
      | succ j =>
        have := htown j (by simpa using hj)
        rwa [show a + 1 + j = a + (j + 1) by omega, landed_withMem] at this

/-- The end of a pixel changes `k`, BUSY and DONE only. -/
theorem endPixel_eq (b : Block) :
    endPixel b = { b with k := b.k + 1, busy := b.busy && decide (b.k + 1 ≠ b.count.toNat),
                          done := b.done || decide (b.k + 1 = b.count.toNat) } := by
  unfold endPixel
  split
  · rename_i h; simp [h]
  · rename_i h; simp [h]

/-- The bytes the engine finds of source pixel `k`. -/
def foundPixel (s : State) (o : Operands) (k : Nat) : List Byte :=
  (List.range o.nch).map fun j => (engineSees s (srcAddr o k j)).getD 0

/-- Where no race has touched the command, the engine finds the source pixel as memory holds it. -/
theorem foundPixel_of_quiet {s : State} (h : (currentWindow s).raced = [] ∧ (currentWindow s).fed = []) (o : Operands) (k : Nat) :
    foundPixel s o k = sourcePixel s.mem o k := by
  unfold foundPixel sourcePixel
  simp only [engineSees_of_quiet (finds_of_nil h _)]

/-- Where no racing write has touched the command, the engine's bytes stand. -/
theorem map_landed_of_quiet {w : Window} (h : w.raced = []) (draw a : Nat) (x : Option Byte) :
    x.map (landed draw w a) = x := by
  cases x with
  | none => rfl
  | some v => rw [Option.map_some, landed_of_quiet (racing_of_raced_nil h a)]

/-- Everything `processPixel` can do inside MEM_SIZE: it answers a next state when every source byte of the pixel has a
value, and refuses otherwise. -/
theorem processPixel_spec {s : State} {o : Operands} {k : Nat} (hs : ∀ j, j < o.nch → srcAddr o k j < s.memSize)
    (hd : ∀ j, j < o.nch → dstAddr o k j < s.memSize) :
    ((∀ j, j < o.nch → (engineSees s (srcAddr o k j)).isSome) →
      ∃ t, processPixel s o k = .next t ∧ t = s.withMem t.mem ∧
        (∀ b, (∀ j, j < o.nch → b ≠ dstAddr o k j) → Memory.read t.mem b = Memory.read s.mem b) ∧
        (∀ j, j < o.nch → Memory.read t.mem (dstAddr o k j) =
          (pix o.op o.nch (foundPixel s o k))[j]?.map (landed (s.draws + 1) (currentWindow s) (dstAddr o k j))) ∧
        (Memory.wf s.mem = true → Memory.wf t.mem = true) ∧
        ((∀ c ∈ s.mem, c.1 < s.memSize) → ∀ c ∈ t.mem, c.1 < s.memSize)) ∧
    (¬(∀ j, j < o.nch → (engineSees s (srcAddr o k j)).isSome) →
      processPixel s o k = .refused .sourceByteNeverWritten) := by
  have hreads := engineReads_of_lt s o.nch (srcAddr o k 0) (fun j hj => by
    have := hs j hj; unfold srcAddr at this ⊢; omega)
  have hsa : ∀ j, srcAddr o k 0 + j = srcAddr o k j := fun j => by unfold srcAddr; omega
  have hda : ∀ j, dstAddr o k 0 + j = dstAddr o k j := fun j => by unfold dstAddr; omega
  simp only [hsa] at hreads
  have hlen : (pix o.op o.nch (foundPixel s o k)).length = o.nch := by rw [pix_length]; simp [foundPixel]
  constructor
  · intro hall
    rw [if_pos hall] at hreads
    obtain ⟨t, ht, hteq, htread, htown, htwf, htin⟩ :=
      engineWrites_spec s (dstAddr o k 0) (pix o.op o.nch (foundPixel s o k)) (by
        intro j hj; rw [hda]; exact hd j (by omega))
    refine ⟨t, by rw [processPixel, hreads]; exact ht, hteq, ?_, ?_, htwf, htin⟩
    · intro b hb
      apply htread
      rw [hlen]
      by_contra hc
      exact hb (b - dstAddr o k 0) (by omega) (by rw [← hda]; omega)
    · intro j hj
      have := htown j (by omega)
      rwa [hda] at this
  · intro hn
    rw [if_neg hn] at hreads
    rw [processPixel, hreads]

/-- A run of engine writes changes nothing but the memory, wherever it stores. -/
theorem engineWrites_frame {s t : State} {a : Nat} {vs : List Byte} (h : engineWrites s a vs = .next t) :
    t = s.withMem t.mem := by
  induction vs generalizing s a with
  | nil => cases h; rfl
  | cons v vs ih =>
    rw [engineWrites] at h
    cases hu : engineWrite s a v with
    | fault f => rw [hu] at h; cases h
    | refused r => rw [hu] at h; cases h
    | next u =>
    rw [hu] at h
    have hut : u = s.withMem u.mem := by
      unfold engineWrite at hu
      split_ifs at hu
      cases hu; rfl
    rw [ih h, hut]; rfl

/-- An engine step changes nothing but the memory, the count of draws, and in the block what the end of a pixel
changes (10_state.md R35, 41_commands.md R121). -/
theorem engineStep_frame {s t : State} (h : engineStep s = .next t) :
    t = { s with mem := t.mem, draws := s.draws + 2, block := endPixel s.block } := by
  unfold engineStep processPixel at h
  cases hr : engineReads s (srcAddr (operands s.block) s.block.k 0) (operands s.block).nch with
  | fault f => rw [hr] at h; cases h
  | refused r => rw [hr] at h; cases h
  | next p =>
    rw [hr] at h
    dsimp only at h
    cases hw : engineWrites s (dstAddr (operands s.block) s.block.k 0)
        (pix (operands s.block).op (operands s.block).nch p) with
    | fault f => rw [hw] at h; cases h
    | refused r => rw [hw] at h; cases h
    | next u =>
      rw [hw] at h
      cases h
      rw [engineWrites_frame hw]; rfl

end Sys2Proof.Machine
end

