-- ==== Sys2Proof/Laws/HostMemory.lean ====
section
/-! SUPPORT. What the host's reads and writes of memory and the platform's reset can do, and what the invariant rests
on. -/

namespace Sys2Proof.Machine

/-- The invariant depends on the block, the memory, MEM_SIZE and the hazard record only. -/
theorem Inv.congr {s t : State} (h : Inv s) (hm : t.mem = s.mem) (ht : t.memTop = s.memTop)
    (hb : t.block = s.block) (hw : t.windows = s.windows) (ha : t.awaited = s.awaited) : Inv t := by
  have hs : t.memSize = s.memSize := by unfold State.memSize; rw [ht]
  exact ⟨hm ▸ h.wf, by rw [hm, hs]; exact h.inside, by rw [hb, hs]; exact h.block, by rw [hw, hs]; exact h.windows,
    by rw [hb, hw, ha]; exact h.current⟩

/-- The windows in `processed` are the open windows, in their order. -/
theorem processed_map (s : State) : (processed s).map (·.1) = s.windows := by
  unfold processed
  cases s.windows with
  | nil => rfl
  | cons w ws => simp [Function.comp_def]

theorem processed_mem {s : State} {p : Window × Nat} (h : p ∈ processed s) : p.1 ∈ s.windows := by
  rw [← processed_map]; exact List.mem_map_of_mem h

/-- What a host write that completes has done, guards included. -/
theorem hostMemWrite_next {s t : State} {a : Nat} {v : Byte}
    (hacc : ∀ w ∈ s.windows, Accepted s.memSize w.ops) (h : hostMemWrite a v s = .next t) :
    a < s.memSize ∧
    t = { s with mem := t.mem, draws := t.draws, windows := t.windows } ∧
    t.windows.map (fun w => { w with fed := [] }) =
      s.windows.map (fun w => { Window.note a v w with fed := [] }) ∧
    (Memory.wf s.mem = true → Memory.wf t.mem = true) ∧
    ((∀ c ∈ s.mem, c.1 < s.memSize) → ∀ c ∈ t.mem, c.1 < s.memSize) ∧
    (∀ b, b ≠ a → ¬Reached (s.windows.map (·.ops)) a b → Memory.read t.mem b = Memory.read s.mem b) ∧
    (¬Reached (s.windows.map (·.ops)) a a → Memory.read t.mem a = some (hostLanded s a v)) ∧
    ((∀ w ∈ s.windows, touches w.ops a = false) → t = s.withMem (Memory.write s.mem a v)) := by
  unfold hostMemWrite at h
  split_ifs at h with hlt hany
  · have hp : ∀ p ∈ processed (landHost a v s), ∃ w ∈ s.windows, Window.note a v w = p.1 := fun p hp =>
      List.mem_map.1 (processed_mem hp)
    obtain ⟨g1, g2, g3, g4, _, g6⟩ := spread_spec a (landHost a v s) (processed (landHost a v s)) fun p hp' => by
      obtain ⟨w, hw, he⟩ := hp p hp'
      rw [← he, Window.note_ops]
      exact hacc w hw
    have hops : (processed (landHost a v s)).map (·.1.ops) = s.windows.map (·.ops) := by
      rw [show (fun p : Window × Nat => p.1.ops) = (·.ops) ∘ (·.1) from rfl, ← List.map_map, processed_map]
      show (s.windows.map (Window.note a v)).map _ = _
      rw [List.map_map]
      exact List.map_congr_left fun w _ => Window.note_ops a v w
    rw [hops] at g6
    cases h
    refine ⟨by omega, by rw [g1]; rfl, ?_, fun hm => g3 (Memory.write_wf _ _ _ hm),
      fun hin => g4 (Memory.write_inside hin (show a < s.memSize by omega)), fun b hb hn => ?_, fun hn => ?_, fun hn => ?_⟩
    · dsimp only
      rw [g2, show (fun p : Window × Nat => ({ p.1 with fed := [] } : Window)) =
        (fun w => { w with fed := [] }) ∘ (·.1) from rfl, ← List.map_map, processed_map]
      show (s.windows.map (Window.note a v)).map _ = _
      rw [List.map_map]; rfl
    · exact (g6 b hn).trans (Memory.read_write_ne _ _ hb)
    · exact (g6 a hn).trans (Memory.read_write_same _ _ _)
    · exfalso
      rw [List.any_eq_true] at hany
      obtain ⟨w, hw, hc⟩ := hany
      rw [hn w hw] at hc; cases hc
  · cases h
    have hno : ∀ w ∈ s.windows, touches w.ops a = false := by simpa using hany
    have hd : hostLanded s a v = v := by
      unfold hostLanded
      rw [if_neg]
      rw [List.any_eq_true]
      rintro ⟨w, hw, hc⟩
      have := hno w hw
      simp [touches, hc] at this
    refine ⟨by omega, rfl, List.map_congr_left fun w hw => ?_, Memory.write_wf _ _ _,
      fun hin => Memory.write_inside hin (by omega), fun b hb _ => Memory.read_write_ne _ _ hb,
      fun _ => by rw [hd]; exact Memory.read_write_same _ _ _, fun _ => rfl⟩
    simp [Window.note, hno w hw]

/-- A host write keeps the canonical form. -/
theorem hostMemWrite_wf {s t : State} {a : Nat} {v : Byte} (hi : Inv s) (h : hostMemWrite a v s = .next t) :
    Memory.wf t.mem = true :=
  (hostMemWrite_next (fun w hw => (hi.windows w hw).1) h).2.2.2.1 hi.wf

/-- What a host read that completes has done: it delivers a byte, drawn among the old and the new ones and the one in
memory where it races, and changes nothing else but the count of draws. -/
theorem hostMemRead_next {s t : State} {a : Nat} (h : hostMemRead a s = .next t) :
    a < s.memSize ∧ t = { s with hostByte := t.hostByte, draws := t.draws } ∧
      (racingReads s a ≠ [] → t.hostByte ∈ racingReads s a ++ (Memory.read s.mem a).toList) := by
  unfold hostMemRead at h
  split_ifs at h
  refine ⟨by omega, ?_⟩
  cases hr : racingReads s a with
  | nil =>
    cases hm : Memory.read s.mem a <;> rw [hr, hm] at h <;> cases h <;> exact ⟨rfl, fun hn => absurd rfl hn⟩
  | cons c cs =>
    rw [hr] at h
    cases h
    exact ⟨rfl, fun _ => choose_mem _ _ _ _⟩

/-- A host read where nothing races delivers the byte in memory. -/
theorem hostMemRead_of_settled {s : State} {a : Nat} {v : Byte} (ha : a < s.memSize) (hr : racingReads s a = [])
    (hv : Memory.read s.mem a = some v) : hostMemRead a s = .next { s with hostByte := v } := by
  unfold hostMemRead
  rw [if_neg (by omega), hr, hv]

/-- A byte that is no destination byte of an open command races with no read. -/
theorem racingReads_of_settled {s : State} {a : Nat} (h : ∀ w ∈ s.windows, isDstByte w.ops a = false) :
    racingReads s a = [] := by
  unfold racingReads
  rw [List.flatMap_eq_nil_iff]
  intro w hw
  have := h w hw
  unfold isDstByte at this
  unfold oldAndNew
  cases hp : pixelAt w.ops.dst w.ops.ds w.ops.n w.ops.nch a with
  | none => rfl
  | some k => rw [hp] at this; cases this

/-- What a reset does: the block is at its reset values, and memory changes, if at all, in the destination bytes of the
command it abandons, each of which takes a fresh free byte (70_reset_and_hazards.md R180, R181). -/
theorem platformReset_eq (s : State) :
    platformReset s = { s with block := Block.reset, awaited := false, mem := (platformReset s).mem,
                               draws := (platformReset s).draws, windows := (platformReset s).windows } ∧
      (∀ a, (s.block.busy = true → a ∉ dstBytes (operands s.block)) →
        Memory.read (platformReset s).mem a = Memory.read s.mem a) ∧
      (s.block.busy = true → ∀ a ∈ dstBytes (operands s.block),
        ∃ n, s.draws ≤ n ∧ Memory.read (platformReset s).mem a = some (Config.freeByte n)) := by
  unfold platformReset
  split
  · rename_i hb
    refine ⟨?_, fun a ha => freeBytes_read _ _ (ha hb), fun _ a ha => ?_⟩
    · rw [freeBytes_eq]
    · exact freeBytes_read_mem
        { s with block := Block.reset, windows := s.windows.tail, awaited := false } _ ha
  · rename_i hb
    exact ⟨rfl, fun _ _ => rfl, fun h => absurd h hb⟩

/-- A reset keeps the canonical form. -/
theorem platformReset_wf (s : State) (h : Memory.wf s.mem = true) : Memory.wf (platformReset s).mem = true := by
  unfold platformReset
  split
  · exact freeBytes_wf _ _ h
  · exact h

end Sys2Proof.Machine
end

