-- ==== Sys2Proof/Laws/Ops.lean ====
section
/-! SUPPORT. What the shared operations over registers can do, and what a transaction can do. -/

namespace Sys2Proof.Machine

theorem hostWrite_busy {s : State} (effect : State → State) (h : s.block.busy = true) :
    hostWrite effect s = s.withBlock s.block.withWib := by simp [hostWrite, h]

theorem hostWrite_idle {s : State} (effect : State → State) (h : s.block.busy = false) :
    hostWrite effect s = effect s := by simp [hostWrite, h]

/-- The three ways a START ends (41_commands.md R120). -/
theorem startCommand_cases (s : State) :
    (∃ e, validate s.memSize (operands s.block) = some e ∧
      startCommand s = { s with block := raiseError e s.block.clearOutcome, awaited := false }) ∨
    (validate s.memSize (operands s.block) = none ∧ s.block.count = 0 ∧
      startCommand s = { s with block := endEmpty s.block.clearOutcome, awaited := false }) ∨
    (Accepted s.memSize (operands s.block) ∧
      startCommand s = { s with block := beginBusy s.block.clearOutcome,
                                windows := { ops := operands s.block, before := s.mem, raced := [], fed := [] } :: s.windows,
                                awaited := true }) := by
  unfold startCommand
  simp only [operands_clearOutcome, Block.clearOutcome_count]
  cases hv : validate s.memSize (operands s.block) with
  | some e => exact .inl ⟨e, rfl, rfl⟩
  | none =>
    by_cases hc : s.block.count = 0
    · exact .inr (.inl ⟨rfl, hc, by simp [hc]⟩)
    · refine .inr (.inr ⟨⟨hv, ?_⟩, if_neg hc⟩)
      have : s.block.count.toNat ≠ 0 := fun h => hc (BitVec.eq_of_toNat_eq (by simpa using h))
      exact Nat.pos_of_ne_zero this

/-- START changes nothing but the block and the hazard record. -/
theorem startCommand_eq (s : State) :
    startCommand s = { s with block := (startCommand s).block, windows := (startCommand s).windows,
                              awaited := (startCommand s).awaited } := by
  rcases startCommand_cases s with ⟨e, _, h⟩ | ⟨_, _, h⟩ | ⟨_, h⟩ <;> rw [h]

/-- What a STATUS read does beside delivering the value: it closes the hazard intervals where it is the acquire point
(20_memory.md R59). -/
theorem acquire_eq (s : State) :
    acquire s = { s with
      windows := if s.block.done && !s.block.err && s.awaited then [] else s.windows
      awaited := if s.block.done && !s.block.err && s.awaited then false else s.awaited } := by
  unfold acquire
  split <;> rfl

/-- START keeps the operands and WIB (10_state.md R26, R38). -/
theorem startCommand_block (s : State) :
    (startCommand s).block = { s.block with busy := (startCommand s).block.busy, done := (startCommand s).block.done,
                                            err := (startCommand s).block.err,
                                            errcode := (startCommand s).block.errcode,
                                            k := (startCommand s).block.k } := by
  rcases startCommand_cases s with ⟨e, _, h⟩ | ⟨_, _, h⟩ | ⟨_, h⟩ <;> rw [h] <;> rfl

/-- What a host write to a register may do: while BUSY it sets WIB, while idle it has its effect. -/
theorem hostWrite_cases {effect : State → State} {s t : State}
    (h : (Host.Outcome.next (hostWrite effect s) : Host.Outcome State Fault Refusal) = .next t) :
    (t = s.withBlock s.block.withWib ∧ s.block.busy = true) ∨ (s.block.busy = false ∧ t = effect s) := by
  cases h
  cases hb : s.block.busy with
  | true => exact .inl ⟨hostWrite_busy effect hb, rfl⟩
  | false => exact .inr ⟨rfl, hostWrite_idle effect hb⟩

/-- What a transaction may do to the machine, guards included: a read delivers a value (and RD.STATUS may be the
acquire point, with DONE = 1 and ERR = 0), a write while BUSY sets WIB, and a write while idle changes status bits, operands or CTRL, where START
is the only way to BUSY. -/
theorem exec_cases {i : Instr} {s t : State} (h : exec i s = .next t) :
    (∃ v, t = s.withRdata v ∨ (t = { s.withRdata v with windows := [], awaited := false } ∧
      s.block.done = true ∧ s.block.err = false)) ∨
    (t = s.withBlock s.block.withWib ∧ s.block.busy = true) ∨ t = s ∨
    (s.block.busy = false ∧ ∃ v, t = s.withBlock (clearStatus v s.block)) ∨
    (s.block.busy = false ∧ ∃ src ss dst ds n, t = s.withBlock { s.block with
      src := src, sstride := ss, dst := dst, dstride := ds, count := n }) ∨
    (s.block.busy = false ∧ ∃ op nch, t = storeCtrl op nch s ∨ t = startCommand (storeCtrl op nch s)) := by
  cases i with
  | rdStatus =>
    simp only [exec, execRdStatus, acquire] at h
    split_ifs at h with hc <;> cases h
    · have hd : (s.block.done && !s.block.err && s.awaited) = true := hc
      simp only [Bool.and_eq_true, Bool.not_eq_true'] at hd
      exact .inl ⟨statusWord s.block, .inr ⟨rfl, hd.1⟩⟩
    · exact .inl ⟨_, .inl rfl⟩
  | rdCtrl => cases h; exact .inl ⟨_, .inl rfl⟩
  | rdSrc => cases h; exact .inl ⟨_, .inl rfl⟩
  | rdSstride => cases h; exact .inl ⟨_, .inl rfl⟩
  | rdDst => cases h; exact .inl ⟨_, .inl rfl⟩
  | rdDstride => cases h; exact .inl ⟨_, .inl rfl⟩
  | rdCount => cases h; exact .inl ⟨_, .inl rfl⟩
  | rdId => cases h; exact .inl ⟨_, .inl rfl⟩
  | wrId v => cases h; exact .inr (.inr (.inl rfl))
  | yccFwd nch =>
    rcases hostWrite_cases h with h | ⟨hb, h⟩
    · exact .inr (.inl h)
    · exact .inr (.inr (.inr (.inr (.inr ⟨hb, 1, nch, .inr h⟩))))
  | yccInv nch =>
    rcases hostWrite_cases h with h | ⟨hb, h⟩
    · exact .inr (.inl h)
    · exact .inr (.inr (.inr (.inr (.inr ⟨hb, 2, nch, .inr h⟩))))
  | wrCtrl v =>
    rcases hostWrite_cases h with h | ⟨hb, h⟩
    · exact .inr (.inl h)
    · refine .inr (.inr (.inr (.inr (.inr ⟨hb, opField v, nchField v, ?_⟩))))
      simp only [writeCtrl] at h
      split at h
      · exact .inr h
      · exact .inl h
  | wrStatus v =>
    rcases hostWrite_cases h with h | ⟨hb, h⟩
    · exact .inr (.inl h)
    · exact .inr (.inr (.inr (.inl ⟨hb, v, h⟩)))
  | wrSrc v =>
    rcases hostWrite_cases h with h | ⟨hb, h⟩
    · exact .inr (.inl h)
    · exact .inr (.inr (.inr (.inr (.inl ⟨hb, v, s.block.sstride, s.block.dst, s.block.dstride, s.block.count, h⟩))))
  | wrSstride v =>
    rcases hostWrite_cases h with h | ⟨hb, h⟩
    · exact .inr (.inl h)
    · exact .inr (.inr (.inr (.inr (.inl ⟨hb, s.block.src, v, s.block.dst, s.block.dstride, s.block.count, h⟩))))
  | wrDst v =>
    rcases hostWrite_cases h with h | ⟨hb, h⟩
    · exact .inr (.inl h)
    · exact .inr (.inr (.inr (.inr (.inl ⟨hb, s.block.src, s.block.sstride, v, s.block.dstride, s.block.count, h⟩))))
  | wrDstride v =>
    rcases hostWrite_cases h with h | ⟨hb, h⟩
    · exact .inr (.inl h)
    · exact .inr (.inr (.inr (.inr (.inl ⟨hb, s.block.src, s.block.sstride, s.block.dst, v, s.block.count, h⟩))))
  | wrCount v =>
    rcases hostWrite_cases h with h | ⟨hb, h⟩
    · exact .inr (.inl h)
    · exact .inr (.inr (.inr (.inr (.inl ⟨hb, s.block.src, s.block.sstride, s.block.dst, s.block.dstride, v, h⟩))))

/-- Every instruction answers a next state: no transaction is a fault or a refusal (93_implementation_defined.md). -/
theorem exec_next (i : Instr) (s : State) : ∃ t, exec i s = .next t := by
  cases i <;> exact ⟨_, rfl⟩

end Sys2Proof.Machine
end

