-- ==== Sys2Proof/Laws/PerInstr.lean ====
section
/-! SUPPORT. Facts about every instruction as syntax, one lemma per constructor. -/

namespace Sys2Proof.Laws

/-- Every instruction is an aligned 32-bit access inside the window (42_host_access.md R141). -/
def Supported.Statement (i : Instr) : Prop :=
  (encode i).width = 32 ∧ (encode i).off % 4 = 0 ∧ (encode i).off < 0x20

theorem Supported.yccFwd (x : Byte) : Supported.Statement (.yccFwd x) := by simp [Supported.Statement, encode, writeAccess, regOffset]
theorem Supported.yccInv (x : Byte) : Supported.Statement (.yccInv x) := by simp [Supported.Statement, encode, writeAccess, regOffset]
theorem Supported.rdCtrl : Supported.Statement (.rdCtrl) := by simp [Supported.Statement, encode, readAccess, regOffset]
theorem Supported.rdStatus : Supported.Statement (.rdStatus) := by simp [Supported.Statement, encode, readAccess, regOffset]
theorem Supported.rdSrc : Supported.Statement (.rdSrc) := by simp [Supported.Statement, encode, readAccess, regOffset]
theorem Supported.rdSstride : Supported.Statement (.rdSstride) := by simp [Supported.Statement, encode, readAccess, regOffset]
theorem Supported.rdDst : Supported.Statement (.rdDst) := by simp [Supported.Statement, encode, readAccess, regOffset]
theorem Supported.rdDstride : Supported.Statement (.rdDstride) := by simp [Supported.Statement, encode, readAccess, regOffset]
theorem Supported.rdCount : Supported.Statement (.rdCount) := by simp [Supported.Statement, encode, readAccess, regOffset]
theorem Supported.rdId : Supported.Statement (.rdId) := by simp [Supported.Statement, encode, readAccess, regOffset]
theorem Supported.wrCtrl (x : Word) : Supported.Statement (.wrCtrl x) := by simp [Supported.Statement, encode, writeAccess, regOffset]
theorem Supported.wrStatus (x : Word) : Supported.Statement (.wrStatus x) := by simp [Supported.Statement, encode, writeAccess, regOffset]
theorem Supported.wrSrc (x : Word) : Supported.Statement (.wrSrc x) := by simp [Supported.Statement, encode, writeAccess, regOffset]
theorem Supported.wrSstride (x : Word) : Supported.Statement (.wrSstride x) := by simp [Supported.Statement, encode, writeAccess, regOffset]
theorem Supported.wrDst (x : Word) : Supported.Statement (.wrDst x) := by simp [Supported.Statement, encode, writeAccess, regOffset]
theorem Supported.wrDstride (x : Word) : Supported.Statement (.wrDstride x) := by simp [Supported.Statement, encode, writeAccess, regOffset]
theorem Supported.wrCount (x : Word) : Supported.Statement (.wrCount x) := by simp [Supported.Statement, encode, writeAccess, regOffset]
theorem Supported.wrId (x : Word) : Supported.Statement (.wrId x) := by simp [Supported.Statement, encode, writeAccess, regOffset]

end Sys2Proof.Laws
end

