-- ==== Sys2Proof/Laws/Step.lean ====
section
/-! SUPPORT. What one step can do. -/

namespace Sys2Proof.Machine

/-- Which agent moves: the engine only while BUSY, the host only if it has an event (41_commands.md R121,
70_reset_and_hazards.md R190). -/
theorem agent_cases (s : State) :
    (agent s = .nobody ∧ s.block.busy = false ∧ s.queue = []) ∨
    (agent s = .engine ∧ s.block.busy = true ∧ (s.queue = [] ∨ hostBudget s = 0)) ∨
    (∃ e rest, agent s = .host e ∧ s.queue = e :: rest ∧ (s.block.busy = true → 0 < hostBudget s)) := by
  unfold agent
  cases hb : s.block.busy <;> cases hq : s.queue with
  | nil => simp
  | cons e rest =>
    first
    | simp; done
    | cases hp : hostBudget s <;> simp

/-- A step that answers a next state is one of these: nothing to do, an engine step, a transaction, one read of a
poll, a host write or read of a byte, or a reset. -/
theorem step_cases {s t : State} (h : step s = .next t) :
    (agent s = .nobody ∧ t = s) ∨
    (agent s = .engine ∧ s.block.busy = true ∧ ∃ u, engineStep s = .next u ∧ t = passTurn u) ∨
    (∃ a i, agent s = .host (.access a) ∧ decode a = .ok i ∧ exec i (takeEvent s) = .next t) ∨
    (∃ off mask value i u, agent s = .host (.poll off mask value) ∧
      decode { dir := .read, width := 32, off := off, data := 0 } = .ok i ∧ exec i (takeEvent s) = .next u ∧
      (t = u ∨ t = { u with queue := .poll off mask value :: u.queue })) ∨
    (∃ a v, agent s = .host (.memWrite a v) ∧ hostMemWrite a v (takeEvent s) = .next t) ∨
    (∃ a, agent s = .host (.memRead a) ∧ hostMemRead a (takeEvent s) = .next t) ∨
    (agent s = .host .reset ∧ t = platformReset (takeEvent s)) := by
  unfold step at h
  rcases agent_cases s with ⟨ha, _, _⟩ | ⟨ha, hb, _⟩ | ⟨e, rest, ha, _, _⟩ <;> simp only [ha] at h
  · cases h; exact .inl ⟨ha, rfl⟩
  · unfold engineTurn at h
    split at h <;> cases h
    rename_i u hu
    exact .inr (.inl ⟨ha, hb, u, hu, rfl⟩)
  · right; right
    cases e with
    | access a =>
      simp only [hostTurn, transact] at h
      split at h
      · rename_i i hd; exact .inl ⟨a, i, ha, hd, h⟩
      · cases h
    | poll off mask value =>
      simp only [hostTurn, pollOnce, transact] at h
      cases hd : decode { dir := .read, width := 32, off := off, data := 0 } with
      | error r => simp only [hd] at h; cases h
      | ok i =>
        obtain ⟨u, hu⟩ := exec_next i (takeEvent s)
        simp only [hd, hu] at h
        refine .inr (.inl ⟨off, mask, value, i, u, ha, hd, hu, ?_⟩)
        split at h <;> cases h
        · exact .inl rfl
        · exact .inr rfl
    | memWrite a v => exact .inr (.inr (.inl ⟨a, v, ha, h⟩))
    | memRead a => exact .inr (.inr (.inr (.inl ⟨a, ha, h⟩)))
    | reset => cases h; exact .inr (.inr (.inr (.inr ⟨ha, rfl⟩)))

end Sys2Proof.Machine
end

