-- ==== Sys2Proof/Laws/Words.lean ====
section
/-! SUPPORT. The words the registers read as and the command words, bit by bit, and the two command rows of the table as
facts about the START and OP fields (30_encoding.md R70, R73; 42_host_access.md R143). -/

namespace Sys2Proof.Machine

theorem commandWord_getLsbD (op : BitVec 4) (n : Byte) (i : Nat) :
    (commandWord op n).getLsbD i =
      if i < 4 then op.getLsbD i else if 8 ≤ i ∧ i < 16 then n.getLsbD (i - 8) else decide (i = 31) := by
  simp only [commandWord, BitVec.getLsbD_append, BitVec.getLsbD_one, BitVec.getLsbD_zero]
  split_ifs <;> first | rfl | omega | (simp; omega)

theorem ctrlWord_getLsbD (b : Block) (i : Nat) :
    (ctrlWord b).getLsbD i =
      if i < 4 then b.op.getLsbD i else if 8 ≤ i ∧ i < 16 then b.nch.getLsbD (i - 8) else false := by
  simp only [ctrlWord, BitVec.getLsbD_append, BitVec.getLsbD_zero]
  split_ifs <;> first | rfl | omega

theorem statusWord_getLsbD (b : Block) (i : Nat) :
    (statusWord b).getLsbD i =
      match i with
      | 0 => b.busy
      | 1 => b.done
      | 2 => b.err
      | 3 => b.wib
      | j + 4 => b.errcode.getLsbD j := by
  match i with
  | 0 => simp only [statusWord, BitVec.getLsbD_append]; simp
  | 1 => simp only [statusWord, BitVec.getLsbD_append]; simp
  | 2 => simp only [statusWord, BitVec.getLsbD_append]; simp
  | 3 => simp only [statusWord, BitVec.getLsbD_append]; simp
  | j + 4 =>
    simp only [statusWord, BitVec.getLsbD_append]
    simpa using fun h => BitVec.lt_of_getLsbD h

/-- A value matches a command row exactly if START is 1 and OP is the row's (30_encoding.md R73). -/
theorem command_row_iff (w : Word) (c : BitVec 4) :
    w &&& 0x8000000F = commandWord c 0 ↔ w.getLsbD 31 = true ∧ opField w = c := by
  constructor
  · intro h
    have hb : ∀ i, (w &&& 0x8000000F).getLsbD i = (commandWord c 0).getLsbD i := fun i => by rw [h]
    simp only [commandWord_getLsbD] at hb
    constructor
    · simpa using hb 31
    · apply BitVec.eq_of_getLsbD_eq
      intro i hi
      have := hb i
      interval_cases i <;> simpa [opField] using this
  · rintro ⟨h1, rfl⟩
    apply BitVec.eq_of_getLsbD_eq
    intro i hi
    rw [commandWord_getLsbD]
    have h1' : w[31] = true := by simpa using h1
    interval_cases i <;> simp [opField, h1']

theorem command_row_fwd (w : Word) : w &&& 0x8000000F = 0x80000001 ↔ w.getLsbD 31 = true ∧ opField w = 1 :=
  command_row_iff w 1

theorem command_row_inv (w : Word) : w &&& 0x8000000F = 0x80000002 ↔ w.getLsbD 31 = true ∧ opField w = 2 :=
  command_row_iff w 2

@[simp] theorem opField_commandWord (op : BitVec 4) (n : Byte) : opField (commandWord op n) = op := by
  apply BitVec.eq_of_getLsbD_eq
  intro i hi
  simp only [opField, BitVec.getLsbD_extractLsb', commandWord_getLsbD]
  simp [hi]

@[simp] theorem nchField_commandWord (op : BitVec 4) (n : Byte) : nchField (commandWord op n) = n := by
  apply BitVec.eq_of_getLsbD_eq
  intro i hi
  simp only [nchField, BitVec.getLsbD_extractLsb', commandWord_getLsbD]
  rw [if_neg (by omega), if_pos (by omega)]
  simp [hi]

end Sys2Proof.Machine
end

