-- ==== Sys2Proof/Machine/Program.lean ====
section
/-! DEFINITION. The host notation of 30_encoding.md R76 to R80, expanded to the host's events. -/

namespace Sys2Proof.Machine

/-- `wr REG, imm32` (R76). -/
def wr (r : Reg) (v : Word) : Event := .access (writeAccess r v)

/-- `rd REG` (R76). -/
def rd (r : Reg) : Event := .access (readAccess r)

/-- `poll REG, mask, value` (R76). -/
def poll (r : Reg) (mask value : Word) : Event := .poll (regOffset r) mask value

/-- The expansion that `ycc.fwd` and `ycc.inv` share: operands, then CTRL, then the wait for DONE (R77, R78). -/
def yccRun (op : BitVec 4) (nch : Byte) (src ss dst ds n : Word) : List Event :=
  [wr .src src, wr .sstride ss, wr .dst dst, wr .dstride ds, wr .count n, wr .ctrl (commandWord op nch),
    poll .status 0x2 0x2]

/-- `ycc.fwd nch, src, ss, dst, ds, n` (R77). -/
def yccFwdRun (nch : Byte) (src ss dst ds n : Word) : List Event := yccRun 1 nch src ss dst ds n

/-- `ycc.inv nch, src, ss, dst, ds, n` (R78). -/
def yccInvRun (nch : Byte) (src ss dst ds n : Word) : List Event := yccRun 2 nch src ss dst ds n

/-- `ycc.clr` (R79). -/
def yccClr : List Event := [wr .status 0x0000000E]

/-- `ycc.wait` (R80). -/
def yccWait : List Event := [poll .status 0x3 0x2]

/-- `ycc.check` (R80). -/
def yccCheck : List Event := [rd .status]

end Sys2Proof.Machine
end

