-- ==== Sys2Proof/Tests/Slice0.lean ====
section
/-! SUPPORT. Tests, whose expected results come from spec/ (each names its source), and for every statement with
hypotheses a witness that meets them. -/

namespace Sys2Proof.Tests

open Sys2Proof Sys2Proof.Machine

/-! ## Helpers -/

/-- The block of 95_test_vectors.md X13, idle: source pixels at 0, destination at 6, two pixels of three channels. -/
def blk : Block :=
  { Block.reset with op := 1, nch := 3, src := 0, sstride := 3, dst := 6, dstride := 3, count := 2 }

/-- A machine with MEM_SIZE = 0x100 (95_test_vectors.md section 3), one host step before each engine step, and the six
source bytes (255,0,0), (0,0,255). -/
def machine (b : Block) : State :=
  { State.reset with
    block := b, memTop := 0xFF, regBase := 0x4000, pace := [1, 1]
    mem := [(0, 255), (1, 0), (2, 0), (3, 0), (4, 0), (5, 255)] }

/-- The machine idle. -/
def idle : State := machine blk

/-- The machine idle with other operands. -/
def idleWith (nch : Byte) (src ss dst ds n : Word) : State :=
  machine { blk with nch := nch, src := src, sstride := ss, dst := dst, dstride := ds, count := n }

/-- The hazard interval of X13. -/
def window : Window :=
  { ops := operands blk, before := [(0, 255), (1, 0), (2, 0), (3, 0), (4, 0), (5, 255)], raced := [], fed := [] }

/-- The machine running X13. -/
def running : State := { machine { blk with busy := true } with windows := [window], awaited := true }

/-- The machine running X13 at its last pixel. -/
def lastPixel : State := { machine { blk with busy := true, k := 1 } with windows := [window], awaited := true }

/-- The machine after X13, its DONE = 1 unread: with ERR or not, and with the last START accepted or not. -/
def ended (err awaited : Bool) : State :=
  { machine { blk with done := true, err := err } with windows := [window], awaited := awaited }

/-- The machine running X13 after a racing host write. -/
def raced (a : Nat) (v : Byte) : State := { running with windows := [{ window with raced := [(a, v)] }] }

/-- The machine running X13 over a destination that holds bytes already. -/
def overwriting : State := { running with mem := Memory.write running.mem 6 64 }

/-- The hazard interval of X13 in place, where every destination byte has an old value. -/
def inPlaceWindow : Window := { window with ops := operands { blk with dst := 0 } }

/-- The machine running X13 in place. -/
def runningInPlace : State :=
  { machine { blk with busy := true, dst := 0 } with windows := [inPlaceWindow], awaited := true }

/-- Memory after X13: the source bytes of F4 and F6, and their transforms (95_test_vectors.md). -/
def transformed : Memory := running.mem ++ [(6, 64), (7, 128), (8, 255), (9, 64), (10, 255), (11, 128)]

/-- The operands of a command that takes its pixels from `src` to 0x20. -/
def second (src : Word) (k : Nat) : Block := { blk with busy := true, k := k, src := src, dst := 0x20 }

/-- The second command's hazard interval. -/
def secondWindow (src : Word) : Window :=
  { ops := operands (second src 0), before := transformed, raced := [], fed := [] }

/-- The machine running a second command, at its pixel `k`, while the DONE = 1 of X13 is unread. -/
def chained (src : Word) (k : Nat) : State :=
  { machine (second src k) with mem := transformed, windows := [secondWindow src, window], awaited := true }

/-- The machine with an event to come. -/
def withEvent (e : Event) (s : State) : State := { s with queue := [e] }

/-- STATUS after an instruction. -/
def statusAfter (i : Instr) (s : State) : Option Word := (nextState? (exec i s)).map fun t => statusWord t.block

/-- What a read delivers. -/
def readValue (i : Instr) (s : State) : Option Word := (nextState? (exec i s)).map fun t => t.rdata

/-- Some bytes of memory after an engine step. -/
def bytesAfter (s : State) (as : List Nat) : Option (List (Option Byte)) :=
  (nextState? (engineStep s)).map fun t => as.map (Memory.read t.mem)

theorem inv_idle : Inv idle where
  wf := by decide
  inside := by decide
  block := ⟨by decide, by decide, by decide, fun h => absurd h (by decide)⟩
  windows := by simp [idle, machine, State.reset]
  current := fun h => absurd h (by decide)

theorem accepted_blk : Accepted 0x100 (operands blk) := ⟨by decide, by decide⟩

theorem inv_running : Inv running where
  wf := by decide
  inside := by decide
  block := ⟨by decide, by decide, by decide, fun _ => ⟨rfl, accepted_blk, by decide⟩⟩
  windows := fun w hw => by
    rw [show running.windows = [window] from rfl, List.mem_singleton] at hw
    subst hw; exact ⟨accepted_blk, by decide⟩
  current := fun _ => ⟨rfl, window, [], rfl, rfl⟩

theorem inv_lastPixel : Inv lastPixel :=
  ⟨by decide, by decide, ⟨by decide, by decide, by decide, fun _ => ⟨rfl, accepted_blk, by decide⟩⟩,
    inv_running.windows, fun _ => ⟨rfl, window, [], rfl, rfl⟩⟩

theorem inv_raced (a : Nat) (v : Byte) : Inv (raced a v) :=
  ⟨inv_running.wf, inv_running.inside, inv_running.block,
    fun w hw => by
      rw [show (raced a v).windows = [{ window with raced := [(a, v)] }] from rfl, List.mem_singleton] at hw
      subst hw; exact inv_running.windows window (List.mem_singleton.2 rfl),
    fun _ => ⟨rfl, _, [], rfl, rfl⟩⟩

theorem inv_overwriting : Inv overwriting :=
  ⟨by decide, by decide, inv_running.block, inv_running.windows, inv_running.current⟩

theorem inv_runningInPlace : Inv runningInPlace :=
  have ha : Accepted 0x100 inPlaceWindow.ops := ⟨by decide, by decide⟩
  ⟨by decide, by decide, ⟨by decide, by decide, by decide, fun _ => ⟨rfl, ha, by decide⟩⟩,
    fun w hw => by
      rw [show runningInPlace.windows = [inPlaceWindow] from rfl, List.mem_singleton] at hw
      subst hw; exact ⟨ha, by decide⟩,
    fun _ => ⟨rfl, inPlaceWindow, [], rfl, rfl⟩⟩

theorem inv_chained (src : Word) (k : Nat) (ha : Accepted 0x100 (operands (second src k)))
    (hk : k < 2) : Inv (chained src k) :=
  ⟨rfl, (by decide : ∀ c ∈ transformed, c.1 < 0x100),
    ⟨fun h => absurd h.2 (by decide : ¬(false = true)), fun _ => rfl, fun h => absurd h (by decide : ¬(false = true)),
      fun _ => ⟨rfl, ha, hk⟩⟩,
    fun w hw => by
      rw [show (chained src k).windows = [secondWindow src, window] from rfl] at hw
      rcases List.mem_cons.1 hw with rfl | hw
      · exact ⟨ha, rfl⟩
      · rw [List.mem_singleton] at hw
        subst hw; exact ⟨accepted_blk, by decide⟩,
    fun _ => ⟨rfl, secondWindow src, [window], rfl, rfl⟩⟩

theorem inv_withEvent {s : State} (h : Inv s) (e : Event) : Inv (withEvent e s) :=
  ⟨h.wf, h.inside, h.block, h.windows, h.current⟩

/-! ## Well-formedness -/

/-- The one check: a CTRL write that is a command is not a `wrCtrl` (30_encoding.md R73). -/
theorem test_wellFormed_refuses_a_command_as_wrCtrl :
    WellFormed (.wrCtrl 0x80000301) = false ∧ WellFormed (.wrCtrl 0xFFFF03F2) = false := by decide

theorem test_wellFormed_accepts_other_ctrl_values :
    WellFormed (.wrCtrl 0x80000303) = true ∧ WellFormed (.wrCtrl 0x00000301) = true ∧
    WellFormed (.yccFwd 0) = true := by decide

/-! ## Decoding: words written out from 30_encoding.md R70, R72, R82 and 10_state.md R21 -/

/-- START = 1, reserved 0, NCH = 00000011, reserved 0, OP = 0001 or 0010. -/
theorem test_decode_commands :
    (decode { dir := .write, width := 32, off := 0, data := 0b1000000000000000#16 ++ 0b0000001100000001#16 }).toOption =
      some (.yccFwd 3) ∧
    (decode { dir := .write, width := 32, off := 0, data := 0b1000000000000000#16 ++ 0b0000001100000010#16 }).toOption =
      some (.yccInv 3) := by decide

/-- The reserved row, the "not a command" row, and reserved bits at 1 (R73, R74). -/
theorem test_decode_ctrl_rows :
    (decode { dir := .write, width := 32, off := 0, data := 0x8000030F }).toOption = some (.wrCtrl 0x8000030F) ∧
    (decode { dir := .write, width := 32, off := 0, data := 0x7FFFFFF1 }).toOption = some (.wrCtrl 0x7FFFFFF1) ∧
    (decode { dir := .write, width := 32, off := 0, data := 0xFFFF03F1 }).toOption = some (.yccFwd 3) := by decide

theorem test_decode_reads :
    [0x00, 0x04, 0x08, 0x0C, 0x10, 0x14, 0x18, 0x1C].map
      (fun off => (decode { dir := .read, width := 32, off := off, data := 0 }).toOption) =
    [some .rdCtrl, some .rdStatus, some .rdSrc, some .rdSstride, some .rdDst, some .rdDstride, some .rdCount,
      some .rdId] := by decide

theorem test_decode_writes :
    [0x00, 0x04, 0x08, 0x0C, 0x10, 0x14, 0x18, 0x1C].map
      (fun off => (decode { dir := .write, width := 32, off := off, data := 0x301 }).toOption) =
    [some (.wrCtrl 0x301), some (.wrStatus 0x301), some (.wrSrc 0x301), some (.wrSstride 0x301), some (.wrDst 0x301),
      some (.wrDstride 0x301), some (.wrCount 0x301), some (.wrId 0x301)] := by decide

/-- Wrong width, wrong alignment, outside the window (42_host_access.md R141). -/
theorem test_decode_rejects :
    (decode { dir := .read, width := 16, off := 4, data := 0 }).toOption = none ∧
    (decode { dir := .read, width := 64, off := 0, data := 0 }).toOption = none ∧
    (decode { dir := .write, width := 32, off := 0x1E, data := 0 }).toOption = none ∧
    (decode { dir := .write, width := 32, off := 0x20, data := 0 }).toOption = none := by decide

/-- Words as spec/opcode_table.json numbers them; bit 5 is log entry 1's. -/
theorem test_decode_table_words :
    decodeTableWord 32 0x80000401 = some (.yccFwd 4) ∧ decodeTableWord 32 0x80000302 = some (.yccInv 3) ∧
    decodeTableWord 8 0x00 = some .rdCtrl ∧ decodeTableWord 8 0x1C = some .rdId ∧
    decodeTableWord 32 (0x08 + 0x20 + 256 * 0x77) = some (.wrSrc 0x77) ∧ decodeTableWord 8 0x01 = none := by decide

/-- 95_test_vectors.md P1 and P2, the encodings beside the programs. -/
theorem test_program_expansions :
    yccFwdRun 4 0x100 4 0x200 4 2 =
      [wr .src 0x100, wr .sstride 4, wr .dst 0x200, wr .dstride 4, wr .count 2, wr .ctrl 0x80000401,
        .poll 0x04 0x2 0x2] ∧
    (yccInvRun 3 0x40 3 0x40 3 3)[5]? = some (.access { dir := .write, width := 32, off := 0, data := 0x80000302 }) ∧
    yccClr = [.access { dir := .write, width := 32, off := 4, data := 0x0000000E }] := by decide

/-! ## The pixel function: 95_test_vectors.md section 2 -/

/-- Vectors F1 to F22. -/
theorem test_forward_vectors :
    ∀ v ∈ ([([0, 0, 0], [0, 128, 128]), ([255, 255, 255], [255, 128, 128]), ([128, 128, 128], [128, 128, 128]),
        ([255, 0, 0], [64, 128, 255]), ([0, 255, 0], [128, 0, 0]), ([0, 0, 255], [64, 255, 128]),
        ([255, 255, 0], [191, 0, 128]), ([0, 255, 255], [191, 128, 0]), ([255, 0, 255], [128, 255, 255]),
        ([0, 0, 1], [0, 128, 128]), ([1, 0, 0], [0, 128, 128])] ++
        [([0, 1, 0], [1, 127, 127]), ([1, 1, 1], [1, 128, 128]), ([128, 64, 32], [72, 112, 160]),
        ([100, 150, 200], [150, 153, 103]), ([17, 34, 51], [34, 136, 119]), ([10, 20, 30], [20, 133, 123]),
        ([254, 255, 254], [255, 127, 127]), ([255, 254, 255], [255, 128, 128]), ([200, 100, 50], [113, 103, 178]),
        ([1, 2, 3], [2, 128, 127]), ([0, 127, 0], [64, 64, 64])] : List (List Byte × List Byte)),
      pix 1 3 v.1 = v.2 := by decide

/-- Vectors I1 to I26. -/
theorem test_inverse_vectors :
    ∀ v ∈ ([([0, 128, 128], [0, 0, 0]), ([128, 128, 128], [128, 127, 128]), ([255, 128, 128], [255, 254, 255]),
        ([64, 128, 255], [255, 0, 1]), ([64, 255, 128], [1, 0, 255]), ([72, 112, 160], [128, 63, 32]),
        ([128, 0, 0], [0, 255, 0]), ([128, 255, 255], [255, 0, 255]), ([0, 0, 0], [0, 127, 0]),
        ([255, 255, 255], [255, 127, 255]), ([0, 255, 255], [127, 0, 127]), ([255, 0, 0], [127, 255, 127]),
        ([0, 255, 0], [0, 0, 255])] ++
        [([0, 0, 255], [255, 0, 0]), ([255, 0, 255], [255, 255, 0]), ([16, 200, 40], [0, 23, 168]),
        ([0, 1, 255], [254, 0, 0]), ([100, 126, 127], [100, 101, 98]), ([150, 153, 103], [100, 149, 200]),
        ([34, 136, 119], [17, 34, 51]), ([191, 0, 128], [255, 254, 0]), ([191, 128, 0], [0, 254, 255]),
        ([1, 127, 127], [0, 1, 0]), ([20, 133, 123], [10, 19, 30]), ([128, 127, 127], [127, 128, 127]),
        ([128, 129, 129], [129, 126, 129])] : List (List Byte × List Byte)),
      pix 2 3 v.1 = v.2 := by decide

/-- Vectors A1 to A8. -/
theorem test_pass_through_vectors :
    pix 1 4 [255, 0, 0, 255] = [64, 128, 255, 255] ∧ pix 2 4 [64, 255, 128, 128] = [1, 0, 255, 128] ∧
    pix 2 5 [64, 128, 255, 7, 200] = [255, 0, 1, 7, 200] ∧
    pix 1 6 [0, 255, 0, 1, 2, 3] = [128, 0, 0, 1, 2, 3] ∧ pix 1 1 [77] = [77] ∧ pix 2 1 [77] = [77] ∧
    pix 1 2 [255, 0] = [255, 0] ∧ pix 2 2 [9, 8] = [9, 8] := by decide

/-! ## Instructions: 95_test_vectors.md section 3 -/

/-- X7 is accepted, X8 is out of bounds. -/
theorem test_yccFwd_bounds :
    statusAfter (.yccFwd 3) (idleWith 0 0xFD 3 0 3 1) = some 0x01 ∧
    statusAfter (.yccFwd 3) (idleWith 0 0xFE 3 0 3 1) = some 0x36 := by decide

/-- X9 (no wrap), X12 (interleaving), X14 (not in place), X16 (priority). -/
theorem test_yccFwd_errors :
    statusAfter (.yccFwd 3) (idleWith 0 0 0xFFFFFFFF 0x80 3 0xFFFFFFFF) = some 0x36 ∧
    statusAfter (.yccFwd 3) (idleWith 0 0 8 4 8 2) = some 0x46 ∧
    statusAfter (.yccFwd 3) (idleWith 0 0 3 0 4 2) = some 0x46 ∧
    statusAfter (.yccFwd 3) (idleWith 0 0xF0 3 0xF1 3 10) = some 0x36 := by decide

/-- X6, and in place as X15. -/
theorem test_yccInv_start :
    statusAfter (.yccInv 3) (idleWith 0 0 3 0 2 1) = some 0x26 ∧
    statusAfter (.yccInv 3) (idleWith 0 0 3 0 3 2) = some 0x01 := by decide

/-- A block whose registers all differ. -/
def distinct : State :=
  machine { op := 2, nch := 0x34, busy := false, done := true, err := true, wib := true, errcode := 4, src := 0x11,
            sstride := 0x22, dst := 0x33, dstride := 0x44, count := 0x55, k := 0 }

/-- The fields' places of 10_state.md R22 and R23, and the offsets of R21. -/
theorem test_reads :
    [Instr.rdCtrl, .rdStatus, .rdSrc, .rdSstride, .rdDst, .rdDstride, .rdCount, .rdId].map
      (fun i => readValue i distinct) =
    [some 0x00003402, some 0x0000004E, some 0x11, some 0x22, some 0x33, some 0x44, some 0x55, some 0x31434359] := by
  decide

/-- X3 and X2: a reserved OP beats NCH = 0. -/
theorem test_wrCtrl_reserved :
    statusAfter (.wrCtrl 0x80000303) idle = some 0x16 ∧ statusAfter (.wrCtrl 0x80000000) idle = some 0x16 := by decide

/-- 42_host_access.md R145: without START the fields are stored and STATUS stays. -/
theorem test_wrCtrl_stores :
    (nextState? (exec (.wrCtrl 0x7FFF25F6) distinct)).map (fun t => (ctrlWord t.block, statusWord t.block)) =
      some (0x00002506, 0x0000004E) := by decide

/-- X18 and X19, from STATUS = 0x16. -/
theorem test_wrStatus_clears :
    statusAfter (.wrStatus 0x04) (machine { blk with done := true, err := true, errcode := 1 }) = some 0x02 ∧
    statusAfter (.wrStatus 0x0E) (machine { blk with done := true, err := true, errcode := 1 }) = some 0x00 := by decide

/-- 42_host_access.md R146: BUSY and ERRCODE positions are ignored. -/
theorem test_wrStatus_ignores : statusAfter (.wrStatus 0xFFFFFFF1) distinct = some 0x4E := by decide

/-- 42_host_access.md R147: each write reaches its own register. -/
theorem test_operand_writes :
    [Instr.wrSrc 9, .wrSstride 9, .wrDst 9, .wrDstride 9, .wrCount 9].map
      (fun i => (nextState? (exec i distinct)).map fun t =>
        [t.block.src, t.block.sstride, t.block.dst, t.block.dstride, t.block.count]) =
    [some [9, 0x22, 0x33, 0x44, 0x55], some [0x11, 9, 0x33, 0x44, 0x55], some [0x11, 0x22, 9, 0x44, 0x55],
      some [0x11, 0x22, 0x33, 9, 0x55], some [0x11, 0x22, 0x33, 0x44, 9]] := by decide

/-- X20: a write while BUSY is dropped and sets WIB; COUNT keeps its value. -/
theorem test_write_while_busy :
    statusAfter (.wrCount 5) running = some 0x09 ∧
    (nextState? (exec (.wrCount 5) running)).map (fun t => t.block.count) = some 2 ∧
    statusAfter (.yccFwd 3) running = some 0x09 := by decide

/-- X21: a write to ID never sets WIB. -/
theorem test_wrId : statusAfter (.wrId 0) running = some 0x01 := by decide

/-- 42_host_access.md R142: the bytes of ID in the window. -/
theorem test_window_bytes_of_id :
    [0x401C, 0x401D, 0x401E, 0x401F].map (windowByte idle) = [some 0x59, some 0x43, some 0x43, some 0x31] ∧
    windowByte idle 0x4020 = none ∧ windowByte idle 0x3FFF = none := by decide

/-! ## The engine -/

/-- Vector F4, into a separate buffer; then BUSY is still 1. -/
theorem test_engine_first_pixel :
    bytesAfter running [6, 7, 8, 9] = some [some 64, some 128, some 255, none] ∧
    (nextState? (engineStep running)).map (fun t => statusWord t.block) = some 0x01 := by decide

/-- Vector F6; BUSY falls and DONE rises with the last pixel (41_commands.md R127). -/
theorem test_engine_last_pixel :
    bytesAfter lastPixel [9, 10, 11] = some [some 64, some 255, some 128] ∧
    (nextState? (engineStep lastPixel)).map (fun t => statusWord t.block) = some 0x02 := by decide

/-- A source byte nothing has written stops the command (70_reset_and_hazards.md R184). -/
theorem test_engine_refuses_unwritten_source :
    engineStep { running with mem := [(0, 255), (1, 0)] } = .refused .sourceByteNeverWritten := rfl

/-- A racing write to a source byte of a pixel the engine has not processed changes that byte and no other; the engine
refuses to read one that had no value at START (70_reset_and_hazards.md R184, R186). -/
theorem test_racing_write_to_a_source_byte :
    (nextState? (hostMemWrite 3 7 lastPixel)).map (fun t => [3, 4, 6, 7, 8, 9].map (Memory.read t.mem)) =
      some [some 7, some 0, none, none, none, none] ∧
    engineSees { raced 0 7 with windows := [{ window with before := [], raced := [(0, 7)] }] } 0 = none := by decide

/-- A racing write to a source byte of a finished command brings a newer command the three bytes of the pixel it feeds,
and no other byte; outside the two pixels and the byte itself memory keeps its values (70_reset_and_hazards.md R186). -/
theorem test_racing_write_feeds_the_newer_command :
    (nextState? (hostMemWrite 0 7 (chained 6 1))).map (fun t =>
      (t.windows.map fun w => w.fed.map (·.1), [1, 5, 9, 11, 0x23].map (Memory.read t.mem))) =
      some ([[6, 7, 8], []], [some 0, some 255, some 64, some 128, none]) := by rfl

/-- After a failed START a STATUS read closes no hazard interval of an earlier command (70_reset_and_hazards.md R188). -/
theorem test_failed_start_acquires_nothing :
    ((nextState? (exec (.yccFwd 4) (ended false true))).bind fun t => nextState? (exec .rdStatus t)).map
      (fun t => t.windows) = some [window] := by decide

/-- 70_reset_and_hazards.md R180. -/
theorem test_reset_idles_the_block : (platformReset running).block = Block.reset := rfl

/-! ## Witnesses: for every statement with hypotheses, a state and operands that meet them -/

theorem witness_DecodeEncodeRoundTrip :
    WellFormed (.yccFwd 255) = true ∧ WellFormed (.wrCtrl 0x80000300) = true ∧ WellFormed .rdId = true := by decide

/-- Both alternatives of the write datum: kept whole, and a command word with its reserved bits at 1. -/
theorem witness_EncodeDecodeGivesTheAccessBack :
    decode { dir := .write, width := 32, off := 0x18, data := 0xFFFFFFFF } = .ok (.wrCount 0xFFFFFFFF) ∧
    decode { dir := .write, width := 32, off := 0x00, data := 0xFFFFFFF2 } = .ok (.yccInv 0xFF) := ⟨rfl, rfl⟩

theorem witness_CtrlWriteDecodesByFirstRow :
    idle.block.busy = false ∧ (0x80000003 : Word).getLsbD 31 = true ∧
    (0x80000003 : Word) &&& 0x8000000F ≠ 0x80000001 ∧ (0x80000003 : Word) &&& 0x8000000F ≠ 0x80000002 := by decide

/-- The last supported offset, and the first ones that are not. -/
theorem witness_UnsupportedAccessIsRefused :
    0x1C ∈ [0x00, 0x04, 0x08, 0x0C, 0x10, 0x14, 0x18, 0x1C] ∧
    ¬0x20 ∈ [0x00, 0x04, 0x08, 0x0C, 0x10, 0x14, 0x18, 0x1C] ∧
    ¬0x1D ∈ [0x00, 0x04, 0x08, 0x0C, 0x10, 0x14, 0x18, 0x1C] ∧
    (∃ rest, (withEvent (.access { dir := .read, width := 32, off := 0x20, data := 0 }) running).queue =
      .access { dir := .read, width := 32, off := 0x20, data := 0 } :: rest) ∧ hostBudget running ≠ 0 :=
  ⟨by decide, by decide, by decide, ⟨[], rfl⟩, by decide⟩

/-- Each of the five events can be the next one, and the host can have a step left. -/
theorem witness_StepRunsDecodedAccess :
    (∀ e, (withEvent e running).queue = e :: [] ∧ hostBudget (withEvent e running) ≠ 0) ∧
    decode (writeAccess .count 5) = .ok (.wrCount 5) := ⟨fun _ => ⟨rfl, Nat.one_ne_zero⟩, rfl⟩

/-- The engine's step with a next state, with a fault (outside the invariant) and with a refusal; and nothing to do. -/
theorem witness_StepRunsTheEngineOnlyWhileBusy :
    running.block.busy = true ∧ running.queue = [] ∧ (∃ t, engineStep running = .next t) ∧
    engineStep { running with memTop := 0 } = .fault .addressOutsideMemory ∧
    engineStep { running with mem := [] } = .refused .sourceByteNeverWritten ∧ agent running = .engine ∧
    idle.block.busy = false ∧ idle.queue = [] := ⟨rfl, rfl, ⟨_, rfl⟩, rfl, rfl, rfl, rfl, rfl⟩

theorem witness_PlacedWordRunsNext : decodeTableWord 32 0x80000401 = some (.yccFwd 4) := by decide

theorem witness_EitherAgentMayMoveWhileBusy :
    (withEvent .reset running).block.busy = true ∧ (withEvent .reset running).queue = [.reset] := by decide

theorem witness_HostStepsBeforeTheEngineRunOut :
    running.block.busy = true ∧ agent (withEvent (rd .status) running) = .host (rd .status) ∧
    rd .status ≠ .reset ∧ ∃ t, step (withEvent (rd .status) running) = .next t :=
  ⟨rfl, rfl, by decide, _, rfl⟩

/-- A poll whose condition holds, and one whose condition does not. -/
theorem witness_PollReadsUntilTheConditionHolds :
    decode { dir := .read, width := 32, off := 0x04, data := 0 } = .ok .rdStatus ∧
    (readValue .rdStatus distinct).map (fun v => v &&& 0x2) = some 0x2 ∧
    (readValue .rdStatus running).map (fun v => v &&& 0x2) = some 0x0 := ⟨rfl, by decide, by decide⟩

theorem witness_RegistersAreLittleEndian : 0 < 4 ∧ 3 < 4 ∧ 0 < 8 ∧ 7 < 8 := by decide

theorem witness_WritesWhileBusyAreDropped : running.block.busy = true := rfl

theorem witness_CtrlWriteStoresAndStarts :
    idle.block.busy = false ∧ (0x7FFFFFFF : Word).getLsbD 31 = false ∧ (0x80000000 : Word).getLsbD 31 = true := by
  decide

theorem witness_StatusWriteClearsWhereOne : distinct.block.busy = false := rfl

theorem witness_OperandWritesStoreAndReadBack : idle.block.busy = false := rfl

theorem witness_ReservedBitsReadZeroAndIgnoreWrites :
    (∃ t, exec .rdCtrl running = .next t) ∧ ∃ t, exec .rdStatus running = .next t := ⟨⟨_, rfl⟩, ⟨_, rfl⟩⟩

theorem witness_CtrlReadsBackOpAndNch :
    idle.block.busy = false ∧ ∃ t u, exec (decodeCtrl 0x80000302) idle = .next t ∧ exec .rdCtrl t = .next u :=
  ⟨rfl, _, _, rfl, rfl⟩

theorem witness_TransactionsLeaveMemoryAlone : ∃ t, exec (.yccFwd 3) idle = .next t := ⟨_, rfl⟩

/-- The three ends of a START, by each of the three instructions. -/
theorem witness_StartEndsAtOnceOrBegins :
    validate (idleWith 0 0xFE 3 0 3 1).memSize
      (operands { (idleWith 0 0xFE 3 0 3 1).block with op := 1, nch := 3 }) = some .bounds ∧
    validate (idleWith 0 0 3 0 3 0).memSize
      (operands { (idleWith 0 0 3 0 3 0).block with op := 2, nch := 3 }) = none ∧
    (idleWith 0 0 3 0 3 0).block.count = 0 ∧
    validate idle.memSize (operands { idle.block with op := 1, nch := 3 }) = none ∧ idle.block.count ≠ 0 ∧
    idle.block.busy = false ∧ (0x80000301 : Word).getLsbD 31 = true ∧
    (0x80000301 : Word).extractLsb' 0 4 = 1 ∧ (0x80000301 : Word).extractLsb' 8 8 = 3 := by decide

/-- Every outcome of validation, at the ends of its range: the last byte just inside and just outside memory, the
intervals just apart and just touching, an empty command with operands that would not fit. -/
theorem witness_ValidationFollowsTheChecks :
    validate 0x100 { op := 0, nch := 0, src := 0, ss := 0, dst := 0, ds := 0, n := 0 } = some .op ∧
    validate 0x100 { op := 1, nch := 3, src := 0, ss := 2, dst := 0x80, ds := 3, n := 1 } = some .param ∧
    validate 0x100 { op := 1, nch := 3, src := 0xFE, ss := 3, dst := 0, ds := 3, n := 1 } = some .bounds ∧
    validate 0x100 { op := 1, nch := 3, src := 0xFD, ss := 3, dst := 0, ds := 3, n := 1 } = none ∧
    validate 0x100 { op := 1, nch := 3, src := 0, ss := 3, dst := 5, ds := 3, n := 2 } = some .overlap ∧
    validate 0x100 { op := 1, nch := 3, src := 0, ss := 3, dst := 6, ds := 3, n := 2 } = none ∧
    validate 0x100 { op := 2, nch := 1, src := 0x1000, ss := 1, dst := 0, ds := 1, n := 0 } = none ∧ 0x108 ≤ 0x108 := by
  decide

theorem witness_ErrorRecordsOnlyStatus :
    idle.block.busy = false ∧
    validate idle.memSize (operands { idle.block with op := 1, nch := 4 }) = some .param ∧
    (0x80000303 : Word).getLsbD 31 = true ∧
    validate idle.memSize (operands { idle.block with
      op := (0x80000303 : Word).extractLsb' 0 4, nch := (0x80000303 : Word).extractLsb' 8 8 }) = some .op := by decide

/-- With WIB clear and with WIB set, by a command and by a CTRL write with a reserved OP. -/
theorem witness_FailedCommandStatusWord :
    (idle.block.busy = false ∧ ∃ t, exec (.yccFwd 4) idle = .next t ∧ t.block.err = true ∧ idle.block.wib = false) ∧
    (distinct.block.busy = false ∧ (0x80000000 : Word).getLsbD 31 = true ∧
      ∃ t, exec (.wrCtrl 0x80000000) distinct = .next t ∧ t.block.err = true ∧ distinct.block.wib = true) :=
  ⟨⟨rfl, _, rfl, rfl, rfl⟩, ⟨rfl, by decide, _, rfl, rfl, rfl⟩⟩

/-- NCH at the stride, NCH above a stride, NCH = 0; a reserved OP; and the example's block. -/
theorem witness_EmptyCommandEndsAtOnce :
    (idleWith 0 0 3 0 3 0).block.count = 0 ∧ (idleWith 0 0 3 0 3 0).block.busy = false ∧
    ((3 : Byte) ≠ 0 ∧ (3 : Byte).toNat ≤ (idleWith 0 0 3 0 3 0).block.sstride.toNat) ∧
    ¬((4 : Byte).toNat ≤ (idleWith 0 0 3 0 3 0).block.sstride.toNat) ∧
    (0x80000303 : Word).extractLsb' 0 4 ≠ 1#4 ∧ (0x80000303 : Word).extractLsb' 0 4 ≠ 2#4 ∧
    (machine { Block.reset with sstride := 3, dstride := 3 }).block =
      { Block.reset with sstride := 3, dstride := 3 } := by decide

theorem witness_StartAfterResetIsAnError :
    State.reset.block = Block.reset ∧ (0x80000000 : Word).getLsbD 31 = true ∧ (0x80000301 : Word).getLsbD 31 = true ∧
    (0x80000301 : Word).extractLsb' 0 4 = 1#4 := ⟨rfl, by decide, by decide, by decide⟩

theorem witness_StartForgetsTheLastOutcome :
    distinct.block.busy = false ∧ Instr.yccInv 3 ∈ [Instr.yccFwd 3, .yccInv 3] ∧
    ∃ t, exec (.yccInv 3) distinct = .next t := ⟨rfl, by decide, _, rfl⟩

theorem witness_ForwardTransform : 3 ≤ 3 ∧ 3 ≤ 255 := by decide

theorem witness_InverseTransform : 3 ≤ 3 ∧ 3 ≤ 255 := by decide

theorem witness_HigherChannelsPassThrough :
    ((2 : BitVec 4) = 1 ∨ (2 : BitVec 4) = 2) ∧ ([64, 128, 255, 7, 200] : List Byte).length = 5 ∧ 3 ≤ 3 ∧ 3 < 5 := by
  decide

theorem witness_FewChannelsPassThrough :
    ([77] : List Byte).length = 1 ∧ ([255, 0] : List Byte).length = 2 := by decide

/-- A channel above the first three, and one of the first three, with the other side different. -/
theorem witness_LanesDependAsStated :
    ([1, 2, 3, 4] : List Byte).length = 4 ∧ ([9, 8, 7, 4] : List Byte).length = 4 ∧
    ([1, 2, 3, 4] : List Byte)[3]? = ([9, 8, 7, 4] : List Byte)[3]? ∧
    ([1, 2, 3, 4] : List Byte).take 3 = ([1, 2, 3, 9] : List Byte).take 3 := by decide

/-- The first pixel and the last. -/
theorem witness_EngineStepTransformsOnePixel :
    (running.block.busy = true ∧ (currentWindow running).raced = [] ∧ (currentWindow running).fed = [] ∧ ∀ j, j < 3 →
      srcAddr (operands running.block) 0 j < running.memSize ∧ dstAddr (operands running.block) 0 j < running.memSize ∧
      (Memory.read running.mem (srcAddr (operands running.block) 0 j)).isSome) ∧
    (lastPixel.block.busy = true ∧ (currentWindow lastPixel).raced = [] ∧ (currentWindow lastPixel).fed = [] ∧ ∀ j, j < 3 →
      srcAddr (operands lastPixel.block) 1 j < lastPixel.memSize ∧
      dstAddr (operands lastPixel.block) 1 j < lastPixel.memSize ∧
      (Memory.read lastPixel.mem (srcAddr (operands lastPixel.block) 1 j)).isSome) := by decide

/-- With every source byte written, and without. -/
theorem witness_EngineStepNeverFaults :
    Inv running ∧ running.block.busy = true ∧
    (∀ j, j < 3 → (engineSees running (srcAddr (operands running.block) 0 j)).isSome) ∧
    Inv { running with mem := [] } ∧
    engineSees { running with mem := [] } (srcAddr (operands running.block) 0 0) = none :=
  ⟨inv_running, rfl, by decide,
    ⟨rfl, by simp, inv_running.block, inv_running.windows, inv_running.current⟩, rfl⟩

theorem witness_PixelValuesSetNoFlag :
    (∃ t, engineStep running = .next t) ∧
    ∃ u, engineStep { running with mem := [(0, 1), (1, 2), (2, 3)] } = .next u := ⟨⟨_, rfl⟩, ⟨_, rfl⟩⟩

theorem witness_CommandEndState :
    Inv idle ∧ idle.block.busy = false ∧ idle.queue = [] ∧
    Accepted idle.memSize (operands { idle.block with op := 2, nch := 3 }) ∧
    ∀ k, k < 2 → ∀ j, j < 3 →
      (Memory.read idle.mem (srcAddr (operands { idle.block with op := 2, nch := 3 }) k j)).isSome :=
  ⟨inv_idle, rfl, rfl, ⟨by decide, by decide⟩, by decide⟩

theorem underway_running : Underway running.mem (operands blk) running :=
  ⟨inv_running, rfl, rfl, ⟨[], rfl⟩, fun _ _ h => absurd h (Nat.not_lt_zero _), fun _ _ _ => rfl⟩

/-- An engine step, a transaction, and a host write outside the buffers (0x0C is just past the destination). -/
theorem witness_CommandProgressUnderInterleaving :
    Underway running.mem (operands blk) running ∧ (∃ t, step running = .next t) ∧ agent running ≠ .host .reset ∧
    (∃ t, step (withEvent (rd .status) running) = .next t) ∧
    (∃ t, step (withEvent (.memWrite 0x0C 7) running) = .next t) ∧
    agent (withEvent (.memWrite 0x0C 7) running) = .host (.memWrite 0x0C 7) ∧
    ∀ w ∈ running.windows, ¬InBuffers w.ops 0x0C := by
  refine ⟨underway_running, ⟨_, rfl⟩, by decide, ⟨_, rfl⟩, ⟨_, rfl⟩, rfl, ?_⟩
  unfold InBuffers
  decide

/-- Two instances in place, on adjacent ranges. -/
def inPlaceAt (a : Word) : Block := { blk with busy := true, src := a, dst := a, count := 1 }

theorem inv_inPlaceAt_0 : Block.Inv 0x100 (inPlaceAt 0) :=
  ⟨by decide, by decide, by decide, fun _ => ⟨rfl, ⟨by decide, by decide⟩, by decide⟩⟩

theorem inv_inPlaceAt_3 : Block.Inv 0x100 (inPlaceAt 3) :=
  ⟨by decide, by decide, by decide, fun _ => ⟨rfl, ⟨by decide, by decide⟩, by decide⟩⟩

theorem witness_InstancesOnDisjointRangesCommute :
    Block.Inv idle.memSize (inPlaceAt 0) ∧ Block.Inv idle.memSize (inPlaceAt 3) ∧
    (inPlaceAt 0).busy = true ∧ (inPlaceAt 3).busy = true ∧
    (dstEnd (operands (inPlaceAt 0)) < (operands (inPlaceAt 3)).src ∧
      dstEnd (operands (inPlaceAt 0)) < (operands (inPlaceAt 3)).dst ∧
      srcEnd (operands (inPlaceAt 0)) < (operands (inPlaceAt 3)).dst) ∧
    ∃ t1 t2, engineStep (idle.asInstance (inPlaceAt 0)) = .next t1 ∧
      engineStep (t1.asInstance (inPlaceAt 3)) = .next t2 :=
  ⟨inv_inPlaceAt_0, inv_inPlaceAt_3, rfl, rfl, by decide, _, _, rfl, rfl⟩

theorem witness_StepKeepsTheInvariant :
    Inv running ∧ (∃ t, step running = .next t) ∧ Inv (withEvent .reset running) ∧
    ∃ t, step (withEvent .reset running) = .next t := ⟨inv_running, ⟨_, rfl⟩, inv_withEvent inv_running _, ⟨_, rfl⟩⟩

/-- A fault at the first address that does not exist, and both refusals. -/
theorem witness_StepStopsOnlyWhereNamed :
    Inv (withEvent (.memRead 0x100) idle) ∧ step (withEvent (.memRead 0x100) idle) = .fault .addressOutsideMemory ∧
    (∃ x, step (withEvent (.access { dir := .read, width := 8, off := 0, data := 0 }) idle) =
      .refused (.unsupportedAccess x)) ∧
    Inv { running with mem := [] } ∧ step { running with mem := [] } = .refused .sourceByteNeverWritten :=
  ⟨inv_withEvent inv_idle _, rfl, ⟨.width, rfl⟩,
    ⟨rfl, by simp, inv_running.block, inv_running.windows, inv_running.current⟩, rfl⟩

theorem witness_OperandsAreStableWhileBusy :
    running.block.busy = true ∧ (∃ t, step (withEvent (wr .src 9) running) = .next t) ∧
    agent (withEvent (wr .src 9) running) ≠ .host .reset := ⟨rfl, ⟨_, rfl⟩, by decide⟩

/-- By the last pixel, and by a reset. -/
theorem witness_BusyEndsWithTheLastPixelOrReset :
    lastPixel.block.busy = true ∧ (∃ t, step lastPixel = .next t ∧ t.block.busy = false) ∧
    ∃ t, step (withEvent .reset running) = .next t ∧ t.block.busy = false := ⟨rfl, ⟨_, rfl, rfl⟩, ⟨_, rfl, rfl⟩⟩

theorem witness_BusyBeginsOnlyWithAnAcceptedStart :
    idle.block.busy = false ∧ ∃ t, step (withEvent (wr .ctrl 0x80000301) idle) = .next t ∧ t.block.busy = true :=
  ⟨rfl, _, rfl, rfl⟩

/-- WIB falling by the STATUS write and by a reset, rising by a dropped write, and a write while BUSY (offset 0x18 is
the last that sets it). -/
theorem witness_WibIsStickyUntilClearedOrReset :
    (∃ t, step (withEvent (wr .status 0x8) distinct) = .next t ∧ distinct.block.wib = true ∧ t.block.wib = false) ∧
    (∃ t, step (withEvent .reset distinct) = .next t ∧ t.block.wib = false) ∧
    (∃ t, step (withEvent (wr .count 5) running) = .next t ∧ running.block.wib = false ∧ t.block.wib = true) ∧
    agent (withEvent (wr .count 5) running) = .host (.access (writeAccess .count 5)) ∧
    (writeAccess .count 5).off ≠ 0x1C :=
  ⟨⟨_, rfl, rfl, rfl⟩, ⟨_, rfl, rfl⟩, ⟨_, rfl, rfl, rfl⟩, rfl, by decide⟩

/-- By the engine, and by a host write outside the buffers. -/
theorem witness_MemoryChangesOnlyWhereNamed :
    Inv running ∧ (∃ t, step running = .next t ∧ Memory.read t.mem 6 ≠ Memory.read running.mem 6) ∧
    Inv (withEvent (.memWrite 0xFF 7) running) ∧
    ∃ t, step (withEvent (.memWrite 0xFF 7) running) = .next t ∧
      Memory.read t.mem 0xFF ≠ Memory.read running.mem 0xFF :=
  ⟨inv_running, ⟨_, rfl, by decide⟩, inv_withEvent inv_running _, ⟨_, rfl, by decide⟩⟩

theorem witness_CanonicalMemoriesAreEqualData :
    Memory.wf [(1, 7), (4, 9)] = true ∧ Memory.wf (Memory.write (Memory.write [] 4 9) 1 7) = true := by decide

/-- The last address, while a command runs. -/
theorem witness_HostWriteThenReadReturnsTheByte :
    Inv running ∧ 0xFF < running.memSize ∧ ∀ w ∈ running.windows, ¬InBuffers w.ops 0xFF := by
  refine ⟨inv_running, by decide, ?_⟩
  unfold InBuffers
  decide

/-- A write to a destination byte before the engine has processed any pixel, of a byte nothing has written and of one
that has a value; and a write to a source byte of a pixel that is not processed yet, and of one that is, of the running
command and of an older one, with a pixel to compute and without. -/
theorem witness_RacingWriteOpensOnlyDestinationBytes :
    (Inv running ∧ running.windows = [window] ∧ touches window.ops 6 = true ∧ (∃ t, hostMemWrite 6 7 running = .next t) ∧
      srcPixelOf window.ops 6 = none ∧ isDstByte window.ops 6 = true ∧ Memory.read running.mem 6 = none) ∧
    Memory.read overwriting.mem 6 = some 64 ∧ Inv overwriting ∧
    (Inv lastPixel ∧ lastPixel.windows = [] ++ window :: [] ∧ (∃ t, hostMemWrite 0 7 lastPixel = .next t) ∧
      srcPixelOf window.ops 0 = some 0 ∧ isDstByte window.ops 0 = false ∧ 0 < lastPixel.block.k ∧
      ∃ q, newPixel 1 { window with raced := [(0, 7)] } 0 = some q) ∧
    (Inv (chained 0x40 1) ∧ (chained 0x40 1).windows = [secondWindow 0x40] ++ window :: [] ∧
      (∃ t, hostMemWrite 0 7 (chained 0x40 1) = .next t) ∧ isSrcByte (secondWindow 0x40).ops 0 = false ∧
      ∀ j, j < 3 → isSrcByte (secondWindow 0x40).ops (dstAddr window.ops 0 j) = false) ∧
    ((∃ t, hostMemWrite 0 7 running = .next t) ∧ running.block.busy = true ∧ running.block.k ≤ 0) ∧
    newPixel 1 { window with before := [], raced := [(0, 7)] } 0 = none :=
  ⟨⟨inv_running, rfl, rfl, ⟨_, rfl⟩, rfl, rfl, rfl⟩, rfl, inv_overwriting,
    ⟨inv_lastPixel, rfl, ⟨_, rfl⟩, rfl, rfl, by decide, _, rfl⟩,
    ⟨inv_chained 0x40 1 ⟨by decide, by decide⟩ (by decide), rfl, ⟨_, rfl⟩, rfl, by decide⟩,
    ⟨⟨_, rfl⟩, rfl, by decide⟩, rfl⟩

/-- A write to a source byte of X13 while a second command runs that takes its pixels from X13's destination: one that feeds
the pixel it has processed, one that feeds the pixel it has not, and one that feeds none. -/
theorem witness_RaceReachesNewerCommands :
    (Inv (chained 6 1) ∧ (chained 6 1).windows = secondWindow 6 :: window :: [] ∧
      (∀ x ∈ [secondWindow 6], isSrcByte x.ops 0 = false) ∧ srcPixelOf window.ops 0 = some 0 ∧
      (∃ t, hostMemWrite 0 7 (chained 6 1) = .next t) ∧
      ∃ q, newPixel 1 { window with raced := [(0, 7)] } 0 = some q ∧
        (∀ j, j < 3 → srcPixelOf (secondWindow 6).ops (dstAddr window.ops 0 j) = some 0) ∧ 0 < (chained 6 1).block.k ∧
        ∃ q', newPixel 3 { secondWindow 6 with
          fed := (cellsFrom (dstAddr window.ops 0 0) q).filter fun c => isSrcByte (secondWindow 6).ops c.1 } 0 = some q') ∧
    (srcPixelOf window.ops 3 = some 1 ∧ isSrcByte (secondWindow 6).ops 3 = false ∧
      (∃ t, hostMemWrite 3 7 (chained 6 1) = .next t) ∧
      (∃ q, newPixel 1 { window with raced := [(3, 7)] } 1 = some q) ∧
      (∀ j, j < 3 → srcPixelOf (secondWindow 6).ops (dstAddr window.ops 1 j) = some 1) ∧
      (chained 6 1).block.busy = true ∧ (chained 6 1).block.k ≤ 1) ∧
    (Inv (chained 0x40 1) ∧ (∃ t, hostMemWrite 0 7 (chained 0x40 1) = .next t) ∧
      ∀ j, j < 3 → isSrcByte (secondWindow 0x40).ops (dstAddr window.ops 0 j) = false) :=
  ⟨⟨inv_chained 6 1 ⟨by decide, by decide⟩ (by decide), rfl, by decide, rfl, ⟨_, rfl⟩, _, rfl, by decide, by decide, _, rfl⟩,
    ⟨rfl, rfl, ⟨_, rfl⟩, ⟨_, rfl⟩, by decide, rfl, by decide⟩,
    inv_chained 0x40 1 ⟨by decide, by decide⟩ (by decide), ⟨_, rfl⟩, by decide⟩

/-- A source byte that a racing write has touched, one that an older command's recomputed pixel has, and one that no race
has; a destination byte that a racing write has touched, and one that none has; and the finds of a pixel in either case. -/
theorem witness_EngineRaceTakesOldOrNewBytes :
    ((currentWindow (raced 0 7)).finds 0 = [7] ∧ Memory.read (currentWindow (raced 0 7)).before 0 = some 255 ∧
      ({ window with fed := [(0, 9)] } : Window).finds 0 = [9] ∧ (currentWindow (raced 0 7)).finds 1 = [] ∧
      (currentWindow (raced 6 9)).racing 6 = [9] ∧ (currentWindow (raced 6 9)).racing 7 = []) ∧
    (Inv (raced 6 9) ∧ (raced 6 9).block.busy = true ∧
      ∀ j, j < 3 → engineSees (raced 6 9) (srcAddr (operands (raced 6 9).block) 0 j) = ([255, 0, 0] : List Byte)[j]?) ∧
    (Inv (raced 0 7) ∧ (engineSees (raced 0 7) 0).isSome) :=
  ⟨by decide, ⟨inv_raced 6 9, rfl, by decide⟩, inv_raced 0 7, rfl⟩

/-- In place (95_test_vectors.md F4): the old byte of channel 0 is 255, the new one 64; before the engine's step the
old one stands in memory. -/
theorem witness_RacingReadReturnsOldOrNewByte :
    Inv runningInPlace ∧ runningInPlace.windows = [] ++ inPlaceWindow :: [] ∧
    0 < inPlaceWindow.ops.n ∧ 0 < inPlaceWindow.ops.nch ∧
    (∀ i, i < 3 → inPlaceWindow.finds (srcAddr inPlaceWindow.ops 0 i) = [] ∧
      (Memory.read inPlaceWindow.before (srcAddr inPlaceWindow.ops 0 i)).isSome) ∧
    Memory.read inPlaceWindow.before (dstAddr inPlaceWindow.ops 0 0) = some 255 ∧
    (pix inPlaceWindow.ops.op inPlaceWindow.ops.nch (sourcePixel inPlaceWindow.before inPlaceWindow.ops 0))[0]? =
      some 64 ∧
    Memory.read runningInPlace.mem (dstAddr inPlaceWindow.ops 0 0) = some 255 :=
  ⟨inv_runningInPlace, rfl, by decide, by decide, by decide, rfl, by decide, rfl⟩

/-- The acquire point; and the reads that are none: DONE = 0, ERR = 1, and DONE = 1 of a START that was not accepted. -/
theorem witness_StatusReadWithDoneIsTheAcquirePoint :
    (∃ t, exec .rdStatus (ended false true) = .next t ∧ t.rdata.getLsbD 1 = true ∧ t.rdata.getLsbD 2 = false ∧
      (ended false true).awaited = true ∧ 5 < (ended false true).memSize ∧
      Memory.read (ended false true).mem 5 = some 255) ∧
    (∃ t, exec .rdStatus running = .next t ∧ t.rdata.getLsbD 1 = false) ∧
    (∃ t, exec .rdStatus (ended true true) = .next t ∧ t.rdata.getLsbD 2 = true) ∧
    (ended false false).awaited = false :=
  ⟨⟨_, rfl, by decide, by decide, rfl, by decide, by decide⟩, ⟨_, rfl, by decide⟩, ⟨_, rfl, by decide⟩, rfl⟩

/-- A reset while BUSY, with a byte of the abandoned command's destination and the byte next to it. -/
theorem witness_PlatformResetRestoresTheBlock :
    Inv (withEvent .reset running) ∧ (withEvent .reset running).queue = .reset :: [] ∧
    running.block.busy = true ∧ hostBudget (withEvent .reset running) ≠ 0 ∧
    isDstByte (operands running.block) 12 = false ∧ isDstByte (operands running.block) 11 = true :=
  ⟨inv_withEvent inv_running _, rfl, rfl, by decide, by decide, by decide⟩

end Sys2Proof.Tests
end

section
/-! The host's step: which event it takes, and the state its effect starts from (00_scope.md R12,
70_reset_and_hazards.md R190). -/

namespace Sys2Proof.Machine

/-- The next event moves when no engine step stands before it. -/
theorem agent_of_queue_cons {s : State} {e : Event} {rest : List Event} (hq : s.queue = e :: rest)
    (hbudget : s.block.busy = true → hostBudget s ≠ 0) : agent s = .host e := by
  obtain ⟨-, -, hnil⟩ | ⟨-, hbusy, hnil | hzero⟩ | ⟨e', rest', hagent, hq', -⟩ := agent_cases s
  · cases hq.symm.trans hnil
  · cases hq.symm.trans hnil
  · exact absurd hzero (hbudget hbusy)
  · obtain ⟨rfl, rfl⟩ := List.cons.inj (hq.symm.trans hq')
    exact hagent

theorem step_of_agent_host {s : State} {e : Event} (h : agent s = .host e) :
    step s = hostTurn e (takeEvent s) := by
  simp only [step, h]

theorem step_of_queue_cons {s : State} {e : Event} {rest : List Event} (hq : s.queue = e :: rest)
    (hbudget : s.block.busy = true → hostBudget s ≠ 0) : step s = hostTurn e (takeEvent s) :=
  step_of_agent_host (agent_of_queue_cons hq hbudget)

theorem takeEvent_of_queue_cons {s : State} {e : Event} {rest : List Event} (hq : s.queue = e :: rest) :
    takeEvent s = { s with
      queue := rest, pace := if s.block.busy then (hostBudget s - 1) :: s.pace.tail else s.pace } := by
  simp only [takeEvent, hq, List.tail_cons]

theorem hostTurn_access_of_decode {a : Access} {i : Instr} (h : decode a = .ok i) (s : State) :
    hostTurn (.access a) s = exec i s := by
  simp only [hostTurn, transact, h]

/-- Settles O7: the next event is the one that moves, and `takeEvent` is the state it starts from; what is left is
`hostTurn` event by event. -/
theorem stepRunsDecodedAccess : Obligations.StepRunsDecodedAccess := by
  intro s e rest hq hbudget u
  have hstep : step s = hostTurn e u :=
    (step_of_queue_cons hq hbudget).trans (congrArg (hostTurn e) (takeEvent_of_queue_cons hq))
  refine ⟨hstep, ?access, ?poll, ?memWrite, ?memRead, ?reset⟩
  case access =>
    rintro a i rfl hdecode
    exact hstep.trans (hostTurn_access_of_decode hdecode u)
  case poll =>
    rintro off mask value rfl
    exact hstep
  case memWrite =>
    rintro a v rfl
    exact hstep
  case memRead =>
    rintro a rfl
    exact hstep
  case reset =>
    rintro rfl
    exact hstep

end Sys2Proof.Machine
end

section
/-! Placing a word of the opcode table (30_encoding.md R82): the placed access is taken next, and taking it leaves the
state as it was but for the count of host steps while BUSY. -/

namespace Sys2Proof.Machine

theorem placeAccess_queue (a : Access) (s : State) : (placeAccess a s).queue = .access a :: s.queue := rfl

theorem hostBudget_placeAccess_of_busy (a : Access) {s : State} (h : s.block.busy = true) :
    hostBudget (placeAccess a s) = hostBudget s + 1 := by
  simp only [hostBudget, placeAccess, h, if_true]

theorem takeEvent_placeAccess (a : Access) (s : State) :
    takeEvent (placeAccess a s) =
      { s with pace := if s.block.busy then hostBudget s :: s.pace.tail else s.pace } := by
  rw [takeEvent_of_queue_cons (placeAccess_queue a s)]
  cases hbusy : s.block.busy with
  | false => simp [placeAccess, hbusy]
  | true =>
    rw [hostBudget_placeAccess_of_busy a hbusy]
    simp [placeAccess, hbusy]

theorem step_placeAccess (a : Access) (s : State) :
    step (placeAccess a s) =
      hostTurn (.access a) { s with pace := if s.block.busy then hostBudget s :: s.pace.tail else s.pace } := by
  have hbudget : (placeAccess a s).block.busy = true → hostBudget (placeAccess a s) ≠ 0 := fun hbusy =>
    (hostBudget_placeAccess_of_busy a (s := s) hbusy).trans_ne (Nat.succ_ne_zero _)
  rw [step_of_queue_cons (placeAccess_queue a s) hbudget, takeEvent_placeAccess]

theorem decodeTableWord_eq_some {nbits w : Nat} {i : Instr} :
    decodeTableWord nbits w = some i ↔ decode (tableAccess nbits w) = .ok i := by
  unfold decodeTableWord
  cases decode (tableAccess nbits w) <;> simp [Except.toOption]

/-- Settles O9: the placed access is the next event, and it decodes to the instruction of the table word. -/
theorem placedWordRunsNext : Obligations.PlacedWordRunsNext := by
  intro s nbits w i hword
  have hdecode : decode (tableAccess nbits w) = .ok i := decodeTableWord_eq_some.mp hword
  exact (step_placeAccess (tableAccess nbits w) s).trans (hostTurn_access_of_decode hdecode _)

end Sys2Proof.Machine
end

section
/-! What a step leaves alone in every state, the invariant or not: a racing write reaches no register, and no agent
reaches MEM_SIZE or REG_BASE (00_scope.md R5). -/

namespace Sys2Proof.Machine

theorem recompute_frame (w : Window) (r : Spread) (k : Nat) :
    (recompute w r k).state =
      { r.state with mem := (recompute w r k).state.mem, draws := (recompute w r k).state.draws } := by
  unfold recompute
  split <;> rfl

theorem recompute_foldl_frame (w : Window) (ks : List Nat) (r : Spread) :
    (ks.foldl (recompute w) r).state =
      { r.state with mem := (ks.foldl (recompute w) r).state.mem
                     draws := (ks.foldl (recompute w) r).state.draws } := by
  induction ks generalizing r with
  | nil => rfl
  | cons k ks ih =>
    rw [List.foldl_cons, ih, recompute_frame]

theorem spread_frame (a : Nat) (s : State) (ps : List (Window × Nat)) :
    (spread a s ps).state = { s with mem := (spread a s ps).state.mem, draws := (spread a s ps).state.draws } := by
  induction ps with
  | nil => rfl
  | cons p older ih =>
    simp only [spread]
    rw [recompute_foldl_frame, ih]

/-- `hostMemWrite_next` without its hypothesis that the open commands were accepted. -/
theorem hostMemWrite_frame {s t : State} {a : Nat} {v : Byte} (h : hostMemWrite a v s = .next t) :
    t = { s with mem := t.mem, draws := t.draws, windows := t.windows } := by
  unfold hostMemWrite at h
  split_ifs at h
  · cases h
    rw [spread_frame]
    rfl
  · cases h
    rfl

theorem exec_parameters {i : Instr} {s t : State} (h : exec i s = .next t) :
    t.memTop = s.memTop ∧ t.regBase = s.regBase := by
  rcases exec_cases h with ⟨_, rfl | ⟨rfl, -⟩⟩ | ⟨rfl, -⟩ | rfl | ⟨-, _, rfl⟩ | ⟨-, _, _, _, _, _, rfl⟩ |
    ⟨-, op, nch, rfl | rfl⟩
  case inr.inr.inr.inr.inr.inr =>
    rw [startCommand_eq]
    exact ⟨rfl, rfl⟩
  all_goals exact ⟨rfl, rfl⟩

theorem step_parameters {s t : State} (h : step s = .next t) : t.memTop = s.memTop ∧ t.regBase = s.regBase := by
  rcases step_cases h with ⟨-, rfl⟩ | ⟨-, -, u, hu, rfl⟩ | ⟨_, _, -, -, hx⟩ | ⟨_, _, _, _, u, -, -, hx, rfl | rfl⟩ |
    ⟨_, _, -, hw⟩ | ⟨_, -, hr⟩ | ⟨-, rfl⟩
  · exact ⟨rfl, rfl⟩
  · rw [engineStep_frame hu]
    exact ⟨rfl, rfl⟩
  · exact exec_parameters (s := takeEvent s) hx
  · exact exec_parameters (s := takeEvent s) hx
  · exact exec_parameters (s := takeEvent s) (t := u) hx
  · rw [hostMemWrite_frame hw]
    exact ⟨rfl, rfl⟩
  · rw [(hostMemRead_next hr).2.1]
    exact ⟨rfl, rfl⟩
  · rw [(platformReset_eq _).1]
    exact ⟨rfl, rfl⟩

end Sys2Proof.Machine
end

section
/-! What keeps the block's invariant (10_state.md R24, R25, R33). -/

namespace Sys2Proof.Machine

/-- While idle only the agreement of ERR with ERRCODE is left of the block's invariant. -/
theorem Block.Inv.of_idle {memSize : Nat} {b : Block} (hidle : b.busy = false)
    (hno : b.err = false → b.errcode = 0) (hcode : b.err = true → 1 ≤ b.errcode.toNat ∧ b.errcode.toNat ≤ 4) :
    Block.Inv memSize b where
  notBoth h := by simp [hidle] at h
  noCode := hno
  code := hcode
  running h := by simp [hidle] at h

theorem errBits_bounds (e : ErrCode) : 1 ≤ (errBits e).toNat ∧ (errBits e).toNat ≤ 4 := by
  cases e <;> decide

theorem Block.Inv.reset (memSize : Nat) : Block.Inv memSize Block.reset :=
  .of_idle rfl (fun _ => rfl) nofun

theorem Block.Inv.withWib {memSize : Nat} {b : Block} (h : Block.Inv memSize b) : Block.Inv memSize b.withWib :=
  ⟨h.notBoth, h.noCode, h.code, h.running⟩

/-- The bits a STATUS write leaves, each by itself (42_host_access.md R146). -/
theorem clearStatus_eq (v : Word) (b : Block) :
    clearStatus v b = { b with
      done := if v.getLsbD 1 then false else b.done
      err := if v.getLsbD 2 then false else b.err
      errcode := if v.getLsbD 2 then 0 else b.errcode
      wib := if v.getLsbD 3 then false else b.wib } := by
  unfold clearStatus clearError
  cases v.getLsbD 1 <;> cases v.getLsbD 2 <;> cases v.getLsbD 3 <;> rfl

theorem Block.Inv.clearStatus {memSize : Nat} {b : Block} (h : Block.Inv memSize b) (hidle : b.busy = false)
    (v : Word) : Block.Inv memSize (clearStatus v b) := by
  rw [clearStatus_eq]
  cases hv : v.getLsbD 2 with
  | true => exact .of_idle hidle (by simp) (by simp)
  | false => exact .of_idle hidle (by simpa using h.noCode) (by simpa using h.code)

theorem Block.Inv.raiseError (memSize : Nat) {b : Block} (hidle : b.busy = false) (e : ErrCode) :
    Block.Inv memSize (raiseError e b) :=
  .of_idle hidle nofun fun _ => errBits_bounds e

theorem Block.Inv.endEmpty (memSize : Nat) {b : Block} (hidle : b.busy = false) :
    Block.Inv memSize (endEmpty b.clearOutcome) :=
  .of_idle hidle (fun _ => rfl) nofun

theorem Block.Inv.beginBusy {memSize : Nat} {b : Block} (hacc : Accepted memSize (operands b)) :
    Block.Inv memSize (beginBusy b.clearOutcome) where
  notBoth h := nomatch h.2
  noCode _ := rfl
  code := nofun
  running _ := ⟨rfl, hacc, hacc.2⟩

/-- The last pixel leaves the block idle; any other leaves a pixel to go. -/
theorem Block.Inv.endPixel {memSize : Nat} {b : Block} (h : Block.Inv memSize b) (hbusy : b.busy = true) :
    Block.Inv memSize (endPixel b) := by
  obtain ⟨herr, hacc, hk⟩ := h.running hbusy
  unfold Machine.endPixel
  split
  · exact .of_idle rfl h.noCode h.code
  · exact ⟨h.notBoth, h.noCode, h.code, fun _ => ⟨herr, hacc, by dsimp only; omega⟩⟩

end Sys2Proof.Machine
end

section
/-! What keeps the machine's invariant: one lemma per operation, then the step. -/

namespace Sys2Proof.Machine

/-- Settles O45. -/
theorem resetMeetsTheInvariant : Obligations.ResetMeetsTheInvariant where
  wf := rfl
  inside := nofun
  block := .reset _
  windows := nofun
  current := nofun

/-- Another block may take the place of one whose command it does not replace. -/
theorem Inv.withBlock {s : State} (h : Inv s) {b : Block} (hb : Block.Inv s.memSize b)
    (hcurrent : b.busy = true → s.block.busy = true ∧ operands b = operands s.block) : Inv (s.withBlock b) where
  wf := h.wf
  inside := h.inside
  block := hb
  windows := h.windows
  current hbusy := by
    obtain ⟨hwas, hops⟩ := hcurrent hbusy
    simpa [hops] using h.current hwas

theorem Inv.withBlock_idle {s : State} (h : Inv s) {b : Block} (hb : Block.Inv s.memSize b) (hidle : b.busy = false) :
    Inv (s.withBlock b) :=
  h.withBlock hb fun hbusy => by simp [hidle] at hbusy

theorem Inv.withMem {s : State} (h : Inv s) {m : Memory} (hwf : Memory.wf m = true)
    (hinside : ∀ c ∈ m, c.1 < s.memSize) : Inv (s.withMem m) :=
  ⟨hwf, hinside, h.block, h.windows, h.current⟩

theorem Inv.freeBytes {s : State} (h : Inv s) {as : List Nat} (has : ∀ a ∈ as, a < s.memSize) :
    Inv (freeBytes s as) := by
  rw [freeBytes_eq]
  exact (h.withMem (freeBytes_wf s as h.wf) (freeBytes_inside s as h.inside has)).congr rfl rfl rfl rfl rfl

/-- While idle the hazard record may be any windows of accepted commands. -/
theorem Inv.withWindows_idle {s : State} (h : Inv s) (hidle : s.block.busy = false) {ws : List Window}
    (hws : ∀ w ∈ ws, Accepted s.memSize w.ops ∧ Memory.wf w.before = true) (aw : Bool) :
    Inv { s with windows := ws, awaited := aw } :=
  ⟨h.wf, h.inside, h.block, hws, fun hbusy => by simp [hidle] at hbusy⟩

theorem Inv.storeCtrl {s : State} (h : Inv s) (hidle : s.block.busy = false) (op : BitVec 4) (nch : Byte) :
    Inv (storeCtrl op nch s) :=
  h.withBlock_idle (.of_idle hidle h.block.noCode h.block.code) hidle

/-- The three ends of a START: an error or an empty command leaves the block idle, an accepted one opens its own
window. -/
theorem Inv.startCommand {s : State} (h : Inv s) (hidle : s.block.busy = false) : Inv (startCommand s) := by
  rcases startCommand_cases s with ⟨e, -, heq⟩ | ⟨-, -, heq⟩ | ⟨hacc, heq⟩ <;> rw [heq]
  · exact (h.withBlock_idle (.raiseError _ hidle e) hidle).withWindows_idle hidle h.windows false
  · exact (h.withBlock_idle (.endEmpty _ hidle) hidle).withWindows_idle hidle h.windows false
  · exact ⟨h.wf, h.inside, .beginBusy hacc, List.forall_mem_cons.2 ⟨⟨hacc, h.wf⟩, h.windows⟩,
      fun _ => ⟨rfl, _, _, rfl, rfl⟩⟩

theorem exec_keeps_inv {i : Instr} {s t : State} (hi : Inv s) (h : exec i s = .next t) : Inv t := by
  rcases exec_cases h with ⟨_, rfl | ⟨rfl, hdone, -⟩⟩ | ⟨rfl, -⟩ | rfl | ⟨hidle, _, rfl⟩ |
    ⟨hidle, _, _, _, _, _, rfl⟩ | ⟨hidle, op, nch, rfl | rfl⟩
  case inl.inl => exact hi.congr rfl rfl rfl rfl rfl
  case inl.inr v =>
    have hidle : s.block.busy = false := Bool.eq_false_iff.2 fun hbusy => hi.block.notBoth ⟨hbusy, hdone⟩
    exact (hi.congr (t := s.withRdata v) rfl rfl rfl rfl rfl).withWindows_idle hidle (List.forall_mem_nil _) false
  · exact hi.withBlock hi.block.withWib fun hbusy => ⟨hbusy, rfl⟩
  · exact hi
  · exact hi.withBlock_idle (hi.block.clearStatus hidle _) (by rw [clearStatus_eq]; exact hidle)
  · exact hi.withBlock_idle (.of_idle hidle hi.block.noCode hi.block.code) hidle
  · exact hi.storeCtrl hidle op nch
  · exact (hi.storeCtrl hidle op nch).startCommand hidle

/-- A running command's pixel lies inside MEM_SIZE (41_commands.md R124, 60_exceptions.md R164). -/
theorem Inv.pixel_inside {s : State} (hi : Inv s) (hbusy : s.block.busy = true) {j : Nat}
    (hj : j < (operands s.block).nch) :
    srcAddr (operands s.block) s.block.k j < s.memSize ∧ dstAddr (operands s.block) s.block.k j < s.memSize := by
  obtain ⟨-, hacc, hk⟩ := hi.block.running hbusy
  obtain ⟨-, -, -, -, -, hsrc, hdst, -⟩ := hacc.checked
  exact ⟨(srcAddr_le _ hk hj).trans_lt hsrc, (dstAddr_le _ hk hj).trans_lt hdst⟩

theorem engineStep_keeps_inv {s t : State} (hi : Inv s) (hbusy : s.block.busy = true) (h : engineStep s = .next t) :
    Inv t := by
  obtain ⟨hnext, hrefuse⟩ := processPixel_spec (s := s) (o := operands s.block) (k := s.block.k)
    (fun _ hj => (hi.pixel_inside hbusy hj).1) (fun _ hj => (hi.pixel_inside hbusy hj).2)
  unfold engineStep at h
  by_cases hall : ∀ j, j < (operands s.block).nch → (engineSees s (srcAddr (operands s.block) s.block.k j)).isSome
  · obtain ⟨u, hu, hframe, -, -, hwf, hinside⟩ := hnext hall
    rw [hu] at h
    cases h
    have hiu : Inv u := hframe ▸ hi.withMem (hwf hi.wf) (hinside hi.inside)
    have hblock : u.block = s.block := by rw [hframe, State.withMem_block]
    rw [← hblock] at hbusy
    exact (hiu.withBlock (hiu.block.endPixel hbusy) fun _ => ⟨hbusy, operands_endPixel _⟩).congr rfl rfl rfl rfl rfl
  · rw [hrefuse hall] at h
    cases h

/-- A host write records races in the windows; their commands and the memories at START stay. -/
theorem hostMemWrite_windows {s t : State} {a : Nat} {v : Byte} (hi : Inv s) (h : hostMemWrite a v s = .next t) :
    t.windows.map (fun w => (w.ops, w.before)) = s.windows.map (fun w => (w.ops, w.before)) := by
  obtain ⟨-, -, hmap, -⟩ := hostMemWrite_next (fun w hw => (hi.windows w hw).1) h
  simpa [Function.comp_def] using congrArg (List.map fun w : Window => (w.ops, w.before)) hmap

theorem hostMemWrite_keeps_inv {s t : State} {a : Nat} {v : Byte} (hi : Inv s) (h : hostMemWrite a v s = .next t) :
    Inv t := by
  obtain ⟨-, hframe, -, hwf, hinside, -⟩ := hostMemWrite_next (fun w hw => (hi.windows w hw).1) h
  have hwindows := hostMemWrite_windows hi h
  have hblock : t.block = s.block := by rw [hframe]
  have hawaited : t.awaited = s.awaited := by rw [hframe]
  have hsize : t.memSize = s.memSize := by rw [hframe]; rfl
  refine ⟨hwf hi.wf, hsize ▸ hinside hi.inside, hblock ▸ hsize ▸ hi.block, fun w hw => ?_, fun hbusy => ?_⟩
  · have hmem : (w.ops, w.before) ∈ s.windows.map (fun w => (w.ops, w.before)) :=
      hwindows ▸ List.mem_map_of_mem hw
    obtain ⟨x, hx, heq⟩ := List.mem_map.1 hmem
    obtain ⟨hops, hbefore⟩ := Prod.mk.inj heq
    rw [hsize, ← hops, ← hbefore]
    exact hi.windows x hx
  · rw [hblock] at hbusy ⊢
    obtain ⟨haw, x, older, hx, hops⟩ := hi.current hbusy
    rw [hx, List.map_cons, List.map_eq_cons_iff] at hwindows
    obtain ⟨w, rest, hw, heq, -⟩ := hwindows
    exact ⟨hawaited.trans haw, w, rest, hw, (Prod.mk.inj heq).1.trans hops⟩

theorem platformReset_keeps_inv {s : State} (hi : Inv s) : Inv (platformReset s) := by
  have hidle : Inv { s.withBlock Block.reset with windows := s.windows.tail, awaited := false } :=
    (hi.withBlock_idle (.reset _) rfl).withWindows_idle rfl (fun w hw => hi.windows w (List.mem_of_mem_tail hw)) _
  unfold platformReset
  split
  case isTrue hbusy =>
    obtain ⟨-, hacc, -⟩ := hi.block.running hbusy
    obtain ⟨-, -, -, hstride, -⟩ := hacc.checked
    have hdst : ∀ a ∈ dstBytes (operands s.block), a < s.memSize := fun a ha =>
      hacc.dstByte_lt ((isDstByte_iff hstride a).2 (mem_dstBytes.1 ha))
    exact hidle.freeBytes hdst
  case isFalse =>
    exact (hi.withBlock_idle (.reset _) rfl).withWindows_idle rfl hi.windows _

theorem step_keeps_inv {s t : State} (hi : Inv s) (h : step s = .next t) : Inv t := by
  have htake : Inv (takeEvent s) := hi.congr rfl rfl rfl rfl rfl
  rcases step_cases h with ⟨-, rfl⟩ | ⟨-, hbusy, u, hu, rfl⟩ | ⟨_, _, -, -, hx⟩ |
    ⟨_, _, _, _, u, -, -, hx, rfl | rfl⟩ | ⟨_, _, -, hw⟩ | ⟨_, -, hr⟩ | ⟨-, rfl⟩
  · exact hi
  · exact (engineStep_keeps_inv hi hbusy hu).congr rfl rfl rfl rfl rfl
  · exact exec_keeps_inv htake hx
  · exact exec_keeps_inv htake hx
  · exact (exec_keeps_inv htake hx).congr rfl rfl rfl rfl rfl
  · exact hostMemWrite_keeps_inv htake hw
  · rw [(hostMemRead_next hr).2.1]
    exact htake.congr rfl rfl rfl rfl rfl
  · exact platformReset_keeps_inv htake

/-- Settles O46: each agent's step keeps the invariant, and none reaches the two parameters. -/
theorem stepKeepsTheInvariant : Obligations.StepKeepsTheInvariant := by
  intro s t h
  obtain ⟨htop, hbase⟩ := step_parameters h
  exact ⟨fun hi => step_keeps_inv hi h, htop, congrArg (fun top : Word => top.toNat + 1) htop, hbase⟩

end Sys2Proof.Machine
end

section
/-! What a transaction does, by its direction and register: a read keeps the block, a write while BUSY is dropped, and a
write while idle reaches its own register (42_host_access.md R143 to R148). -/

namespace Sys2Proof.Machine

theorem eq_regOffset_of_regAt {off : Nat} {r : Reg} (h : regAt off = some r) : off = regOffset r := by
  unfold regAt at h
  split at h <;> cases h <;> rfl

theorem regAt_regOffset (r : Reg) : regAt (regOffset r) = some r := by
  cases r <;> rfl

theorem regOffset_injective : Function.Injective regOffset := fun r q h =>
  Option.some.inj ((regAt_regOffset r).symm.trans ((congrArg regAt h).trans (regAt_regOffset q)))

/-- An access that decodes is the read or the write of one register (30_encoding.md R82). -/
theorem decode_eq_ok {a : Access} {i : Instr} (h : decode a = .ok i) :
    ∃ r, a.off = regOffset r ∧
      ((a.dir = .read ∧ i = decodeRead r) ∨ (a.dir = .write ∧ i = decodeWrite r a.data)) := by
  unfold decode at h
  split_ifs at h
  cases hr : regAt a.off with
  | none => simp [hr] at h
  | some r =>
    refine ⟨r, eq_regOffset_of_regAt hr, ?_⟩
    cases hd : a.dir <;> simp only [hr, hd] at h <;> cases h
    · exact .inl ⟨rfl, rfl⟩
    · exact .inr ⟨rfl, rfl⟩

theorem writeCtrl_of_start {v : Word} (hstart : v.getLsbD 31 = true) (s : State) :
    writeCtrl v s = startCommand (storeCtrl (opField v) (nchField v) s) := if_pos hstart

theorem writeCtrl_of_not_start {v : Word} (hstart : v.getLsbD 31 = false) (s : State) :
    writeCtrl v s = storeCtrl (opField v) (nchField v) s := if_neg (Bool.eq_false_iff.1 hstart)

/-- The two command rows and the plain row of a CTRL write mean the same (42_host_access.md R145). -/
theorem exec_decodeCtrl (v : Word) (s : State) : exec (decodeCtrl v) s = .next (hostWrite (writeCtrl v) s) := by
  have hcommand : ∀ op, v.getLsbD 31 = true → opField v = op →
      writeCtrl v = fun s => startCommand (storeCtrl op (nchField v) s) := by
    rintro _ hstart rfl
    exact funext (writeCtrl_of_start hstart)
  unfold decodeCtrl
  split_ifs with hfwd hinv
  · obtain ⟨hstart, hop⟩ := (command_row_fwd v).1 hfwd
    rw [hcommand 1 hstart hop]
    rfl
  · obtain ⟨hstart, hop⟩ := (command_row_inv v).1 hinv
    rw [hcommand 2 hstart hop]
    rfl
  · rfl

theorem exec_decodeRead_block {r : Reg} {s t : State} (h : exec (decodeRead r) s = .next t) : t.block = s.block := by
  cases r with
  | status =>
    cases h
    rw [acquire_eq]
    rfl
  | _ => cases h; rfl

/-- The block once a write of `v` to a register has had its effect, the block being idle. -/
def writeBlock (v : Word) (s : State) : Reg → Block
  | .ctrl => (writeCtrl v s).block
  | .status => clearStatus v s.block
  | .src => { s.block with src := v }
  | .sstride => { s.block with sstride := v }
  | .dst => { s.block with dst := v }
  | .dstride => { s.block with dstride := v }
  | .count => { s.block with count := v }
  | .id => s.block

theorem exec_decodeWrite_idle {r : Reg} {v : Word} {s t : State} (hidle : s.block.busy = false)
    (h : exec (decodeWrite r v) s = .next t) : t.block = writeBlock v s r := by
  cases r with
  | ctrl =>
    rw [decodeWrite, exec_decodeCtrl, hostWrite_idle _ hidle] at h
    cases h
    rfl
  | id => cases h; rfl
  | _ =>
    cases h
    rw [hostWrite_idle _ hidle]
    rfl

theorem exec_decodeWrite_busy {r : Reg} {v : Word} {s t : State} (hbusy : s.block.busy = true) (hr : r ≠ .id)
    (h : exec (decodeWrite r v) s = .next t) : t.block = s.block.withWib := by
  cases r with
  | ctrl =>
    rw [decodeWrite, exec_decodeCtrl, hostWrite_busy _ hbusy] at h
    cases h
    rfl
  | id => exact absurd rfl hr
  | _ =>
    cases h
    rw [hostWrite_busy _ hbusy]
    rfl

end Sys2Proof.Machine
end

section
/-! The registers a step leaves, whatever the state (10_state.md R24, R26, R38). -/

namespace Sys2Proof.Machine

/-- How a step may take the block of `s` to another: the engine ends a pixel, a reset comes, or the host writes a
register, dropped while BUSY; every other step keeps it. -/
inductive BlockStep (s : State) : Block → Prop
  | kept : BlockStep s s.block
  | pixel (hagent : agent s = .engine) (hbusy : s.block.busy = true) : BlockStep s (endPixel s.block)
  | reset (hagent : agent s = .host .reset) : BlockStep s Block.reset
  | dropped (a : Access) (hagent : agent s = .host (.access a)) (hdir : a.dir = .write) (hoff : a.off ≠ 0x1C)
      (hbusy : s.block.busy = true) : BlockStep s s.block.withWib
  | written (a : Access) (r : Reg) (hagent : agent s = .host (.access a)) (hdir : a.dir = .write)
      (hoff : a.off = regOffset r) (hidle : s.block.busy = false) : BlockStep s (writeBlock a.data (takeEvent s) r)

theorem blockStep_of_access {s t : State} {a : Access} {i : Instr} (hagent : agent s = .host (.access a))
    (hdecode : decode a = .ok i) (h : exec i (takeEvent s) = .next t) : BlockStep s t.block := by
  obtain ⟨r, hoff, ⟨-, rfl⟩ | ⟨hdir, rfl⟩⟩ := decode_eq_ok hdecode
  · rw [exec_decodeRead_block h]
    exact .kept
  · cases hbusy : s.block.busy with
    | false =>
      rw [exec_decodeWrite_idle (s := takeEvent s) hbusy h]
      exact .written a r hagent hdir hoff hbusy
    | true =>
      by_cases hr : r = .id
      · subst hr
        cases h
        exact .kept
      · rw [exec_decodeWrite_busy (s := takeEvent s) hbusy hr h]
        exact .dropped a hagent hdir (fun hid => hr (regOffset_injective (hoff.symm.trans hid))) hbusy

theorem step_block {s t : State} (h : step s = .next t) : BlockStep s t.block := by
  rcases step_cases h with ⟨-, rfl⟩ | ⟨hagent, hbusy, u, hu, rfl⟩ | ⟨a, i, hagent, hdecode, hx⟩ |
    ⟨_, _, _, i, u, -, hdecode, hx, hpoll⟩ | ⟨_, _, -, hw⟩ | ⟨_, -, hr⟩ | ⟨hagent, rfl⟩
  · exact .kept
  · rw [passTurn_block, engineStep_frame hu]
    exact .pixel hagent hbusy
  · exact blockStep_of_access hagent hdecode hx
  · obtain ⟨r, -, ⟨-, rfl⟩ | ⟨hdir, -⟩⟩ := decode_eq_ok hdecode
    · have hblock : t.block = u.block := by rcases hpoll with rfl | rfl <;> rfl
      rw [hblock, exec_decodeRead_block hx]
      exact .kept
    · cases hdir
  · rw [hostMemWrite_frame hw]
    exact .kept
  · rw [(hostMemRead_next hr).2.1]
    exact .kept
  · rw [(platformReset_eq _).1]
    exact .reset hagent

/-- Settles O48: while BUSY a pixel's end and a dropped write keep the operands. -/
theorem operandsAreStableWhileBusy : Obligations.OperandsAreStableWhileBusy := by
  intro s t hbusy h hreset
  have hb := step_block h
  generalize t.block = b at hb ⊢
  cases hb with
  | kept => exact ⟨rfl, rfl, rfl, rfl, rfl, rfl, rfl⟩
  | pixel =>
    rw [endPixel_eq]
    exact ⟨rfl, rfl, rfl, rfl, rfl, rfl, rfl⟩
  | reset hagent => exact absurd hagent hreset
  | dropped => exact ⟨rfl, rfl, rfl, rfl, rfl, rfl, rfl⟩
  | written _ _ _ _ _ hidle => cases hidle.symm.trans hbusy

/-- Settles O49: of the steps from BUSY only a pixel's end and a reset touch BUSY. -/
theorem busyEndsWithTheLastPixelOrReset : Obligations.BusyEndsWithTheLastPixelOrReset := by
  intro s t hbusy h hidle
  have hb := step_block h
  generalize t.block = b at hb hidle ⊢
  cases hb with
  | kept => cases hidle.symm.trans hbusy
  | pixel hagent =>
    have hlast : s.block.k + 1 = s.block.count.toNat := by simpa [endPixel_eq, hbusy] using hidle
    exact .inl ⟨hagent, hlast, by simp [endPixel_eq, hlast]⟩
  | reset hagent => exact .inr hagent
  | dropped => cases hidle.symm.trans hbusy
  | written _ _ _ _ _ hwas => cases hwas.symm.trans hbusy

/-- A CTRL write makes an idle block BUSY only by an accepted START of the fields it stores (41_commands.md R120). -/
theorem writeCtrl_busy {v : Word} {s : State} (hidle : s.block.busy = false)
    (hbusy : (writeCtrl v s).block.busy = true) :
    v.getLsbD 31 = true ∧ Accepted s.memSize (operands (storeCtrl (opField v) (nchField v) s).block) ∧
      (writeCtrl v s).block = beginBusy (storeCtrl (opField v) (nchField v) s).block.clearOutcome := by
  cases hstart : v.getLsbD 31 with
  | false =>
    rw [writeCtrl_of_not_start hstart] at hbusy
    cases hidle.symm.trans hbusy
  | true =>
    refine ⟨rfl, ?_⟩
    rw [writeCtrl_of_start hstart] at hbusy ⊢
    rcases startCommand_cases (storeCtrl (opField v) (nchField v) s) with
      ⟨e, -, heq⟩ | ⟨-, -, heq⟩ | ⟨hacc, heq⟩ <;> rw [heq] at hbusy ⊢
    · cases hidle.symm.trans hbusy
    · cases hidle.symm.trans hbusy
    · exact ⟨hacc, rfl⟩

/-- Only a write to CTRL reaches BUSY. -/
theorem writeBlock_busy {v : Word} {s : State} {r : Reg} (hr : r ≠ .ctrl) :
    (writeBlock v s r).busy = s.block.busy := by
  cases r with
  | ctrl => exact absurd rfl hr
  | status => rw [writeBlock, clearStatus_eq]
  | _ => rfl

/-- Settles O50: from idle only a write to CTRL reaches BUSY, by `writeCtrl_busy`. -/
theorem busyBeginsOnlyWithAnAcceptedStart : Obligations.BusyBeginsOnlyWithAnAcceptedStart := by
  intro s t hidle h hbusy
  have hb := step_block h
  generalize t.block = b at hb hbusy ⊢
  cases hb with
  | kept => cases hidle.symm.trans hbusy
  | pixel _ hwas => cases hidle.symm.trans hwas
  | reset => cases hbusy
  | dropped _ _ _ _ hwas => cases hidle.symm.trans hwas
  | written a r hagent hdir hoff =>
    by_cases hr : r = .ctrl
    · subst hr
      obtain ⟨hstart, hacc, hblock⟩ := writeCtrl_busy (s := takeEvent s) hidle hbusy
      rw [writeBlock, hblock]
      exact ⟨⟨a, hagent, hdir, hoff, hstart, rfl, rfl⟩, hacc, rfl, rfl, rfl⟩
    · cases hidle.symm.trans ((writeBlock_busy (s := takeEvent s) hr).symm.trans hbusy)

theorem writeCtrl_fields (v : Word) (s : State) :
    (writeCtrl v s).block.op = opField v ∧ (writeCtrl v s).block.nch = nchField v ∧
      (writeCtrl v s).block.wib = s.block.wib := by
  cases hstart : v.getLsbD 31 with
  | true =>
    rw [writeCtrl_of_start hstart, startCommand_block]
    exact ⟨rfl, rfl, rfl⟩
  | false =>
    rw [writeCtrl_of_not_start hstart]
    exact ⟨rfl, rfl, rfl⟩

/-- Of the writes while idle only the write-1-to-clear of STATUS reaches WIB (10_state.md R26). -/
theorem writeBlock_wib (v : Word) (s : State) (r : Reg) :
    (writeBlock v s r).wib = if r = .status ∧ v.getLsbD 3 = true then false else s.block.wib := by
  cases r with
  | ctrl => exact (writeCtrl_fields v s).2.2
  | status => simp [writeBlock, clearStatus_eq]
  | _ => rfl

theorem wib_falls_only_by_clear_or_reset {s t : State} (h : step s = .next t) (hwas : s.block.wib = true)
    (hwib : t.block.wib = false) :
    (s.block.busy = false ∧ ∃ a, agent s = .host (.access a) ∧ a.dir = .write ∧ a.off = 0x04 ∧
      a.data.getLsbD 3 = true) ∨ agent s = .host .reset := by
  have hb := step_block h
  generalize t.block = b at hb hwib
  cases hb with
  | kept => cases hwas.symm.trans hwib
  | pixel =>
    rw [endPixel_eq] at hwib
    cases hwas.symm.trans hwib
  | reset hagent => exact .inr hagent
  | dropped => cases hwib
  | written a r hagent hdir hoff hidle =>
    rw [writeBlock_wib] at hwib
    split_ifs at hwib with hclear
    · obtain ⟨rfl, hbit⟩ := hclear
      exact .inl ⟨hidle, a, hagent, hdir, hoff, hbit⟩
    · cases hwas.symm.trans hwib

theorem wib_rises_only_by_dropped_write {s t : State} (h : step s = .next t) (hwas : s.block.wib = false)
    (hwib : t.block.wib = true) :
    s.block.busy = true ∧ t.block.err = s.block.err ∧ t.block.done = s.block.done ∧
      ∃ a, agent s = .host (.access a) ∧ a.dir = .write ∧ a.off ≠ 0x1C := by
  have hb := step_block h
  generalize t.block = b at hb hwib ⊢
  cases hb with
  | kept => cases hwas.symm.trans hwib
  | pixel =>
    rw [endPixel_eq] at hwib
    cases hwas.symm.trans hwib
  | reset => cases hwib
  | dropped a hagent hdir hoff hbusy => exact ⟨hbusy, rfl, rfl, a, hagent, hdir, hoff⟩
  | written a r =>
    rw [writeBlock_wib] at hwib
    split_ifs at hwib
    cases hwas.symm.trans hwib

theorem wib_set_by_dropped_write {s t : State} {a : Access} (h : step s = .next t) (hbusy : s.block.busy = true)
    (hagent : agent s = .host (.access a)) (hdir : a.dir = .write) (hoff : a.off ≠ 0x1C) : t.block.wib = true := by
  rw [step_of_agent_host hagent] at h
  cases hdecode : decode a with
  | error r => simp only [hostTurn, transact, hdecode] at h; cases h
  | ok i =>
    rw [hostTurn_access_of_decode hdecode] at h
    obtain ⟨r, hr, ⟨hread, -⟩ | ⟨-, rfl⟩⟩ := decode_eq_ok hdecode
    · cases hread.symm.trans hdir
    · have hid : r ≠ .id := by
        rintro rfl
        exact hoff hr
      rw [exec_decodeWrite_busy (s := takeEvent s) hbusy hid h, Block.withWib_wib]

/-- Settles O51: its three clauses are the three lemmas above. -/
theorem wibIsStickyUntilClearedOrReset : Obligations.WibIsStickyUntilClearedOrReset :=
  ⟨fun _ _ h => wib_falls_only_by_clear_or_reset h, fun _ _ h => wib_rises_only_by_dropped_write h,
    fun _ _ _ h => wib_set_by_dropped_write h⟩

/-- Settles O41: the block after an engine step is `endPixel` of the block before it, whatever the memory holds. -/
theorem pixelValuesSetNoFlag : Obligations.PixelValuesSetNoFlag := by
  intro s t u m ht hu
  have hblock : t.block = endPixel s.block := by rw [engineStep_frame ht]
  have hblock' : u.block = endPixel s.block := by rw [engineStep_frame hu]
  rw [hblock, hblock', endPixel_eq]
  exact ⟨rfl, rfl, rfl, rfl⟩

end Sys2Proof.Machine
end

section
/-! What the registers read as, and which bits of a write count (10_state.md R21, R22, R32, R40). -/

namespace Sys2Proof.Machine

theorem ctrlWord_and_reserved (b : Block) : ctrlWord b &&& 0xFFFF00F0 = 0 := by
  apply BitVec.eq_of_getLsbD_eq
  intro i hi
  rw [BitVec.getLsbD_and, ctrlWord_getLsbD]
  interval_cases i <;> simp

theorem statusWord_and_reserved (b : Block) : statusWord b &&& 0xFFFFFF00 = 0 := by
  apply BitVec.eq_of_getLsbD_eq
  intro i hi
  rw [BitVec.getLsbD_and, statusWord_getLsbD]
  interval_cases i <;> simp

/-- A mask keeps a field in which it is all ones. -/
theorem extractLsb'_and_of_allOnes {mask : Word} {start len : Nat}
    (hmask : mask.extractLsb' start len = BitVec.allOnes len) (v : Word) :
    (v &&& mask).extractLsb' start len = v.extractLsb' start len := by
  rw [BitVec.extractLsb'_and, hmask, BitVec.and_allOnes]

theorem opField_and_mask (v : Word) : opField (v &&& 0x8000FF0F) = opField v :=
  extractLsb'_and_of_allOnes (by decide) v

theorem nchField_and_mask (v : Word) : nchField (v &&& 0x8000FF0F) = nchField v :=
  extractLsb'_and_of_allOnes (by decide) v

theorem writeCtrl_and_mask (v : Word) : writeCtrl (v &&& 0x8000FF0F) = writeCtrl v := by
  have hstart : (v &&& 0x8000FF0F).getLsbD 31 = v.getLsbD 31 := by simp
  funext s
  simp only [writeCtrl, opField_and_mask, nchField_and_mask, hstart]

theorem clearStatus_and_mask (v : Word) : clearStatus (v &&& 0x000000FF) = clearStatus v := by
  have hbit : ∀ i, i < 8 → (v &&& 0x000000FF).getLsbD i = v.getLsbD i := fun i hi => by
    rw [BitVec.getLsbD_and]
    interval_cases i <;> simp
  funext b
  simp only [clearStatus, hbit 1 (by omega), hbit 2 (by omega), hbit 3 (by omega)]

/-- Settles O20: the read words have 0 in their reserved bits, and the masks of the writes keep every bit that
counts. -/
theorem reservedBitsReadZeroAndIgnoreWrites : Obligations.ReservedBitsReadZeroAndIgnoreWrites := by
  refine ⟨fun s t h => ?_, fun s t h => ?_, fun s v => ?_, fun s v => ?_⟩
  · cases h
    exact ctrlWord_and_reserved s.block
  · cases h
    rw [acquire_eq]
    exact statusWord_and_reserved s.block
  · simp only [exec, execWrCtrl, writeCtrl_and_mask]
  · simp only [exec, execWrStatus, clearStatus_and_mask]

theorem ctrlWord_of_fields {b : Block} {v : Word} (hop : b.op = opField v) (hnch : b.nch = nchField v) :
    ctrlWord b = v &&& 0x0000FF0F := by
  apply BitVec.eq_of_getLsbD_eq
  intro i hi
  rw [ctrlWord_getLsbD, hop, hnch, BitVec.getLsbD_and]
  interval_cases i <;> simp [opField, nchField]

/-- Settles O21: whatever START leads to, OP and NCH are those of the write. -/
theorem ctrlReadsBackOpAndNch : Obligations.CtrlReadsBackOpAndNch := by
  intro s t u v hidle ht hu
  rw [exec_decodeCtrl, hostWrite_idle _ hidle] at ht
  cases ht
  cases hu
  obtain ⟨hop, hnch, -⟩ := writeCtrl_fields v s
  exact ctrlWord_of_fields hop hnch

/-- The window shows a register's byte lanes at its offset (42_host_access.md R142). -/
theorem windowByte_regOffset (s : State) (r : Reg) {i : Nat} (hi : i < 4) :
    windowByte s (s.regBase + (regOffset r + i)) = some (byteLane (regValue s.block r) i) := by
  have haligned : regOffset r % 4 = 0 := by cases r <;> rfl
  have hword : (regOffset r + i) / 4 * 4 = regOffset r := by omega
  have hlane : (regOffset r + i) % 4 = i := by omega
  rw [windowByte, if_pos (Nat.le_add_right _ _), Nat.add_sub_cancel_left, hword, hlane, regAt_regOffset]
  rfl

theorem windowByte_id (s : State) {i : Nat} (hi : i < 4) :
    windowByte s (s.regBase + (0x1C + i)) = some (byteLane idValue i) := windowByte_regOffset s .id hi

/-- Settles O14: `idValue` in every state, its four lanes, and `execWrId`, which does nothing. -/
theorem idIsHardWired : Obligations.IdIsHardWired := fun s =>
  ⟨rfl, windowByte_id s (i := 0) (by decide), windowByte_id s (i := 1) (by decide),
    windowByte_id s (i := 2) (by decide), windowByte_id s (i := 3) (by decide), fun _ => rfl⟩

end Sys2Proof.Machine
end

section
/-! The step of a reset (70_reset_and_hazards.md R180, R181). -/

namespace Sys2Proof.Machine

/-- Settles O60: `platformReset_eq` on the state whose queue has lost the reset; the destination bytes it lists are the
abandoned command's because the invariant bounds that command's channels by its stride. -/
theorem platformResetRestoresTheBlock : Obligations.PlatformResetRestoresTheBlock := by
  intro s rest hi hq hbudget
  obtain ⟨heq, hkeep, hfree⟩ := platformReset_eq (takeEvent s)
  have hdst : s.block.busy = true → ∀ a, isDstByte (operands s.block) a = true ↔ a ∈ dstBytes (operands s.block) := by
    intro hbusy a
    obtain ⟨-, hacc, -⟩ := hi.block.running hbusy
    obtain ⟨-, -, -, hstride, -⟩ := hacc.checked
    exact (isDstByte_iff hstride a).trans mem_dstBytes.symm
  have hblock : (platformReset (takeEvent s)).block = Block.reset := by rw [heq]
  have hqueue : (platformReset (takeEvent s)).queue = rest := by
    rw [heq]
    simp [hq]
  refine ⟨_, step_of_queue_cons hq hbudget, hqueue, ?_, fun a ha => ?_, fun hbusy a ha => ?_⟩
  · rw [hblock]
    decide
  · exact hkeep a fun hbusy hmem => by simpa [ha hbusy] using (hdst hbusy a).2 hmem
  · exact hfree hbusy a ((hdst hbusy a).1 ha)

end Sys2Proof.Machine
end

section
/-! The data memory as data: a canonical memory is fixed by what it reads as (20_memory.md R50). -/

namespace Sys2Proof.Machine

/-- In a canonical memory no later cell holds the first cell's address or a lower one. -/
theorem Memory.read_tail_of_le_head {c : Host.Cell} {m : Memory} {a : Nat} (h : Memory.wf (c :: m) = true)
    (ha : a ≤ c.1) : Memory.read m a = none := by
  induction m generalizing c with
  | nil => rfl
  | cons d m ih =>
    obtain ⟨hhead, hm⟩ := (Memory.wf_cons_iff c (d :: m)).1 h
    have hlt : a < d.1 := ha.trans_lt (hhead d m rfl)
    rw [Memory.read, if_neg hlt.ne]
    exact ih hm hlt.le

theorem Memory.read_head (c : Host.Cell) (m : Memory) : Memory.read (c :: m) c.1 = some c.2 := if_pos rfl

/-- A canonical memory with a byte at `a` has its first cell at or below `a`. -/
theorem Memory.head_le_of_read {c : Host.Cell} {m : Memory} {a : Nat} {v : Byte} (h : Memory.wf (c :: m) = true)
    (hr : Memory.read (c :: m) a = some v) : c.1 ≤ a := by
  by_contra hlt
  have hnone : Memory.read (c :: m) a = none := by
    rw [Memory.read, if_neg (by omega)]
    exact Memory.read_tail_of_le_head h (by omega)
  cases hr.symm.trans hnone

/-- Two canonical memories that read the same begin with the same cell. -/
theorem Memory.head_eq_of_read_eq {c d : Host.Cell} {m m' : Memory} (hm : Memory.wf (c :: m) = true)
    (hm' : Memory.wf (d :: m') = true) (hread : ∀ a, Memory.read (c :: m) a = Memory.read (d :: m') a) : c = d := by
  have haddr : c.1 = d.1 := Nat.le_antisymm
    (Memory.head_le_of_read hm ((hread d.1).trans (Memory.read_head d m')))
    (Memory.head_le_of_read hm' ((hread c.1).symm.trans (Memory.read_head c m)))
  have hbyte : some c.2 = some d.2 := by
    rw [← Memory.read_head c m, hread, haddr, Memory.read_head]
  exact Prod.ext haddr (Option.some.inj hbyte)

/-- Settles O53, cell by cell: the first cells agree, and what follows them reads the same because neither tail holds the
first cell's address. -/
theorem canonicalMemoriesAreEqualData : Obligations.CanonicalMemoriesAreEqualData := by
  intro m
  induction m with
  | nil =>
    rintro (_ | ⟨d, m'⟩) - - hread
    · rfl
    · cases (hread d.1).trans (Memory.read_head d m')
  | cons c m ih =>
    rintro (_ | ⟨d, m'⟩) hm hm' hread
    · cases (hread c.1).symm.trans (Memory.read_head c m)
    · obtain rfl := Memory.head_eq_of_read_eq hm hm' hread
      have htail : ∀ a, Memory.read m a = Memory.read m' a := by
        intro a
        by_cases ha : a = c.1
        · rw [Memory.read_tail_of_le_head hm ha.le, Memory.read_tail_of_le_head hm' ha.le]
        · simpa only [Memory.read, if_neg ha] using hread a
      rw [ih m' ((Memory.wf_cons_iff c m).1 hm).2 ((Memory.wf_cons_iff c m').1 hm').2 htail]

end Sys2Proof.Machine
end

section
/-! What each agent's step leaves of the memory: the transactions all of it, the engine all but its pixel's destination,
a reset all but the abandoned command's (41_commands.md R120, R130, 70_reset_and_hazards.md R180). -/

namespace Sys2Proof.Machine

theorem startCommand_mem (s : State) : (startCommand s).mem = s.mem := by
  rw [startCommand_eq]

theorem exec_mem {i : Instr} {s t : State} (h : exec i s = .next t) : t.mem = s.mem := by
  rcases exec_cases h with ⟨_, rfl | ⟨rfl, -⟩⟩ | ⟨rfl, -⟩ | rfl | ⟨-, _, rfl⟩ | ⟨-, _, _, _, _, _, rfl⟩ |
    ⟨-, op, nch, rfl | rfl⟩
  case inr.inr.inr.inr.inr.inr => exact startCommand_mem (storeCtrl op nch s)
  all_goals rfl

/-- Settles O22: a transaction keeps the memory itself. -/
theorem transactionsLeaveMemoryAlone : Obligations.TransactionsLeaveMemoryAlone :=
  fun _ _ _ h a => congrArg (Memory.read · a) (exec_mem h)

section
variable {s : State} (hin : ∀ j, j < (operands s.block).nch →
  srcAddr (operands s.block) s.block.k j < s.memSize ∧ dstAddr (operands s.block) s.block.k j < s.memSize)
include hin

/-- An engine step inside MEM_SIZE that finds every source byte of its pixel completes, and of the memory it reaches the
pixel's destination bytes only. -/
theorem engineStep_of_found
    (hfound : ∀ j, j < (operands s.block).nch →
      (engineSees s (srcAddr (operands s.block) s.block.k j)).isSome) :
    ∃ t, engineStep s = .next t ∧
      (∀ b, (∀ j, j < (operands s.block).nch → b ≠ dstAddr (operands s.block) s.block.k j) →
        Memory.read t.mem b = Memory.read s.mem b) ∧
      ∀ j, j < (operands s.block).nch → Memory.read t.mem (dstAddr (operands s.block) s.block.k j) =
        (pix (operands s.block).op (operands s.block).nch (foundPixel s (operands s.block) s.block.k))[j]?.map
          (landed (s.draws + 1) (currentWindow s) (dstAddr (operands s.block) s.block.k j)) := by
  obtain ⟨u, hu, -, hkeep, hstore, -⟩ :=
    (processPixel_spec (fun j hj => (hin j hj).1) fun j hj => (hin j hj).2).1 hfound
  have hstep : engineStep s = .next { u with block := endPixel u.block, draws := u.draws + 2 } := by
    rw [engineStep, hu]
  exact ⟨_, hstep, hkeep, hstore⟩

/-- An engine step inside MEM_SIZE that misses a source byte of its pixel is refused (70_reset_and_hazards.md R184). -/
theorem engineStep_of_not_found
    (hmissing : ¬∀ j, j < (operands s.block).nch →
      (engineSees s (srcAddr (operands s.block) s.block.k j)).isSome) :
    engineStep s = .refused .sourceByteNeverWritten := by
  rw [engineStep, (processPixel_spec (fun j hj => (hin j hj).1) fun j hj => (hin j hj).2).2 hmissing]

theorem engineStep_read_of_ne {t : State} (h : engineStep s = .next t) {b : Nat}
    (hb : ∀ j, j < (operands s.block).nch → b ≠ dstAddr (operands s.block) s.block.k j) :
    Memory.read t.mem b = Memory.read s.mem b := by
  by_cases hfound : ∀ j, j < (operands s.block).nch →
      (engineSees s (srcAddr (operands s.block) s.block.k j)).isSome
  · obtain ⟨u, hu, hkeep, -⟩ := engineStep_of_found hin hfound
    cases h.symm.trans hu
    exact hkeep b hb
  · cases h.symm.trans (engineStep_of_not_found hin hfound)

end

/-- Which bytes have no value for the engine: an unraced one that memory does not hold, and a raced one that it did not
hold at START. -/
theorem seen_eq_none_iff (draw : Nat) (w : Window) (m : Memory) (a : Nat) :
    seen draw w m a = none ↔
      (w.finds a = [] ∧ Memory.read m a = none) ∨ (w.finds a ≠ [] ∧ Memory.read w.before a = none) := by
  unfold seen
  cases w.finds a <;> simp

/-- Settles O40: the invariant puts the pixel inside MEM_SIZE, so its step turns on what the engine finds. -/
theorem engineStepNeverFaults : Obligations.EngineStepNeverFaults := by
  intro s hi hbusy
  have hin := fun j hj => hi.pixel_inside hbusy (j := j) hj
  refine ⟨fun hfound => ?_, fun ⟨j, hj, hnone⟩ => engineStep_of_not_found hin fun hfound => ?_,
    seen_eq_none_iff _ _ _⟩
  · obtain ⟨t, ht, -⟩ := engineStep_of_found hin hfound
    exact ⟨t, ht⟩
  · simpa [hnone] using hfound j hj

theorem Accepted.isDstByte_iff_mem_dstBytes {memSize : Nat} {o : Operands} (h : Accepted memSize o) (a : Nat) :
    isDstByte o a = true ↔ a ∈ dstBytes o := by
  obtain ⟨-, -, -, hstride, -⟩ := h.checked
  exact (isDstByte_iff hstride a).trans mem_dstBytes.symm

theorem platformReset_read_of_not_abandoned {s : State} (hi : Inv s) {a : Nat}
    (ha : ¬(s.block.busy = true ∧ isDstByte (operands s.block) a = true)) :
    Memory.read (platformReset s).mem a = Memory.read s.mem a := by
  obtain ⟨-, hkeep, -⟩ := platformReset_eq s
  refine hkeep a fun hbusy hmem => ha ⟨hbusy, ?_⟩
  obtain ⟨-, hacc, -⟩ := hi.block.running hbusy
  exact (hacc.isDstByte_iff_mem_dstBytes a).2 hmem

theorem hostMemWrite_read_of_not_reached {s t : State} {a b : Nat} {v : Byte} (hi : Inv s)
    (h : hostMemWrite a v s = .next t) (hb : ¬(b = a ∨ Reached (s.windows.map (·.ops)) a b)) :
    Memory.read t.mem b = Memory.read s.mem b := by
  obtain ⟨hne, hreach⟩ := not_or.1 hb
  obtain ⟨-, -, -, -, -, hkeep, -⟩ := hostMemWrite_next (fun w hw => (hi.windows w hw).1) h
  exact hkeep b hne hreach

/-- Settles O52: `step_cases` lists the steps, and each keeps the byte unless it is the named write of it. -/
theorem memoryChangesOnlyWhereNamed : Obligations.MemoryChangesOnlyWhereNamed := by
  intro s t a hi h hne
  have htake : Inv (takeEvent s) := hi.congr rfl rfl rfl rfl rfl
  rcases step_cases h with ⟨-, rfl⟩ | ⟨hagent, hbusy, u, hu, rfl⟩ | ⟨_, _, -, -, hx⟩ |
    ⟨_, _, _, _, u, -, -, hx, rfl | rfl⟩ | ⟨b, v, hagent, hw⟩ | ⟨_, -, hr⟩ | ⟨hagent, rfl⟩
  · exact absurd rfl hne
  · refine .inl ⟨hagent, ?_⟩
    by_contra hother
    exact hne (engineStep_read_of_ne (fun _ hj => hi.pixel_inside hbusy hj) hu
      fun j hj heq => hother ⟨j, hj, heq⟩)
  · exact absurd (congrArg (Memory.read · a) (exec_mem hx)) hne
  · exact absurd (congrArg (Memory.read · a) (exec_mem hx)) hne
  · exact absurd (congrArg (Memory.read · a) (exec_mem hx)) hne
  · refine .inr (.inl ⟨b, v, hagent, ?_⟩)
    by_contra hother
    exact hne (hostMemWrite_read_of_not_reached (s := takeEvent s) htake hw hother)
  · rw [(hostMemRead_next hr).2.1] at hne
    exact absurd rfl hne
  · refine .inr (.inr ⟨hagent, ?_⟩)
    by_contra hother
    exact hne (platformReset_read_of_not_abandoned htake hother)

end Sys2Proof.Machine
end

section
/-! The data memory as the host reaches it: plain storage outside the open commands' buffers, and everywhere after the
acquire point (20_memory.md R50, R59). -/

namespace Sys2Proof.Machine

theorem Accepted.touches_eq_false {memSize : Nat} {o : Operands} (h : Accepted memSize o) {a : Nat}
    (ha : ¬InBuffers o a) : touches o a = false := by
  obtain ⟨-, -, hss, hds, -⟩ := h.checked
  exact Bool.eq_false_iff.2 fun ht => ha (touches_inBuffers hss hds ht)

theorem isDstByte_of_touches_eq_false {o : Operands} {a : Nat} (h : touches o a = false) : isDstByte o a = false :=
  (Bool.or_eq_false_iff.1 h).2

theorem hostMemWrite_of_untouched {s : State} {a : Nat} (ha : a < s.memSize)
    (h : ∀ w ∈ s.windows, touches w.ops a = false) (v : Byte) :
    hostMemWrite a v s = .next (s.withMem (Memory.write s.mem a v)) := by
  have hany : ¬(s.windows.any fun w => touches w.ops a) = true := by simpa using h
  rw [hostMemWrite, if_neg (by omega), if_neg hany]

/-- Settles O54: no open command touches the byte, so the write is `Memory.write` and the read races with nothing. -/
theorem hostWriteThenReadReturnsTheByte : Obligations.HostWriteThenReadReturnsTheByte := by
  intro s a v hi ha houtside
  have huntouched : ∀ w ∈ s.windows, touches w.ops a = false := fun w hw =>
    (hi.windows w hw).1.touches_eq_false (houtside w hw)
  refine ⟨_, hostMemWrite_of_untouched ha huntouched v, rfl, fun b hb => Memory.read_write_ne _ _ hb, ?_⟩
  exact hostMemRead_of_settled ha
    (racingReads_of_settled fun w hw => isDstByte_of_touches_eq_false (huntouched w hw))
    (Memory.read_write_same _ _ _)

/-- What a STATUS read delivers and what it leaves open, in the terms of the word it delivers. -/
theorem rdStatus_next {s t : State} (h : exec .rdStatus s = .next t) :
    t = { s with rdata := t.rdata, windows := t.windows, awaited := t.awaited } ∧
      t.windows = if t.rdata.getLsbD 1 && !t.rdata.getLsbD 2 && s.awaited then [] else s.windows := by
  cases h
  rw [acquire_eq]
  refine ⟨rfl, ?_⟩
  simp only [hostRead, State.withRdata_rdata, statusWord_getLsbD]
  rfl

/-- Settles O59: with no window left open no read races. -/
theorem statusReadWithDoneIsTheAcquirePoint : Obligations.StatusReadWithDoneIsTheAcquirePoint := by
  refine ⟨fun s t a v h hdone herr hawaited ha hv => ?acquires, fun s t h hnot => ?keeps⟩
  case acquires =>
    obtain ⟨hframe, hwindows⟩ := rdStatus_next h
    have hclosed : t.windows = [] := by
      rw [hwindows, hdone, herr, hawaited]
      rfl
    have hsize : t.memSize = s.memSize := by rw [hframe]; rfl
    have hmem : t.mem = s.mem := by rw [hframe]
    exact hostMemRead_of_settled (hsize ▸ ha) (racingReads_of_settled (by simp [hclosed])) (hmem ▸ hv)
  case keeps =>
    have hopen : (t.rdata.getLsbD 1 && !t.rdata.getLsbD 2 && s.awaited) = false := by
      rcases hnot with hbit | hbit | hbit <;> rw [hbit] <;> simp
    rw [(rdStatus_next h).2, hopen]
    rfl

end Sys2Proof.Machine
end

section
/-! The encoder against the decoder (30_encoding.md R70, R73, R82): every transaction is the supported access of its
register, and of the CTRL writes only the two command rows drop bits. -/

namespace Sys2Proof.Machine

@[simp] theorem decode_readAccess (r : Reg) : decode (readAccess r) = .ok (decodeRead r) := by
  simp [decode, readAccess, regAt_regOffset]

@[simp] theorem decode_writeAccess (r : Reg) (v : Word) : decode (writeAccess r v) = .ok (decodeWrite r v) := by
  simp [decode, writeAccess, regAt_regOffset]

theorem width_of_decode_eq_ok {a : Access} {i : Instr} (h : decode a = .ok i) : a.width = 32 := by
  by_contra hwidth
  simp [decode, hwidth] at h

/-- A `wrCtrl` is well-formed exactly if its value matches neither command row. -/
theorem wellFormed_wrCtrl_iff (v : Word) :
    WellFormed (.wrCtrl v) = true ↔ v &&& 0x8000000F ≠ 0x80000001 ∧ v &&& 0x8000000F ≠ 0x80000002 := by
  simp [WellFormed, WellFormed.isCommand, WellFormed.commandMask]

theorem decodeCtrl_of_wellFormed {v : Word} (h : WellFormed (.wrCtrl v) = true) : decodeCtrl v = .wrCtrl v := by
  obtain ⟨hfwd, hinv⟩ := (wellFormed_wrCtrl_iff v).1 h
  rw [decodeCtrl, if_neg hfwd, if_neg hinv]

/-- The three rows of a CTRL write, each with its condition on START and OP. -/
theorem decodeCtrl_cases (v : Word) :
    (v.getLsbD 31 = true ∧ opField v = 1 ∧ decodeCtrl v = .yccFwd (nchField v)) ∨
    (v.getLsbD 31 = true ∧ opField v = 2 ∧ decodeCtrl v = .yccInv (nchField v)) ∨
    (WellFormed (.wrCtrl v) = true ∧ decodeCtrl v = .wrCtrl v) := by
  by_cases hfwd : v &&& 0x8000000F = 0x80000001
  · obtain ⟨hstart, hop⟩ := (command_row_fwd v).1 hfwd
    exact .inl ⟨hstart, hop, if_pos hfwd⟩
  by_cases hinv : v &&& 0x8000000F = 0x80000002
  · obtain ⟨hstart, hop⟩ := (command_row_inv v).1 hinv
    exact .inr (.inl ⟨hstart, hop, (if_neg hfwd).trans (if_pos hinv)⟩)
  have hwf := (wellFormed_wrCtrl_iff v).2 ⟨hfwd, hinv⟩
  exact .inr (.inr ⟨hwf, decodeCtrl_of_wellFormed hwf⟩)

theorem decodeCtrl_of_not_start {v : Word} (h : v.getLsbD 31 = false) : decodeCtrl v = .wrCtrl v := by
  rcases decodeCtrl_cases v with ⟨hstart, -⟩ | ⟨hstart, -⟩ | ⟨-, hrow⟩
  · cases h.symm.trans hstart
  · cases h.symm.trans hstart
  · exact hrow

theorem commandWord_start (op : BitVec 4) (nch : Byte) : (commandWord op nch).getLsbD 31 = true := by
  rw [commandWord_getLsbD]
  rfl

theorem decodeCtrl_commandWord_fwd (nch : Byte) : decodeCtrl (commandWord 1 nch) = .yccFwd nch := by
  have hrow := (command_row_fwd (commandWord 1 nch)).2 ⟨commandWord_start 1 nch, opField_commandWord 1 nch⟩
  rw [decodeCtrl, if_pos hrow, nchField_commandWord]

theorem decodeCtrl_commandWord_inv (nch : Byte) : decodeCtrl (commandWord 2 nch) = .yccInv nch := by
  have hrow := (command_row_inv (commandWord 2 nch)).2 ⟨commandWord_start 2 nch, opField_commandWord 2 nch⟩
  have hother : commandWord 2 nch &&& 0x8000000F ≠ 0x80000001 := by
    rw [hrow]
    decide
  rw [decodeCtrl, if_neg hother, if_pos hrow, nchField_commandWord]

/-- Settles O2: each encoding is the access of a register, which decodes by its row; the CTRL value of a command matches
the row of its OP, and a well-formed `wrCtrl` carries a value of neither row. -/
theorem decodeEncodeRoundTrip : Obligations.DecodeEncodeRoundTrip := by
  intro i hwf
  cases i with
  | yccFwd nch => rw [encode, decode_writeAccess, decodeWrite, decodeCtrl_commandWord_fwd]
  | yccInv nch => rw [encode, decode_writeAccess, decodeWrite, decodeCtrl_commandWord_inv]
  | wrCtrl v => rw [encode, decode_writeAccess, decodeWrite, decodeCtrl_of_wellFormed hwf]
  | wrStatus v | wrSrc v | wrSstride v | wrDst v | wrDstride v | wrCount v | wrId v => exact decode_writeAccess _ v
  | rdCtrl | rdStatus | rdSrc | rdSstride | rdDst | rdDstride | rdCount | rdId => exact decode_readAccess _

theorem wellFormed_decodeRead (r : Reg) : WellFormed (decodeRead r) = true := by
  cases r <;> rfl

theorem encode_decodeRead (r : Reg) : encode (decodeRead r) = readAccess r := by
  cases r <;> rfl

theorem wellFormed_decodeCtrl (v : Word) : WellFormed (decodeCtrl v) = true := by
  rcases decodeCtrl_cases v with ⟨-, -, hrow⟩ | ⟨-, -, hrow⟩ | ⟨hwf, hrow⟩ <;> rw [hrow]
  · rfl
  · rfl
  · exact hwf

theorem wellFormed_decodeWrite (r : Reg) (v : Word) : WellFormed (decodeWrite r v) = true := by
  cases r with
  | ctrl => exact wellFormed_decodeCtrl v
  | _ => rfl

/-- With START = 1 a CTRL value is the command word of its fields but for the reserved bits (30_encoding.md R70). -/
theorem commandWord_of_start {v : Word} {op : BitVec 4} (hstart : v.getLsbD 31 = true) (hop : opField v = op) :
    commandWord op (nchField v) = v &&& 0x8000FF0F := by
  subst hop
  apply BitVec.eq_of_getLsbD_eq
  intro i hi
  rw [commandWord_getLsbD, BitVec.getLsbD_and]
  have htop : v[31] = true := by simpa using hstart
  interval_cases i <;> simp [opField, nchField, htop]

theorem encode_decodeCtrl (v : Word) :
    encode (decodeCtrl v) = writeAccess .ctrl v ∨ encode (decodeCtrl v) = writeAccess .ctrl (v &&& 0x8000FF0F) := by
  rcases decodeCtrl_cases v with ⟨hstart, hop, hrow⟩ | ⟨hstart, hop, hrow⟩ | ⟨-, hrow⟩ <;> rw [hrow]
  · exact .inr (congrArg (writeAccess .ctrl) (commandWord_of_start hstart hop))
  · exact .inr (congrArg (writeAccess .ctrl) (commandWord_of_start hstart hop))
  · exact .inl rfl

/-- A write comes back as a write of the same register, and only in a CTRL datum can bits be lost. -/
theorem encode_decodeWrite (r : Reg) (v : Word) :
    encode (decodeWrite r v) = writeAccess r v ∨
      (r = .ctrl ∧ encode (decodeWrite r v) = writeAccess r (v &&& 0x8000FF0F)) := by
  cases r with
  | ctrl => exact (encode_decodeCtrl v).imp_right fun h => ⟨rfl, h⟩
  | _ => exact .inl rfl

/-- Settles O3: what decodes is a read or a write of one register, and each of the two comes back by its own lemma. -/
theorem encodeDecodeGivesTheAccessBack : Obligations.EncodeDecodeGivesTheAccessBack := by
  intro a i h
  have hwidth := width_of_decode_eq_ok h
  obtain ⟨r, hoff, ⟨hdir, rfl⟩ | ⟨hdir, rfl⟩⟩ := decode_eq_ok h
  · rw [encode_decodeRead, hdir, hwidth, hoff]
    exact ⟨wellFormed_decodeRead r, rfl, rfl, rfl, nofun⟩
  · rw [hdir, hwidth, hoff]
    refine ⟨wellFormed_decodeWrite r a.data, ?_⟩
    obtain hback | ⟨rfl, hback⟩ := encode_decodeWrite r a.data <;> rw [hback]
    · exact ⟨rfl, rfl, rfl, fun _ => .inl rfl⟩
    · exact ⟨rfl, rfl, rfl, fun _ => .inr ⟨rfl, rfl⟩⟩

/-- Settles O1: each word is run through the decoder. -/
theorem wordsOfTheSpecDecode : Obligations.WordsOfTheSpecDecode :=
  ⟨rfl, rfl, rfl, rfl, rfl, rfl, rfl, rfl, rfl⟩

end Sys2Proof.Machine
end

section
/-! What a CTRL write does whichever row it decodes to, and the end of a reserved command (30_encoding.md R73, R82;
42_host_access.md R145). -/

namespace Sys2Proof.Machine

/-- Settles O5. -/
theorem commandIsACtrlWrite : Obligations.CommandIsACtrlWrite := exec_decodeCtrl

/-- The OP check is the first of the validation (60_exceptions.md R164). -/
theorem validate_of_reserved_op {o : Operands} (hfwd : o.op ≠ 1) (hinv : o.op ≠ 2) (memSize : Nat) :
    validate memSize o = some .op := if_pos ⟨hfwd, hinv⟩

theorem startCommand_of_validate_error {s : State} {e : ErrCode}
    (h : validate s.memSize (operands s.block) = some e) :
    startCommand s = { s with block := raiseError e s.block.clearOutcome, awaited := false } := by
  simp only [startCommand, operands_clearOutcome, h]

/-- A CTRL write with START and a reserved OP, while idle, ends at once with ERR_OP. -/
theorem writeCtrl_of_reserved {w : Word} (hstart : w.getLsbD 31 = true) (hfwd : opField w ≠ 1)
    (hinv : opField w ≠ 2) (s : State) :
    writeCtrl w s = { s with
      block := raiseError .op (storeCtrl (opField w) (nchField w) s).block.clearOutcome, awaited := false } := by
  rw [writeCtrl_of_start hstart, startCommand_of_validate_error (validate_of_reserved_op hfwd hinv _)]
  rfl

/-- Settles O4: without START no command row matches, with START the rows are `decodeCtrl`'s own, and past the two of
them OP is reserved. -/
theorem ctrlWriteDecodesByFirstRow : Obligations.CtrlWriteDecodesByFirstRow := by
  refine ⟨fun w => (decode_writeAccess .ctrl w).trans (congrArg Except.ok ?rows),
    fun w s hidle hstart hfwd hinv => ?reserved⟩
  case rows =>
    cases hstart : w.getLsbD 31 with
    | false => exact decodeCtrl_of_not_start hstart
    | true => rfl
  case reserved =>
    have hop1 : opField w ≠ 1 := fun hop => hfwd ((command_row_fwd w).2 ⟨hstart, hop⟩)
    have hop2 : opField w ≠ 2 := fun hop => hinv ((command_row_inv w).2 ⟨hstart, hop⟩)
    have hexec : exec (.wrCtrl w) s = .next (writeCtrl w s) := congrArg Host.Outcome.next (hostWrite_idle _ hidle)
    refine ⟨_, hexec, ?_⟩
    rw [writeCtrl_of_reserved hstart hop1 hop2]
    rfl

end Sys2Proof.Machine
end

section
/-! The poll (30_encoding.md R76): one read of its register a step. -/

namespace Sys2Proof.Machine

theorem hostTurn_poll_of_decode {off : Nat} {i : Instr} {s t : State}
    (hdecode : decode { dir := .read, width := 32, off := off, data := 0 } = .ok i) (hexec : exec i s = .next t)
    (mask value : Word) :
    hostTurn (.poll off mask value) s =
      if t.rdata &&& mask = value then .next t else .next { t with queue := .poll off mask value :: t.queue } := by
  simp only [hostTurn, pollOnce, transact, hdecode, hexec]

/-- Settles O12: the instruction is a read, which answers a next state and keeps the block. -/
theorem pollReadsUntilTheConditionHolds : Obligations.PollReadsUntilTheConditionHolds := by
  intro s off mask value i hdecode
  obtain ⟨t, hexec⟩ := exec_next i s
  have hblock : t.block = s.block := by
    obtain ⟨r, -, ⟨-, rfl⟩ | ⟨hdir, -⟩⟩ := decode_eq_ok hdecode
    · exact exec_decodeRead_block hexec
    · cases hdir
  have hpoll := hostTurn_poll_of_decode hdecode hexec mask value
  exact ⟨t, hexec, hblock, fun hmet => hpoll.trans (if_pos hmet), fun hnot => hpoll.trans (if_neg hnot)⟩

end Sys2Proof.Machine
end

section
/-! The arithmetic of the pixel function (40_pixel_datapath.md): the shift, bytes read as integers and integers narrowed
to bytes, and the ranges of both transforms. -/

namespace Sys2Proof.Machine

@[simp] theorem shr_one (a : Int) : shr a 1 = a / 2 := rfl

@[simp] theorem shr_two (a : Int) : shr a 2 = a / 4 := rfl

theorem zext8_bounds (b : Byte) : 0 ≤ zext8 b ∧ zext8 b ≤ 255 := by
  have hlt : b.toNat < 256 := b.isLt
  unfold zext8
  omega

/-- Narrowing to a byte loses nothing of an integer in 0..255 (00_scope.md R7). -/
theorem zext8_toByte {v : Int} (hv : 0 ≤ v ∧ v ≤ 255) : zext8 (toByte v) = v := by
  simp only [zext8, toByte, BitVec.toNat_ofInt]
  omega

theorem clamp8_bounds (v : Int) : 0 ≤ clamp8 v ∧ clamp8 v ≤ 255 := by
  unfold clamp8
  omega

theorem zext8_toByte_clamp8 (v : Int) : zext8 (toByte (clamp8 v)) = clamp8 v :=
  zext8_toByte (clamp8_bounds v)

/-- Clamping brings a value no further from any byte. -/
theorem toByte_clamp8_sub_bounds {v lo hi : Int} {x : Byte} (hlo : lo ≤ 0) (hhi : 0 ≤ hi)
    (hv : lo ≤ v - zext8 x ∧ v - zext8 x ≤ hi) :
    lo ≤ zext8 (toByte (clamp8 v)) - zext8 x ∧ zext8 (toByte (clamp8 v)) - zext8 x ≤ hi := by
  have hx := zext8_bounds x
  rw [zext8_toByte_clamp8, clamp8]
  omega

/-- The operands of the forward transform's three shifts (40_pixel_datapath.md R102). -/
theorem fwd_operand_bounds (r g b : Byte) :
    (2 ≤ zext8 r + 2 * zext8 g + zext8 b + 2 ∧ zext8 r + 2 * zext8 g + zext8 b + 2 ≤ 1022) ∧
    (1 ≤ zext8 b - zext8 g + 256 ∧ zext8 b - zext8 g + 256 ≤ 511) ∧
    (1 ≤ zext8 r - zext8 g + 256 ∧ zext8 r - zext8 g + 256 ≤ 511) := by
  have hr := zext8_bounds r
  have hg := zext8_bounds g
  have hb := zext8_bounds b
  omega

/-- The forward transform takes bytes to integers in 0..255 (40_pixel_datapath.md R102). -/
theorem fwd_bounds {r g b : Byte} {y cb cr : Int} (h : fwd (zext8 r) (zext8 g) (zext8 b) = (y, cb, cr)) :
    (0 ≤ y ∧ y ≤ 255) ∧ (0 ≤ cb ∧ cb ≤ 255) ∧ (0 ≤ cr ∧ cr ≤ 255) := by
  have hop := fwd_operand_bounds r g b
  simp only [fwd, shr_one, shr_two, Prod.mk.injEq] at h
  omega

/-- The sum `s` that the inverse shifts (40_pixel_datapath.md R109). -/
theorem inv_operand_bounds (cb cr : Byte) :
    -508 ≤ (2 * zext8 cb - 255) + (2 * zext8 cr - 255) + 2 ∧
    (2 * zext8 cb - 255) + (2 * zext8 cr - 255) + 2 ≤ 512 := by
  have hcb := zext8_bounds cb
  have hcr := zext8_bounds cr
  omega

/-- The inverse's unclamped results on bytes (40_pixel_datapath.md R109). -/
theorem invRaw_bounds {y cb cr : Byte} {r g b : Int}
    (h : invRaw (zext8 y) (zext8 cb) (zext8 cr) = (r, g, b)) :
    (-128 ≤ g ∧ g ≤ 382) ∧ (-255 ≤ r ∧ r ≤ 510) ∧ (-255 ≤ b ∧ b ≤ 510) := by
  have hy := zext8_bounds y
  have hcb := zext8_bounds cb
  have hcr := zext8_bounds cr
  simp only [invRaw, shr_two, Prod.mk.injEq] at h
  omega

/-- The inverse's unclamped results on those of the forward transform: R and B are off by at most 1, G by 0 or -1
(40_pixel_datapath.md R110). -/
theorem invRaw_fwd_sub_bounds {r g b y cb cr r' g' b' : Int} (hfwd : fwd r g b = (y, cb, cr))
    (hinv : invRaw y cb cr = (r', g', b')) :
    (-1 ≤ r' - r ∧ r' - r ≤ 1) ∧ (-1 ≤ g' - g ∧ g' - g ≤ 0) ∧ (-1 ≤ b' - b ∧ b' - b ≤ 1) := by
  simp only [fwd, invRaw, shr_one, shr_two, Prod.mk.injEq] at hfwd hinv
  omega

/-- Settles O32: the operands' bounds carry over to the shifted results, and 256 is twice 128. -/
theorem forwardNeedsNoClamp : Obligations.ForwardNeedsNoClamp := by
  intro r g b R G B
  obtain ⟨hyOp, hcbOp, hcrOp⟩ := fwd_operand_bounds r g b
  obtain ⟨hy, hcb, hcr⟩ := fwd_bounds (r := r) (g := g) (b := b) rfl
  refine ⟨hyOp, hcbOp, hcrOp, hy, hcb, hcr, rfl, ?cbClosed, ?crClosed⟩ <;>
  · simp only [fwd, shr_one]
    omega

/-- Eleven bits' two's complement holds every integer in -1024..1023. -/
theorem bmod_2048_of_bounds {v : Int} (hlow : -1024 ≤ v) (hhigh : v ≤ 1023) : v.bmod 2048 = v :=
  Int.bmod_eq_of_le_mul_two (by omega) (by omega)

/-- Settles O33: every range lies within -1024..1023, and the ends are reached at the extreme samples. -/
theorem inverseFitsElevenBits : Obligations.InverseFitsElevenBits := by
  refine ⟨?ranges, by decide⟩
  intro y cb cr s raw
  have hs : -508 ≤ s ∧ s ≤ 512 := inv_operand_bounds cb cr
  have ht : -127 ≤ shr s 2 ∧ shr s 2 ≤ 128 := by rw [shr_two]; omega
  obtain ⟨hg, hr, hb⟩ : (-128 ≤ raw.2.1 ∧ raw.2.1 ≤ 382) ∧ (-255 ≤ raw.1 ∧ raw.1 ≤ 510) ∧
    (-255 ≤ raw.2.2 ∧ raw.2.2 ≤ 510) := invRaw_bounds (y := y) (cb := cb) (cr := cr) rfl
  refine ⟨hs, ht, hg, hr, hb, ?_, ?_, ?_, ?_⟩ <;> exact bmod_2048_of_bounds (by omega) (by omega)

end Sys2Proof.Machine
end

section
/-! The pixel function by its cases (40_pixel_datapath.md R100): what each operation does to three or more channels, and
that the channels from 3 up take no part. -/

namespace Sys2Proof.Machine

theorem pix_one_of_three_le {nch : Nat} (h : 3 ≤ nch) (a b c : Byte) (rest : List Byte) :
    pix 1 nch (a :: b :: c :: rest) = onBytes fwd a b c ++ rest := if_pos h

theorem pix_two_of_three_le {nch : Nat} (h : 3 ≤ nch) (a b c : Byte) (rest : List Byte) :
    pix 2 nch (a :: b :: c :: rest) = onBytes inv a b c ++ rest := if_pos h

theorem pix_of_lt_three {nch : Nat} (h : nch < 3) (op : BitVec 4) (p : List Byte) : pix op nch p = p := by
  unfold pix
  split
  · exact if_neg (Nat.not_le.2 h)
  · rfl

/-- Of three or more channels the first three results come from the first three alone, and the others are copies. -/
theorem exists_pix_eq_cons (op : BitVec 4) (nch : Nat) (a b c : Byte) :
    ∃ x y z : Byte, ∀ rest, pix op nch (a :: b :: c :: rest) = x :: y :: z :: rest := by
  unfold pix
  split
  · split
    · exact ⟨_, _, _, fun _ => rfl⟩
    · split
      · exact ⟨_, _, _, fun _ => rfl⟩
      · exact ⟨a, b, c, fun _ => rfl⟩
  · exact ⟨a, b, c, fun _ => rfl⟩

theorem drop_pix (op : BitVec 4) (nch : Nat) (p : List Byte) : (pix op nch p).drop 3 = p.drop 3 := by
  match p with
  | [] | [_] | [_, _] => rfl
  | a :: b :: c :: rest =>
    obtain ⟨x, y, z, hpix⟩ := exists_pix_eq_cons op nch a b c
    rw [hpix]
    rfl

theorem take_pix (op : BitVec 4) (nch : Nat) (p : List Byte) :
    (pix op nch p).take 3 = pix op nch (p.take 3) := by
  match p with
  | [] | [_] | [_, _] => rfl
  | a :: b :: c :: rest =>
    obtain ⟨x, y, z, hpix⟩ := exists_pix_eq_cons op nch a b c
    rw [hpix]
    exact (hpix []).symm

theorem getElem?_pix_of_three_le (op : BitVec 4) (nch : Nat) (p : List Byte) {j : Nat} (h : 3 ≤ j) :
    (pix op nch p)[j]? = p[j]? := by
  obtain ⟨i, rfl⟩ := Nat.exists_eq_add_of_le h
  rw [← List.getElem?_drop, drop_pix, List.getElem?_drop]

theorem getElem?_pix_of_lt_three (op : BitVec 4) (nch : Nat) (p : List Byte) {j : Nat} (h : j < 3) :
    (pix op nch p)[j]? = (pix op nch (p.take 3))[j]? := by
  rw [← take_pix, List.getElem?_take_of_lt h]

/-- Settles O36: from 3 up no operation touches a channel, whatever the number of channels. -/
theorem higherChannelsPassThrough : Obligations.HigherChannelsPassThrough :=
  ⟨fun op nch p _ _ _ hj _ => getElem?_pix_of_three_le op nch p hj, by decide⟩

/-- Settles O37: with fewer than three channels no operation is applied. -/
theorem fewChannelsPassThrough : Obligations.FewChannelsPassThrough :=
  ⟨fun op _ p _ _ hnch => pix_of_lt_three (by omega) op p, by decide⟩

/-- Settles O38: Cb's operand does not name R and Cr's does not name B; the rest is the cut of the pixel at channel 3. -/
theorem lanesDependAsStated : Obligations.LanesDependAsStated := by
  refine ⟨fun nch r r' g b b' rest rest' hnch => ?chroma, fun op nch p q j _ _ hj heq => ?higher,
    fun op nch p q j _ _ hj heq => ?firstThree⟩
  case chroma =>
    simp only [pix_one_of_three_le hnch]
    exact ⟨rfl, rfl⟩
  case higher => rw [getElem?_pix_of_three_le op nch p hj, getElem?_pix_of_three_le op nch q hj, heq]
  case firstThree => rw [getElem?_pix_of_lt_three op nch p hj, getElem?_pix_of_lt_three op nch q hj, heq]

end Sys2Proof.Machine
end

section
/-! Both transforms on the bytes of a pixel (40_pixel_datapath.md R101, R104, R110): the value of each resulting byte. -/

namespace Sys2Proof.Machine

/-- Settles O30: the results need no clamp, so each byte holds its integer; 256 keeps the chroma operands positive, as
the statement's natural subtraction needs. -/
theorem forwardTransform : Obligations.ForwardTransform := by
  refine ⟨fun nch r g b rest hnch => ⟨_, _, _, pix_one_of_three_le hnch r g b rest, ?_⟩, by decide⟩
  obtain ⟨hy, hcb, hcr⟩ := fwd_bounds (r := r) (g := g) (b := b) rfl
  have hyByte := zext8_toByte hy
  have hcbByte := zext8_toByte hcb
  have hcrByte := zext8_toByte hcr
  obtain ⟨-, hcbOp, hcrOp⟩ := fwd_operand_bounds r g b
  simp only [zext8, fwd, shr_one, shr_two] at hyByte hcbByte hcrByte hcbOp hcrOp ⊢
  omega

/-- Settles O31: `t` is the model's own shifted sum, and each byte holds its clamped result. -/
theorem inverseTransform : Obligations.InverseTransform := by
  refine ⟨fun nch y cb cr rest hnch => ⟨_, _, _, shr ((2 * zext8 cb - 255) + (2 * zext8 cr - 255) + 2) 2,
    pix_two_of_three_le hnch y cb cr rest, ?floorLow, ?floorHigh, zext8_toByte_clamp8 _, zext8_toByte_clamp8 _,
    zext8_toByte_clamp8 _⟩, by decide⟩ <;>
  · simp only [shr_two, zext8]
    omega

/-- The inverse reads the forward transform's own integers, and only its last results are clamped. -/
theorem pix_two_pix_one {r g b : Byte} {y cb cr r' g' b' : Int}
    (hfwd : fwd (zext8 r) (zext8 g) (zext8 b) = (y, cb, cr)) (hinv : invRaw y cb cr = (r', g', b')) :
    pix 2 3 (pix 1 3 [r, g, b]) = [toByte (clamp8 r'), toByte (clamp8 g'), toByte (clamp8 b')] := by
  obtain ⟨hy, hcb, hcr⟩ := fwd_bounds hfwd
  calc pix 2 3 (pix 1 3 [r, g, b])
      = pix 2 3 [toByte y, toByte cb, toByte cr] := by
        rw [pix_one_of_three_le le_rfl, onBytes, hfwd]
        rfl
    _ = [toByte (clamp8 r'), toByte (clamp8 g'), toByte (clamp8 b')] := by
        rw [pix_two_of_three_le le_rfl, onBytes, zext8_toByte hy, zext8_toByte hcb, zext8_toByte hcr, inv, hinv]
        rfl

/-- Settles O34: the unclamped results are off by no more than the statement says, and clamping brings none of them
further from its byte. -/
theorem roundTripErrorIsAtMostOne : Obligations.RoundTripErrorIsAtMostOne := by
  intro r g b
  rcases hfwd : fwd (zext8 r) (zext8 g) (zext8 b) with ⟨y, cb, cr⟩
  rcases hinv : invRaw y cb cr with ⟨r', g', b'⟩
  obtain ⟨hr, hg, hb⟩ := invRaw_fwd_sub_bounds hfwd hinv
  have hrByte := toByte_clamp8_sub_bounds (by decide) (by decide) hr
  have hgByte := toByte_clamp8_sub_bounds (by decide) (by decide) hg
  have hbByte := toByte_clamp8_sub_bounds (by decide) (by decide) hb
  simp only [zext8] at hrByte hgByte hbByte
  refine ⟨_, _, _, pix_two_pix_one hfwd hinv, ?_, ?_, ?_⟩ <;>
  · simp only [List.mem_cons, List.not_mem_nil, or_false]
    omega

/-- Settles O35: each pixel is one of fixed samples, evaluated. -/
theorem forwardIsNotInjective : Obligations.ForwardIsNotInjective := by
  unfold Obligations.ForwardIsNotInjective
  decide

end Sys2Proof.Machine
end

section
/-! The engine's turn: when it comes, and what the machine's step makes of it (41_commands.md R121). -/

namespace Sys2Proof.Machine

theorem agent_of_busy {s : State} (hbusy : s.block.busy = true) (hturn : s.queue = [] ∨ hostBudget s = 0) :
    agent s = .engine := by
  obtain ⟨-, hidle, -⟩ | ⟨hengine, -, -⟩ | ⟨e, rest, -, hq, hbudget⟩ := agent_cases s
  · cases hidle.symm.trans hbusy
  · exact hengine
  · have hpos := hbudget hbusy
    rcases hturn with hnil | hzero
    · cases hq.symm.trans hnil
    · omega

theorem busy_of_agent_engine {s : State} (h : agent s = .engine) : s.block.busy = true := by
  obtain ⟨hagent, -⟩ | ⟨-, hbusy, -⟩ | ⟨e, rest, hagent, -⟩ := agent_cases s
  · cases hagent.symm.trans h
  · exact hbusy
  · cases hagent.symm.trans h

theorem step_of_agent_engine {s : State} (h : agent s = .engine) : step s = engineTurn s := by
  simp only [step, h]

theorem engineTurn_of_next {s t : State} (h : engineStep s = .next t) : engineTurn s = .next (passTurn t) := by
  simp only [engineTurn, h]

theorem step_of_idle {s : State} (hidle : s.block.busy = false) (hq : s.queue = []) : step s = .next s := by
  have hagent : agent s = .nobody := by simp only [agent, hidle, hq]
  simp only [step, hagent]

/-- Settles O8: the step is the engine's turn, which passes on how the engine's step ends. -/
theorem stepRunsTheEngineOnlyWhileBusy : Obligations.StepRunsTheEngineOnlyWhileBusy := by
  refine fun s => ⟨fun hbusy hturn => ?engine, busy_of_agent_engine, step_of_idle⟩
  have hstep : step s = engineTurn s := step_of_agent_engine (agent_of_busy hbusy hturn)
  refine ⟨fun t h => hstep.trans (engineTurn_of_next h), fun f h => hstep.trans ?fault,
    fun r h => hstep.trans ?refused⟩
  all_goals simp only [engineTurn, h]

end Sys2Proof.Machine
end

section
/-! What one engine step does to the command's pixels where no race has touched them: pixel `k` joins the transformed
ones, and no source byte of a later pixel changes (41_commands.md R125, R129, R131). -/

namespace Sys2Proof.Machine

/-- No race has touched the running command's bytes: its window holds no racing write and nothing fed to it. -/
def Unraced (s : State) : Prop := (currentWindow s).raced = [] ∧ (currentWindow s).fed = []

/-- Only the hazard record counts. -/
theorem Unraced.congr {s t : State} (h : Unraced s) (hwindows : t.windows = s.windows) : Unraced t := by
  unfold Unraced currentWindow at h ⊢
  rw [hwindows]
  cases hs : s.windows with
  | nil => exact ⟨rfl, rfl⟩
  | cons w ws => simpa [hs] using h

/-- `Transformed` with the bytes that must stay given by `P`. -/
def TransformedWithin (P : Nat → Prop) (m0 : Memory) (o : Operands) (k : Nat) (m : Memory) : Prop :=
  (∀ k' j, k' < k → j < o.nch →
    Memory.read m (dstAddr o k' j) = (pix o.op o.nch (sourcePixel m0 o k'))[j]?) ∧
  (∀ a, P a → (∀ k' j, k' < k → j < o.nch → a ≠ dstAddr o k' j) → Memory.read m a = Memory.read m0 a)

theorem transformed_iff_within {m0 m : Memory} {o : Operands} {k : Nat} :
    Transformed m0 o k m ↔ TransformedWithin (InBuffers o) m0 o k m := Iff.rfl

theorem TransformedWithin.refl (P : Nat → Prop) (m : Memory) (o : Operands) : TransformedWithin P m o 0 m :=
  ⟨fun _ _ hk => absurd hk (Nat.not_lt_zero _), fun _ _ _ => rfl⟩

/-- A source byte of an accepted command is no destination byte of an earlier pixel, in place or not. -/
theorem Accepted.srcAddr_ne_dstAddr {memSize : Nat} {o : Operands} (h : Accepted memSize o) {k k' j j' : Nat}
    (hk : k < o.n) (hlt : k' < k) (hj : j < o.nch) (hj' : j' < o.nch) : srcAddr o k j ≠ dstAddr o k' j' := by
  obtain ⟨-, -, -, hds, -, -, -, hplace | hbelow | habove⟩ := h.checked
  · obtain ⟨hsrc, hss⟩ : o.src = o.dst ∧ o.ss = o.ds := by simpa [inPlace] using hplace
    have haddr : srcAddr o k j = dstAddr o k j := by rw [srcAddr, dstAddr, hsrc, hss]
    intro heq
    have hsame := (dstAddr_inj hds hj hj' (haddr.symm.trans heq)).1
    omega
  · have hdst := dstAddr_le o (hlt.trans hk) hj'
    have hsrc := src_le_srcAddr o k j
    omega
  · have hsrc := srcAddr_le o hk hj
    have hdst := dst_le_dstAddr o k' j'
    omega

section
variable {memSize k : Nat} {o : Operands} {P : Nat → Prop} {m0 m : Memory} (hacc : Accepted memSize o) (hk : k < o.n)
  (hP : ∀ j, j < o.nch → P (srcAddr o k j)) (h : TransformedWithin P m0 o k m)
include hacc hk hP h

theorem TransformedWithin.read_srcAddr {j : Nat} (hj : j < o.nch) :
    Memory.read m (srcAddr o k j) = Memory.read m0 (srcAddr o k j) :=
  h.2 _ (hP j hj) fun _ _ hlt hj' => hacc.srcAddr_ne_dstAddr hk hlt hj hj'

theorem TransformedWithin.sourcePixel_eq : sourcePixel m o k = sourcePixel m0 o k :=
  List.map_congr_left fun _ hj => congrArg (Option.getD · 0) (h.read_srcAddr hacc hk hP (List.mem_range.1 hj))

/-- Writing pixel `k` as the pixel function of what memory holds, and nothing else, transforms one pixel more. -/
theorem TransformedWithin.succ {m' : Memory}
    (hnew : ∀ j, j < o.nch → Memory.read m' (dstAddr o k j) = (pix o.op o.nch (sourcePixel m o k))[j]?)
    (hkeep : ∀ a, (∀ j, j < o.nch → a ≠ dstAddr o k j) → Memory.read m' a = Memory.read m a) :
    TransformedWithin P m0 o (k + 1) m' := by
  obtain ⟨-, -, -, hds, -⟩ := hacc.checked
  refine ⟨fun k' j hlt hj => ?_, fun a ha hne => ?_⟩
  · rcases Nat.lt_succ_iff_lt_or_eq.1 hlt with hlt | rfl
    · rw [hkeep _ fun j' hj' heq => hlt.ne (dstAddr_inj hds hj hj' heq).1]
      exact h.1 k' j hlt hj
    · rw [hnew j hj, h.sourcePixel_eq hacc hk hP]
  · rw [hkeep a fun j hj => hne k j (Nat.lt_succ_self k) hj]
    exact h.2 a ha fun k' j hlt => hne k' j (hlt.trans (Nat.lt_succ_self k))

end

/-- Of an unraced command the engine reads what memory holds and its bytes stand. -/
theorem engineStep_of_unraced {s : State} (hquiet : Unraced s)
    (hin : ∀ j, j < (operands s.block).nch →
      srcAddr (operands s.block) s.block.k j < s.memSize ∧ dstAddr (operands s.block) s.block.k j < s.memSize)
    (hfound : ∀ j, j < (operands s.block).nch →
      (Memory.read s.mem (srcAddr (operands s.block) s.block.k j)).isSome) :
    ∃ t, engineStep s = .next t ∧
      (∀ j, j < (operands s.block).nch → Memory.read t.mem (dstAddr (operands s.block) s.block.k j) =
        (pix (operands s.block).op (operands s.block).nch (sourcePixel s.mem (operands s.block) s.block.k))[j]?) ∧
      ∀ a, (∀ j, j < (operands s.block).nch → a ≠ dstAddr (operands s.block) s.block.k j) →
        Memory.read t.mem a = Memory.read s.mem a := by
  obtain ⟨t, ht, hkeep, hnew⟩ := engineStep_of_found hin fun j hj => by
    rw [engineSees_of_quiet (finds_of_nil hquiet _)]
    exact hfound j hj
  refine ⟨t, ht, fun j hj => ?_, hkeep⟩
  rw [hnew j hj, map_landed_of_quiet hquiet.1, foundPixel_of_quiet hquiet]

/-- Settles O39: the memory is that of `engineStep_of_unraced`, and the block after the step is `endPixel` of the block
before it. -/
theorem engineStepTransformsOnePixel : Obligations.EngineStepTransformsOnePixel := by
  intro s hbusy hraced hfed o k hpixel
  obtain ⟨t, ht, hnew, hkeep⟩ := engineStep_of_unraced ⟨hraced, hfed⟩
    (fun j hj => have ⟨hsrc, hdst, _⟩ := hpixel j hj; ⟨hsrc, hdst⟩)
    fun j hj => have ⟨_, _, hfound⟩ := hpixel j hj; hfound
  have hframe := engineStep_frame ht
  have hblock : t.block = endPixel s.block := by rw [hframe]
  refine ⟨t, ht, hnew, hkeep, ?_, ?_⟩
  · rw [hblock, endPixel_eq, hbusy, Bool.true_and]
  · rw [hframe]

/-- A step of an unraced command found its source bytes in memory. -/
theorem source_read_of_engineStep {s t : State} (hi : Inv s) (hbusy : s.block.busy = true) (hquiet : Unraced s)
    (h : engineStep s = .next t) {j : Nat} (hj : j < (operands s.block).nch) :
    (Memory.read s.mem (srcAddr (operands s.block) s.block.k j)).isSome := by
  by_contra hnone
  have hmissing : ¬∀ j, j < (operands s.block).nch →
      (engineSees s (srcAddr (operands s.block) s.block.k j)).isSome := fun hall => by
    have hsees := hall j hj
    rw [engineSees_of_quiet (finds_of_nil hquiet _)] at hsees
    exact hnone hsees
  cases h.symm.trans (engineStep_of_not_found (fun _ hj => hi.pixel_inside hbusy hj) hmissing)

/-- An engine step from a state of the invariant carries the transformed pixels of an unraced command on by one. -/
theorem engineStep_transforms {P : Nat → Prop} {m0 : Memory} {s t : State} (hi : Inv s) (hbusy : s.block.busy = true)
    (hquiet : Unraced s) (hP : ∀ j, j < (operands s.block).nch → P (srcAddr (operands s.block) s.block.k j))
    (h : engineStep s = .next t) (htr : TransformedWithin P m0 (operands s.block) s.block.k s.mem) :
    TransformedWithin P m0 (operands s.block) (s.block.k + 1) t.mem := by
  obtain ⟨-, hacc, hk⟩ := hi.block.running hbusy
  obtain ⟨u, hu, hnew, hkeep⟩ := engineStep_of_unraced hquiet (fun _ hj => hi.pixel_inside hbusy hj)
    fun _ hj => source_read_of_engineStep hi hbusy hquiet h hj
  cases h.symm.trans hu
  exact htr.succ hacc hk hP hnew hkeep

end Sys2Proof.Machine
end

section
/-! A command under way keeps its progress through every step but a reset and a write into open buffers (41_commands.md
R131; 20_memory.md R58, R60). -/

namespace Sys2Proof.Machine

/-- A command is under way or has run to its end, its buffers as far as that. -/
def UnderwayOrDone (m0 : Memory) (o : Operands) (t : State) : Prop :=
  Underway m0 o t ∨
    (Inv t ∧ t.block.busy = false ∧ t.block.done = true ∧ t.block.err = false ∧ operands t.block = o ∧
      Transformed m0 o o.n t.mem)

theorem Transformed.congr {m0 m m' : Memory} {o : Operands} {k : Nat} (h : Transformed m0 o k m) (hk : k ≤ o.n)
    (hread : ∀ a, InBuffers o a → Memory.read m' a = Memory.read m a) : Transformed m0 o k m' := by
  refine ⟨fun k' j hlt hj => ?_, fun a ha hne => (hread a ha).trans (h.2 a ha hne)⟩
  rw [hread _ (.inr ⟨dst_le_dstAddr o k' j, dstAddr_le o (hlt.trans_le hk) hj⟩)]
  exact h.1 k' j hlt hj

section
variable {m0 : Memory} {o : Operands} {s t : State} (h : Underway m0 o s)
include h

theorem Underway.inv : Inv s := h.1

theorem Underway.busy : s.block.busy = true := h.2.1

theorem Underway.window_mem : { ops := o, before := m0, raced := [], fed := [] } ∈ s.windows := by
  obtain ⟨-, -, -, ⟨rest, hwindows⟩, -⟩ := h
  simp [hwindows]

theorem Underway.k_lt : s.block.k < o.n := by
  obtain ⟨hi, hbusy, rfl, -⟩ := h
  exact (hi.block.running hbusy).2.2

theorem Underway.done_eq_false : s.block.done = false :=
  Bool.eq_false_iff.2 fun hdone => h.inv.block.notBoth ⟨h.busy, hdone⟩

theorem Underway.unraced : Unraced s := by
  obtain ⟨-, -, -, ⟨rest, hwindows⟩, -⟩ := h
  simp [Unraced, currentWindow, hwindows]

/-- Of the block only BUSY, the operands and `k` count, and of the memory the command's buffers. -/
theorem Underway.congr (hi : Inv t) (hbusy : t.block.busy = s.block.busy)
    (hops : operands t.block = operands s.block) (hk : t.block.k = s.block.k) (hwindows : t.windows = s.windows)
    (hread : ∀ a, InBuffers o a → Memory.read t.mem a = Memory.read s.mem a) : Underway m0 o t := by
  have hle := h.k_lt.le
  obtain ⟨-, hwas, hopsS, hfirst, htr⟩ := h
  exact ⟨hi, hbusy.trans hwas, hops.trans hopsS, hwindows ▸ hfirst, hk ▸ htr.congr hle hread⟩

/-- While BUSY a transaction reaches rdata and WIB only: every write is dropped, and no read acquires. -/
theorem Underway.of_exec {i : Instr} (hx : exec i s = .next t) (hi : Inv t) : Underway m0 o t := by
  have hidle : s.block.busy ≠ false := by simp [h.busy]
  rcases exec_cases hx with ⟨_, rfl | ⟨-, hdone, -⟩⟩ | ⟨rfl, -⟩ | rfl | ⟨hwas, -⟩ | ⟨hwas, -⟩ | ⟨hwas, -⟩
  · exact h.congr hi rfl rfl rfl rfl fun _ _ => rfl
  · cases h.done_eq_false.symm.trans hdone
  · exact h.congr hi rfl rfl rfl rfl fun _ _ => rfl
  · exact h
  all_goals exact absurd hwas hidle

/-- A host write outside the open buffers is a plain one, and of another byte than the command's. -/
theorem Underway.of_hostMemWrite {a : Nat} {v : Byte} (hw : hostMemWrite a v s = .next t) (hi : Inv t)
    (houtside : ∀ w ∈ s.windows, ¬InBuffers w.ops a) : Underway m0 o t := by
  have hacc : ∀ w ∈ s.windows, Accepted s.memSize w.ops := fun w hmem => (h.inv.windows w hmem).1
  have ha : ¬InBuffers o a := houtside _ h.window_mem
  obtain ⟨-, -, -, -, -, -, -, hplain⟩ := hostMemWrite_next hacc hw
  obtain rfl := hplain fun w hmem => (hacc w hmem).touches_eq_false (houtside w hmem)
  exact h.congr hi rfl rfl rfl rfl fun b hb =>
    Memory.read_write_ne _ _ fun heq => ha (heq ▸ hb)

/-- The engine's step transforms one pixel more, and ends the command with the last. -/
theorem Underway.of_engineStep (hstep : engineStep s = .next t) : UnderwayOrDone m0 o t := by
  have hquiet := h.unraced
  obtain ⟨hi, hbusy, rfl, hfirst, htr⟩ := h
  obtain ⟨herr, -, hk⟩ := hi.block.running hbusy
  have htr' := engineStep_transforms hi hbusy hquiet
    (fun j hj => .inl ⟨src_le_srcAddr _ _ j, srcAddr_le _ hk hj⟩) hstep (transformed_iff_within.1 htr)
  have hit := engineStep_keeps_inv hi hbusy hstep
  have hframe := engineStep_frame hstep
  have hwindows : t.windows = s.windows := by rw [hframe]
  have hblock : t.block = endPixel s.block := by rw [hframe]
  have hops : operands t.block = operands s.block := by rw [hblock, operands_endPixel]
  rw [endPixel_eq, hbusy, Bool.true_and] at hblock
  by_cases hlast : s.block.k + 1 = s.block.count.toNat
  · refine .inr ⟨hit, by simp [hblock, hlast], by simp [hblock, hlast], by rw [hblock]; exact herr, hops, ?_⟩
    rw [← show s.block.k + 1 = (operands s.block).n from hlast]
    exact transformed_iff_within.2 htr'
  · refine .inl ⟨hit, by simp [hblock, hlast], hops, hwindows ▸ hfirst, ?_⟩
    rw [hblock]
    exact transformed_iff_within.2 htr'

end

/-- Settles O43: `step_cases` lists the steps; the engine's carries the command on, every other leaves its buffers. -/
theorem commandProgressUnderInterleaving : Obligations.CommandProgressUnderInterleaving := by
  intro m0 o s t h hstep hreset houtside
  have hit : Inv t := step_keeps_inv h.inv hstep
  have htake : Underway m0 o (takeEvent s) :=
    h.congr (h.inv.congr rfl rfl rfl rfl rfl) rfl rfl rfl rfl fun _ _ => rfl
  rcases step_cases hstep with ⟨-, rfl⟩ | ⟨-, -, u, hu, rfl⟩ | ⟨_, _, -, -, hx⟩ |
    ⟨_, _, _, _, u, -, -, hx, rfl | rfl⟩ | ⟨a, v, hagent, hw⟩ | ⟨_, -, hr⟩ | ⟨hagent, -⟩
  · exact .inl h
  · rcases h.of_engineStep hu with hon | ⟨-, hdone⟩
    · exact .inl (hon.congr hit rfl rfl rfl rfl fun _ _ => rfl)
    · exact .inr ⟨hit, hdone⟩
  · exact .inl (htake.of_exec hx hit)
  · exact .inl (htake.of_exec hx hit)
  · have hu : Underway m0 o u := htake.of_exec hx (hit.congr rfl rfl rfl rfl rfl)
    exact .inl (hu.congr hit rfl rfl rfl rfl fun _ _ => rfl)
  · exact .inl (htake.of_hostMemWrite hw hit (houtside a v hagent))
  · obtain ⟨-, hframe, -⟩ := hostMemRead_next hr
    rw [hframe] at hit ⊢
    exact .inl (htake.congr hit rfl rfl rfl rfl fun _ _ => rfl)
  · exact absurd hagent hreset

end Sys2Proof.Machine
end

section
/-! What a START leads to while idle (41_commands.md R120, R128, R133): the three ends of `startCommand`, each as an
equation, and the block's last outcome, which it never reads. -/

namespace Sys2Proof.Machine

theorem startCommand_of_empty {s : State} (h : validate s.memSize (operands s.block) = none)
    (hcount : s.block.count = 0) :
    startCommand s = { s with block := endEmpty s.block.clearOutcome, awaited := false } := by
  simp only [startCommand, operands_clearOutcome, h, Block.clearOutcome_count, hcount, if_true]

theorem startCommand_of_accepted {s : State} (h : validate s.memSize (operands s.block) = none)
    (hcount : s.block.count ≠ 0) :
    startCommand s = { s with
      block := beginBusy s.block.clearOutcome
      windows := { ops := operands s.block, before := s.mem, raced := [], fed := [] } :: s.windows
      awaited := true } := by
  simp only [startCommand, operands_clearOutcome, h, Block.clearOutcome_count, hcount, if_false]

theorem startCommand_of_outcome (s : State) (d e : Bool) (c : BitVec 4) :
    startCommand { s with block := { s.block with done := d, err := e, errcode := c } } = startCommand s := rfl

theorem exec_yccFwd_idle {s : State} (hidle : s.block.busy = false) (nch : Byte) :
    exec (.yccFwd nch) s = .next (startCommand (storeCtrl 1 nch s)) :=
  congrArg Host.Outcome.next (hostWrite_idle _ hidle)

theorem exec_yccInv_idle {s : State} (hidle : s.block.busy = false) (nch : Byte) :
    exec (.yccInv nch) s = .next (startCommand (storeCtrl 2 nch s)) :=
  congrArg Host.Outcome.next (hostWrite_idle _ hidle)

theorem exec_wrCtrl_idle {s : State} (hidle : s.block.busy = false) {v : Word} (hstart : v.getLsbD 31 = true) :
    exec (.wrCtrl v) s = .next (startCommand (storeCtrl (opField v) (nchField v) s)) :=
  congrArg Host.Outcome.next ((hostWrite_idle _ hidle).trans (writeCtrl_of_start hstart s))

theorem exec_command_idle {s : State} {i : Instr} {op : BitVec 4} {nch : Byte} (hidle : s.block.busy = false)
    (hi : (i = .yccFwd nch ∧ op = 1) ∨ (i = .yccInv nch ∧ op = 2)) :
    exec i s = .next (startCommand (storeCtrl op nch s)) := by
  rcases hi with ⟨rfl, rfl⟩ | ⟨rfl, rfl⟩
  · exact exec_yccFwd_idle hidle nch
  · exact exec_yccInv_idle hidle nch

theorem exec_start_idle {s : State} {i : Instr} {op : BitVec 4} {nch : Byte} {v : Word} (hidle : s.block.busy = false)
    (hi : (i = .yccFwd nch ∧ op = 1) ∨ (i = .yccInv nch ∧ op = 2) ∨
      (i = .wrCtrl v ∧ v.getLsbD 31 = true ∧ op = v.extractLsb' 0 4 ∧ nch = v.extractLsb' 8 8)) :
    exec i s = .next (startCommand (storeCtrl op nch s)) := by
  rcases hi with hfwd | hinv | ⟨rfl, hstart, rfl, rfl⟩
  · exact exec_command_idle hidle (.inl hfwd)
  · exact exec_command_idle hidle (.inr hinv)
  · exact exec_wrCtrl_idle hidle hstart

/-- Settles O23: the START runs on the block that holds its OP and NCH, and ends in the way validation and COUNT say. -/
theorem startEndsAtOnceOrBegins : Obligations.StartEndsAtOnceOrBegins := by
  intro s i op nch v hidle hi b
  have hexec : exec i s = .next (startCommand (s.withBlock b)) := exec_start_idle hidle hi
  refine ⟨fun e he => ?error, fun hnone hcount => ?empty, fun hnone hcount => ?accepted⟩
  case error =>
    rw [hexec, startCommand_of_validate_error (s := s.withBlock b) he]
    rfl
  case empty =>
    rw [hexec, startCommand_of_empty (s := s.withBlock b) hnone hcount]
    rfl
  case accepted =>
    rw [hexec, startCommand_of_accepted (s := s.withBlock b) hnone hcount]
    simp [b, beginBusy, Block.clearOutcome, State.withBlock]

/-- Settles O29: OP and NCH are stored beside the old outcome, which `startCommand` does not read. -/
theorem startForgetsTheLastOutcome : Obligations.StartForgetsTheLastOutcome := by
  intro s nch d e c hidle
  have hcommand : ∀ i ∈ [Instr.yccFwd nch, .yccInv nch],
      ∃ op, (i = .yccFwd nch ∧ op = 1#4) ∨ (i = .yccInv nch ∧ op = 2#4) := by simp
  refine ⟨fun i hi => ?same, fun i t hi ht => ?wib⟩
  case same =>
    obtain ⟨op, hop⟩ := hcommand i hi
    rw [exec_command_idle hidle hop, exec_command_idle (by exact hidle) hop]
    exact congrArg Host.Outcome.next (startCommand_of_outcome (storeCtrl op nch s) d e c)
  case wib =>
    obtain ⟨op, hop⟩ := hcommand i hi
    cases (exec_command_idle hidle hop).symm.trans ht
    rw [startCommand_block]
    rfl

/-- With no pixel to process, validation stops at the checks of OP, NCH and the strides (41_commands.md R128). -/
theorem validate_of_no_pixels {o : Operands} (hop : o.op = 1 ∨ o.op = 2) (hn : o.n = 0) (memSize : Nat) :
    validate memSize o = if o.nch = 0 ∨ o.ss < o.nch ∨ o.ds < o.nch then some .param else none := by
  have hvalid : ¬(o.op ≠ 1 ∧ o.op ≠ 2) := fun h => hop.elim h.1 h.2
  rw [validate, if_neg hvalid, if_pos hn]

/-- The second check fails exactly where NCH is 0 or a stride is below it (60_exceptions.md R164). -/
theorem param_error_iff (b : Block) :
    ((operands b).nch = 0 ∨ (operands b).ss < (operands b).nch ∨ (operands b).ds < (operands b).nch) ↔
      ¬(b.nch ≠ 0 ∧ b.nch.toNat ≤ b.sstride.toNat ∧ b.nch.toNat ≤ b.dstride.toNat) := by
  have hzero : (operands b).nch = 0 ↔ b.nch = 0 := (BitVec.toNat_eq (x := b.nch) (y := 0)).symm
  rw [hzero, not_and_or, not_and_or, not_not, not_le, not_le]
  rfl

/-- The two ends of a START with OP = 1 or 2 and COUNT = 0. -/
theorem startCommand_of_no_pixels {s : State} (hop : s.block.op = 1 ∨ s.block.op = 2) (hcount : s.block.count = 0) :
    startCommand s = { s with
      block := if s.block.nch ≠ 0 ∧ s.block.nch.toNat ≤ s.block.sstride.toNat ∧
          s.block.nch.toNat ≤ s.block.dstride.toNat then endEmpty s.block.clearOutcome
        else raiseError .param s.block.clearOutcome
      awaited := false } := by
  have hn : (operands s.block).n = 0 := congrArg BitVec.toNat hcount
  have hvalidate := validate_of_no_pixels hop hn s.memSize
  simp only [param_error_iff, ite_not] at hvalidate
  split_ifs at hvalidate ⊢
  · exact startCommand_of_empty hvalidate hcount
  · exact startCommand_of_validate_error hvalidate

theorem exec_rdStatus_rdata (s : State) : ∃ u, exec .rdStatus s = .next u ∧ u.rdata = statusWord s.block := by
  refine ⟨_, rfl, ?_⟩
  rw [acquire_eq]
  rfl

/-- Settles O27: `startCommand_of_no_pixels` for the two commands, the first check of the validation for a reserved
OP. -/
theorem emptyCommandEndsAtOnce : Obligations.EmptyCommandEndsAtOnce := by
  refine ⟨fun s i op nch hidle hi hcount => ?command, fun s v hidle hcount hstart hfwd hinv => ?reserved,
    fun s hs => ?sample⟩
  case command =>
    have hop : op = 1 ∨ op = 2 := hi.imp And.right And.right
    have hstart := startCommand_of_no_pixels (s := storeCtrl op nch s) hop hcount
    refine ⟨_, exec_command_idle hidle hi, ?_⟩
    rw [hstart]
    split_ifs with hok
    · exact ⟨hidle, rfl, fun _ => rfl, fun _ => ⟨rfl, rfl⟩, fun hbad => absurd hok hbad⟩
    · exact ⟨hidle, rfl, fun _ => rfl, fun hgood => absurd hgood hok, fun _ => ⟨rfl, rfl⟩⟩
  case reserved =>
    refine ⟨_, exec_wrCtrl_idle hidle hstart, ?_⟩
    rw [← writeCtrl_of_start hstart, writeCtrl_of_reserved hstart hfwd hinv]
    exact ⟨hidle, rfl, rfl, rfl⟩
  case sample =>
    have hidle : s.block.busy = false := by rw [hs]; rfl
    obtain ⟨u, hu, hdata⟩ := exec_rdStatus_rdata (startCommand (storeCtrl 1 3 s))
    refine ⟨_, u, exec_yccFwd_idle hidle 3, hu, ?_⟩
    have hcount : (storeCtrl 1 3 s).block.count = 0 := by rw [storeCtrl, State.withBlock_block, hs]; rfl
    rw [hdata, startCommand_of_no_pixels (.inl rfl) hcount]
    simp only [storeCtrl, State.withBlock_block, hs]
    decide

end Sys2Proof.Machine
end

section
/-! An accepted command with the host idle (41_commands.md R121, R131): a step a pixel, to the end state. -/

namespace Sys2Proof.Machine

/-- The command of block `b`, begun on memory `m0`, is running, the host has nothing to do, and nothing races: of the
block only the pixel index moves, and of the whole memory only destination bytes. -/
structure RunsAlone (m0 : Memory) (b : Block) (s : State) : Prop where
  inv         : Inv s
  queue       : s.queue = []
  block       : s.block = { b with busy := true, done := false, err := false, errcode := 0, k := s.block.k }
  unraced     : Unraced s
  transformed : TransformedWithin (fun _ => True) m0 (operands b) s.block.k s.mem

theorem startCommand_of_accepted_operands {s : State} (hacc : Accepted s.memSize (operands s.block)) :
    startCommand s = { s with
      block := beginBusy s.block.clearOutcome
      windows := { ops := operands s.block, before := s.mem, raced := [], fed := [] } :: s.windows
      awaited := true } :=
  startCommand_of_accepted hacc.1 fun hcount => hacc.2.ne' (congrArg BitVec.toNat hcount)

theorem startCommand_runsAlone {s : State} (hi : Inv s) (hidle : s.block.busy = false) (hq : s.queue = [])
    (hacc : Accepted s.memSize (operands s.block)) :
    RunsAlone s.mem s.block (startCommand s) ∧ (startCommand s).block.k = 0 := by
  have hit := hi.startCommand hidle
  rw [startCommand_of_accepted_operands hacc] at hit ⊢
  exact ⟨⟨hit, hq, rfl, ⟨rfl, rfl⟩, .refl _ _ _⟩, rfl⟩

theorem run_succ_eq_next_iff {m : Nat} {s t : State} :
    Host.Core.run Sys2Proof.core (m + 1) s = .next t ↔
      ∃ u, step s = .next u ∧ Host.Core.run Sys2Proof.core m u = .next t := by
  simp only [Host.Core.run, Sys2Proof.core]
  cases step s <;> simp

/-- A run is one step longer when one more step follows it. -/
theorem run_succ_of_run {m : Nat} {s w t : State} (hrun : Host.Core.run Sys2Proof.core m s = .next w)
    (hstep : step w = .next t) : Host.Core.run Sys2Proof.core (m + 1) s = .next t := by
  induction m generalizing s with
  | zero =>
    cases hrun
    exact run_succ_eq_next_iff.2 ⟨t, hstep, rfl⟩
  | succ m ih =>
    obtain ⟨u, hu, hrest⟩ := run_succ_eq_next_iff.1 hrun
    exact run_succ_eq_next_iff.2 ⟨u, hu, ih hrest⟩

section
variable {m0 : Memory} {b : Block} {s : State} (h : RunsAlone m0 b s)
include h

theorem RunsAlone.busy : s.block.busy = true := by rw [h.block]

theorem RunsAlone.operands_eq : operands s.block = operands b := by rw [h.block]; rfl

theorem RunsAlone.k_lt : s.block.k < (operands b).n := h.operands_eq ▸ (h.inv.block.running h.busy).2.2

/-- The end of a pixel of the running command: with the last one BUSY falls and DONE rises. -/
theorem RunsAlone.endPixel_eq :
    endPixel s.block = { b with
      busy := decide (s.block.k + 1 ≠ (operands b).n), done := decide (s.block.k + 1 = (operands b).n)
      err := false, errcode := 0, k := s.block.k + 1 } := by
  rw [Machine.endPixel_eq, h.block, Bool.true_and, Bool.false_or]
  rfl

variable (hsrc : ∀ k j, k < (operands b).n → j < (operands b).nch →
  (Memory.read m0 (srcAddr (operands b) k j)).isSome)
include hsrc

/-- The engine finds the source bytes of its pixel as they were at START, so its step completes. -/
theorem RunsAlone.engineStep_next : ∃ t, engineStep s = .next t := by
  obtain ⟨-, hacc, -⟩ := h.inv.block.running h.busy
  rw [h.operands_eq] at hacc
  obtain ⟨t, ht, -⟩ := engineStep_of_unraced h.unraced (fun _ hj => h.inv.pixel_inside h.busy hj) fun j hj => by
    rw [h.operands_eq] at hj ⊢
    rw [h.transformed.read_srcAddr hacc h.k_lt (fun _ _ => trivial) hj]
    exact hsrc _ _ h.k_lt hj
  exact ⟨t, ht⟩

/-- The machine's step ends the pixel, and leaves the command running alone unless that was the last. -/
theorem RunsAlone.step_next : ∃ t, step s = .next t ∧ t.block = endPixel s.block ∧
    TransformedWithin (fun _ => True) m0 (operands b) (s.block.k + 1) t.mem ∧
    (s.block.k + 1 ≠ (operands b).n → RunsAlone m0 b t) := by
  obtain ⟨u, hu⟩ := h.engineStep_next hsrc
  have htr := engineStep_transforms h.inv h.busy h.unraced (fun _ _ => trivial) hu
    (h.operands_eq.symm ▸ h.transformed)
  rw [h.operands_eq] at htr
  have hstep : step s = .next (passTurn u) :=
    (step_of_agent_engine (agent_of_busy h.busy (.inl h.queue))).trans (engineTurn_of_next hu)
  have hframe := engineStep_frame hu
  have hblock : u.block = endPixel s.block := by rw [hframe]
  have hqueue : u.queue = s.queue := by rw [hframe]
  have hwindows : u.windows = s.windows := by rw [hframe]
  refine ⟨_, hstep, hblock, htr, fun hmore => ⟨step_keeps_inv h.inv hstep, hqueue.trans h.queue, ?block,
    h.unraced.congr hwindows, ?transformed⟩⟩
  case block => simp [hblock, h.endPixel_eq, hmore]
  case transformed => simpa [hblock, h.endPixel_eq] using htr

/-- Before its last step the command runs alone, a pixel a step. -/
theorem RunsAlone.run (hzero : s.block.k = 0) {m : Nat} (hm : m < (operands b).n) :
    ∃ w, Host.Core.run Sys2Proof.core m s = .next w ∧ RunsAlone m0 b w ∧ w.block.k = m := by
  induction m with
  | zero => exact ⟨s, rfl, h, hzero⟩
  | succ m ih =>
    obtain ⟨w, hrun, hw, rfl⟩ := ih (Nat.lt_of_succ_lt hm)
    obtain ⟨t, ht, hblock, -, hmore⟩ := hw.step_next hsrc
    exact ⟨t, run_succ_of_run hrun ht, hmore hm.ne, by rw [hblock, hw.endPixel_eq]⟩

/-- With as many steps as pixels the command has ended. -/
theorem RunsAlone.run_to_end (hzero : s.block.k = 0) :
    ∃ t, Host.Core.run Sys2Proof.core (operands b).n s = .next t ∧
      t.block = { b with busy := false, done := true, err := false, errcode := 0, k := (operands b).n } ∧
      TransformedWithin (fun _ => True) m0 (operands b) (operands b).n t.mem := by
  obtain ⟨last, hlast⟩ : ∃ last, (operands b).n = last + 1 := Nat.exists_eq_add_one.2 (Nat.zero_lt_of_lt h.k_lt)
  obtain ⟨w, hrun, hw, rfl⟩ := h.run hsrc hzero (m := last) (by omega)
  obtain ⟨t, ht, hblock, htr, -⟩ := hw.step_next hsrc
  rw [hlast]
  exact ⟨t, run_succ_of_run hrun ht, by simp [hblock, hw.endPixel_eq, hlast], htr⟩

end

/-- Settles O42: the START leaves its command running alone at pixel 0, and `RunsAlone` says where that goes. -/
theorem commandEndState : Obligations.CommandEndState := by
  intro s i op nch hi hidle hq hcommand b o hacc hsrc
  obtain ⟨hruns, hzero⟩ := startCommand_runsAlone (hi.storeCtrl hidle op nch) hidle hq hacc
  obtain ⟨t, hrun, hblock, hnew, hkeep⟩ := hruns.run_to_end hsrc hzero
  refine ⟨_, exec_command_idle hidle hcommand, ⟨t, hrun, hblock, hnew, fun a ha => hkeep a trivial ha⟩,
    fun m hm => ?_⟩
  obtain ⟨w, hw, halone, -⟩ := hruns.run hsrc hzero hm
  exact ⟨w, hw, halone.busy⟩

end Sys2Proof.Machine
end

section
/-! Which accesses are transactions (42_host_access.md R141): exactly the aligned 32-bit accesses to the eight offsets
decode, and the step that takes any other is refused by the decoder's own reason. -/

namespace Sys2Proof.Machine

/-- The decoder answers an instruction exactly for a supported access (42_host_access.md R141). -/
theorem exists_decode_eq_ok_iff (a : Access) :
    (∃ i, decode a = .ok i) ↔
      a.width = 32 ∧ a.off ∈ [0x00, 0x04, 0x08, 0x0C, 0x10, 0x14, 0x18, 0x1C] := by
  constructor
  · rintro ⟨i, hdecode⟩
    obtain ⟨r, hoff, -⟩ := decode_eq_ok hdecode
    refine ⟨width_of_decode_eq_ok hdecode, ?_⟩
    rw [hoff]
    cases r <;> decide
  · rintro ⟨hwidth, hoff⟩
    obtain ⟨r, hr⟩ : ∃ r, regAt a.off = some r := by
      generalize a.off = off at hoff
      fin_cases hoff <;> exact ⟨_, rfl⟩
    cases hdir : a.dir with
    | read => exact ⟨decodeRead r, by simp only [decode, hwidth, if_true, hr, hdir]⟩
    | write => exact ⟨decodeWrite r a.data, by simp only [decode, hwidth, if_true, hr, hdir]⟩

theorem transact_of_decode_error {a : Access} {x : Reject} (h : decode a = .error x) (s : State) :
    transact a s = .refused (.unsupportedAccess x) := by
  simp only [transact, h]

/-- Settles O6: a rejected access is refused at the step that takes it, whatever the state. -/
theorem unsupportedAccessIsRefused : Obligations.UnsupportedAccessIsRefused := by
  refine fun a => ⟨(exists_decode_eq_ok_iff a).2, fun hunsupported => ?_⟩
  cases hdecode : decode a with
  | ok i => exact absurd ((exists_decode_eq_ok_iff a).1 ⟨i, hdecode⟩) hunsupported
  | error x =>
    exact ⟨x, fun s rest hq hbudget =>
      (step_of_queue_cons hq hbudget).trans (transact_of_decode_error hdecode _)⟩

end Sys2Proof.Machine
end

section
/-! What a register read delivers (42_host_access.md R142, R143). -/

namespace Sys2Proof.Machine

theorem byteLane_getLsbD (v : Word) (i : Nat) {n : Nat} (hn : n < 8) :
    (byteLane v i).getLsbD n = v.getLsbD (8 * i + n) := by
  simp [byteLane, hn]

theorem exec_decodeRead_rdata (r : Reg) (s : State) :
    ∃ t, exec (decodeRead r) s = .next t ∧ t.rdata = regValue s.block r := by
  cases r with
  | status => exact exec_rdStatus_rdata s
  | _ => exact ⟨_, rfl, rfl⟩

/-- Settles O15: the read and the window's byte lanes are both taken from `regValue`. -/
theorem registersAreLittleEndian : Obligations.RegistersAreLittleEndian := by
  intro s r i hi
  obtain ⟨t, hexec, hrdata⟩ := exec_decodeRead_rdata r s
  refine ⟨t, byteLane (regValue s.block r) i, hexec, ?_, fun n hn => ?_⟩
  · rw [Nat.add_assoc, windowByte_regOffset s r hi]
  · rw [byteLane_getLsbD _ _ hn, hrdata]

/-- Settles O13: each read is `hostRead` of its register; RD.STATUS is followed by `acquire`. -/
theorem readsReturnTheRegisters : Obligations.ReadsReturnTheRegisters := fun s =>
  ⟨rfl, congrArg Host.Outcome.next (acquire_eq (hostRead statusWord s)), rfl, rfl, rfl, rfl, rfl, rfl⟩

end Sys2Proof.Machine
end

section
/-! What a register write does: dropped while BUSY, and its own effect while idle (42_host_access.md R144 to R147). -/

namespace Sys2Proof.Machine

/-- Every write but that of ID is a `hostWrite` of some effect, the two commands too (30_encoding.md R82). -/
theorem exec_eq_hostWrite {i : Instr} {v : Word} {nch : Byte}
    (hi : i ∈ [Instr.yccFwd nch, .yccInv nch, .wrCtrl v, .wrStatus v, .wrSrc v, .wrSstride v, .wrDst v, .wrDstride v,
      .wrCount v]) : ∃ effect, ∀ s, exec i s = .next (hostWrite effect s) := by
  fin_cases hi <;> exact ⟨_, fun _ => rfl⟩

/-- Settles O16: `hostWrite` drops its effect while BUSY, and a write to ID has none. -/
theorem writesWhileBusyAreDropped : Obligations.WritesWhileBusyAreDropped := by
  refine fun s v nch hbusy => ⟨fun i hi => ?_, rfl⟩
  obtain ⟨effect, hexec⟩ := exec_eq_hostWrite hi
  rw [hexec, hostWrite_busy effect hbusy]
  rfl

/-- Settles O17: the fields are stored either way, and only START goes on to `startCommand`. -/
theorem ctrlWriteStoresAndStarts : Obligations.CtrlWriteStoresAndStarts := fun s _ hidle =>
  ⟨fun hplain => congrArg Host.Outcome.next ((hostWrite_idle _ hidle).trans (writeCtrl_of_not_start hplain s)),
    fun hstart => exec_wrCtrl_idle hidle hstart⟩

/-- Settles O18: while idle the write is `clearStatus` on the block, bit by bit. -/
theorem statusWriteClearsWhereOne : Obligations.StatusWriteClearsWhereOne := fun s v hidle =>
  congrArg Host.Outcome.next ((hostWrite_idle _ hidle).trans (congrArg s.withBlock (clearStatus_eq v s.block)))

/-- Settles O19: while idle each operand write is its effect, and the read takes the field it stored. -/
theorem operandWritesStoreAndReadBack : Obligations.OperandWritesStoreAndReadBack := by
  intro s v hidle
  have hstored : ∀ effect : State → State,
      (.next (hostWrite effect s) : Host.Outcome State Fault Refusal) = .next (effect s) := fun effect =>
    congrArg Host.Outcome.next (hostWrite_idle effect hidle)
  exact ⟨⟨_, hstored _, rfl, rfl⟩, ⟨_, hstored _, rfl, rfl⟩, ⟨_, hstored _, rfl, rfl⟩, ⟨_, hstored _, rfl, rfl⟩,
    ⟨_, hstored _, rfl, rfl⟩⟩

end Sys2Proof.Machine
end

section
/-! Where a step stops (93_implementation_defined.md part 2): how each agent's step ends, then the step itself. -/

namespace Sys2Proof.Machine

/-- A transaction stops only where the decoder rejects its access. -/
theorem transact_ends (a : Access) (s : State) :
    (∃ t, transact a s = .next t) ∨ ∃ x, decode a = .error x ∧ transact a s = .refused (.unsupportedAccess x) := by
  cases hdecode : decode a with
  | ok i =>
    obtain ⟨t, hexec⟩ := exec_next i s
    exact .inl ⟨t, (hostTurn_access_of_decode hdecode s).trans hexec⟩
  | error x => exact .inr ⟨x, rfl, transact_of_decode_error hdecode s⟩

/-- A poll stops only where its read does. -/
theorem pollOnce_ends (off : Nat) (mask value : Word) (s : State) :
    (∃ t, pollOnce off mask value s = .next t) ∨
      ∃ x, decode { dir := .read, width := 32, off := off, data := 0 } = .error x ∧
        pollOnce off mask value s = .refused (.unsupportedAccess x) := by
  rcases transact_ends { dir := .read, width := 32, off := off, data := 0 } s with ⟨t, ht⟩ | ⟨x, hx, hrefused⟩
  · left
    simp only [pollOnce, ht]
    split
    · exact ⟨_, rfl⟩
    · exact ⟨_, rfl⟩
  · exact .inr ⟨x, hx, by simp only [pollOnce, hrefused]⟩

/-- A host write of memory stops only at or above MEM_SIZE (20_memory.md R50). -/
theorem hostMemWrite_ends (a : Nat) (v : Byte) (s : State) :
    (∃ t, hostMemWrite a v s = .next t) ∨
      (s.memSize ≤ a ∧ hostMemWrite a v s = .fault .addressOutsideMemory) := by
  unfold hostMemWrite
  split_ifs with hout
  · exact .inr ⟨hout, rfl⟩
  · exact .inl ⟨_, rfl⟩
  · exact .inl ⟨_, rfl⟩

/-- A host read of memory stops only at or above MEM_SIZE (20_memory.md R50). -/
theorem hostMemRead_ends (a : Nat) (s : State) :
    (∃ t, hostMemRead a s = .next t) ∨ (s.memSize ≤ a ∧ hostMemRead a s = .fault .addressOutsideMemory) := by
  unfold hostMemRead
  split_ifs with hout
  · exact .inr ⟨hout, rfl⟩
  · left
    split <;> exact ⟨_, rfl⟩

/-- A running command's engine stops only at a source byte of its pixel that has no value (70_reset_and_hazards.md
R184). -/
theorem engineTurn_ends {s : State} (hi : Inv s) (hbusy : s.block.busy = true) :
    (∃ t, engineTurn s = .next t) ∨
      ((∃ j, j < (operands s.block).nch ∧ engineSees s (srcAddr (operands s.block) s.block.k j) = none) ∧
        engineTurn s = .refused .sourceByteNeverWritten) := by
  obtain ⟨hcompletes, hrefused, -⟩ := engineStepNeverFaults s hi hbusy
  by_cases hmissing :
      ∃ j, j < (operands s.block).nch ∧ engineSees s (srcAddr (operands s.block) s.block.k j) = none
  · exact .inr ⟨hmissing, by simp only [engineTurn, hrefused hmissing]⟩
  · obtain ⟨t, ht⟩ := hcompletes fun j hj => Option.isSome_iff_ne_none.2 fun hnone => hmissing ⟨j, hj, hnone⟩
    exact .inl ⟨_, engineTurn_of_next ht⟩

/-- How a step of `s` may end: with a next state, or at one of the model's named stops. -/
inductive StepEnd (s : State) : Host.Outcome State Fault Refusal → Prop
  | next (t : State) : StepEnd s (.next t)
  | outside {a : Nat} (hout : s.memSize ≤ a)
      (hagent : agent s = .host (.memRead a) ∨ ∃ v, agent s = .host (.memWrite a v)) :
      StepEnd s (.fault .addressOutsideMemory)
  | unwritten (hagent : agent s = .engine)
      (hmissing : ∃ j, j < (operands s.block).nch ∧ engineSees s (srcAddr (operands s.block) s.block.k j) = none) :
      StepEnd s (.refused .sourceByteNeverWritten)
  | unsupported {a : Access} {x : Reject} (hdecode : decode a = .error x)
      (hagent : agent s = .host (.access a) ∨
        ∃ mask value, agent s = .host (.poll a.off mask value) ∧ a.dir = .read ∧ a.width = 32) :
      StepEnd s (.refused (.unsupportedAccess x))

theorem StepEnd.of_eq {s : State} {o o' : Host.Outcome State Fault Refusal} (h : o = o') (hend : StepEnd s o') :
    StepEnd s o := h ▸ hend

theorem hostTurn_stepEnd {s : State} {e : Event} (hagent : agent s = .host e) :
    StepEnd s (hostTurn e (takeEvent s)) := by
  cases e with
  | access a =>
    rcases transact_ends a (takeEvent s) with ⟨t, ht⟩ | ⟨x, hx, hrefused⟩
    · exact .of_eq ht (.next t)
    · exact .of_eq hrefused (.unsupported hx (.inl hagent))
  | poll off mask value =>
    rcases pollOnce_ends off mask value (takeEvent s) with ⟨t, ht⟩ | ⟨x, hx, hrefused⟩
    · exact .of_eq ht (.next t)
    · exact .of_eq hrefused (.unsupported hx (.inr ⟨mask, value, hagent, rfl, rfl⟩))
  | memWrite a v =>
    rcases hostMemWrite_ends a v (takeEvent s) with ⟨t, ht⟩ | ⟨hout, hfault⟩
    · exact .of_eq ht (.next t)
    · exact .of_eq hfault (.outside hout (.inr ⟨v, hagent⟩))
  | memRead a =>
    rcases hostMemRead_ends a (takeEvent s) with ⟨t, ht⟩ | ⟨hout, hfault⟩
    · exact .of_eq ht (.next t)
    · exact .of_eq hfault (.outside hout (.inl hagent))
  | reset => exact .next _

theorem step_stepEnd {s : State} (hi : Inv s) : StepEnd s (step s) := by
  rcases agent_cases s with ⟨-, hidle, hq⟩ | ⟨hagent, hbusy, -⟩ | ⟨e, rest, hagent, -⟩
  · rw [step_of_idle hidle hq]
    exact .next s
  · rw [step_of_agent_engine hagent]
    rcases engineTurn_ends hi hbusy with ⟨t, ht⟩ | ⟨hmissing, hrefused⟩
    · exact .of_eq ht (.next t)
    · exact .of_eq hrefused (.unwritten hagent hmissing)
  · rw [step_of_agent_host hagent]
    exact hostTurn_stepEnd hagent

/-- Settles O47: of the ends of a step one is a fault and two are refusals. -/
theorem stepStopsOnlyWhereNamed : Obligations.StepStopsOnlyWhereNamed := by
  refine fun s hi => ⟨fun f hf => ?fault, fun r hr => ?refused⟩
  case fault =>
    have hend := hf ▸ step_stepEnd hi
    cases hend with
    | outside hout hagent => exact ⟨_, hout, hagent⟩
  case refused =>
    have hend := hr ▸ step_stepEnd hi
    cases hend with
    | unwritten hagent hmissing => exact .inl ⟨rfl, hagent, hmissing⟩
    | unsupported hdecode hagent => exact .inr ⟨_, _, rfl, hdecode, hagent⟩

end Sys2Proof.Machine
end

section
/-! The checks of a START (60_exceptions.md R164): the model's natural-number ends are the exact ones wherever the
checks look at them. -/

namespace Sys2Proof.Machine

/-- The last byte of a buffer that holds a byte, computed in the naturals, is the one the integers give. -/
theorem cast_bufferEnd {base stride n nch : Nat} (hn : 0 < n) (hnch : 0 < nch) :
    ((base + (n - 1) * stride + nch - 1 : Nat) : Int) = base + (n - 1) * stride + nch - 1 := by
  obtain ⟨p, rfl⟩ := Nat.exists_eq_add_of_lt hn
  obtain ⟨q, rfl⟩ := Nat.exists_eq_add_of_lt hnch
  simp [← add_assoc]

/-- Past the checks of OP, NCH and the strides, with a pixel to process, the two checks of the buffers are left. -/
theorem validate_of_pixels {memSize : Nat} {o : Operands} (hop : ¬(o.op ≠ 1 ∧ o.op ≠ 2))
    (hparam : ¬(o.nch = 0 ∨ o.ss < o.nch ∨ o.ds < o.nch)) (hn : 0 < o.n) :
    validate memSize o =
      if memSize ≤ srcEnd o ∨ memSize ≤ dstEnd o then some .bounds
      else if inPlace o = false ∧ o.src ≤ dstEnd o ∧ o.dst ≤ srcEnd o then some .overlap
      else none := by
  rw [validate, if_neg hop, if_neg hparam, if_neg hn.ne']

theorem inPlace_eq_false_iff (o : Operands) : inPlace o = false ↔ ¬(o.src = o.dst ∧ o.ss = o.ds) := by
  simp [inPlace]

/-- Settles O24: a case for the first check that fails, in the order of `validate`. -/
theorem validationFollowsTheChecks : Obligations.ValidationFollowsTheChecks := by
  refine ⟨fun m o => ?checks, fun m hm => ?sample⟩
  case checks =>
    intro badOp badParam sEnd dEnd badBounds badOverlap
    by_cases hop : badOp
    · have hv : validate m o = some .op := if_pos hop
      simp [hv, hop]
    by_cases hparam : badParam
    · have hv : validate m o = some .param := (if_neg hop).trans (if_pos hparam)
      simp [hv, hop, hparam]
    obtain hn | hn := Nat.eq_zero_or_pos o.n
    · have hv : validate m o = none := (if_neg hop).trans ((if_neg hparam).trans (if_pos hn))
      simp [hv, hop, hparam, badBounds, badOverlap, hn]
    have hnch : 0 < o.nch := Nat.pos_of_ne_zero fun hzero => hparam (.inl hzero)
    have hsrc : (srcEnd o : Int) = sEnd := cast_bufferEnd hn hnch
    have hdst : (dstEnd o : Int) = dEnd := cast_bufferEnd hn hnch
    have hbounds : (m ≤ srcEnd o ∨ m ≤ dstEnd o) ↔ badBounds := by
      simp only [badBounds, ← hsrc, ← hdst, ge_iff_le, Nat.cast_le, hn, true_and]
    have hoverlap : (inPlace o = false ∧ o.src ≤ dstEnd o ∧ o.dst ≤ srcEnd o) ↔ badOverlap := by
      simp only [badOverlap, ← hsrc, ← hdst, Nat.cast_le, hn, true_and, inPlace_eq_false_iff]
    have hv := validate_of_pixels (memSize := m) hop hparam hn
    simp only [hbounds, hoverlap] at hv
    split_ifs at hv with hb ho
    · simp [hv, hop, hparam, hb]
    · simp [hv, hop, hparam, hb, ho]
    · simp [hv, hop, hparam, hb, ho]
  case sample =>
    have hin : ¬(m ≤ 0x105 ∨ m ≤ 0x107) := by omega
    rw [validate_of_pixels (by decide) (by decide) (by decide)]
    exact (if_neg hin).trans (if_pos (by decide))

end Sys2Proof.Machine
end

section
/-! A START that ends with an error (60_exceptions.md R162, R163): its status, and what it leaves alone. -/

namespace Sys2Proof.Machine

/-- Settles O25: the error's end of O23, of which every field but the four of the status is the one before. -/
theorem errorRecordsOnlyStatus : Obligations.ErrorRecordsOnlyStatus := by
  intro s nch op i v e hidle hi he
  have hexec := (startEndsAtOnceOrBegins s i op nch v hidle hi).1 e he
  refine ⟨_, hexec, rfl, rfl, hidle, rfl, ?code, rfl, rfl, rfl, rfl, rfl, rfl, rfl, rfl, fun _ => rfl⟩
  case code => cases e <;> rfl

/-- STATUS after an error: ERR and DONE, the code above them, and WIB as it was (60_exceptions.md R163). -/
theorem statusWord_raiseError {b : Block} (hidle : b.busy = false) (e : ErrCode) :
    statusWord (raiseError e b) =
      0x02#32 ||| 0x04#32 ||| (errBits e).setWidth 32 <<< 4 ||| (if b.wib then 0x08#32 else 0#32) := by
  simp only [statusWord, raiseError_errcode, raiseError_wib, raiseError_err, raiseError_done, raiseError_busy, hidle]
  cases b.wib <;> cases e <;> rfl

/-- A START leaves ERR set only where validation found an error (41_commands.md R120). -/
theorem startCommand_of_err {s : State} (herr : (startCommand s).block.err = true) :
    ∃ e, validate s.memSize (operands s.block) = some e ∧
      (startCommand s).block = raiseError e s.block.clearOutcome := by
  obtain ⟨e, he, hstart⟩ | ⟨-, -, hstart⟩ | ⟨-, hstart⟩ := startCommand_cases s
  · exact ⟨e, he, congrArg State.block hstart⟩
  · rw [hstart] at herr
    cases herr
  · rw [hstart] at herr
    cases herr

/-- Settles O26: the START stores no byte, and ERR ties its block to the error that validation found. -/
theorem failedCommandStatusWord : Obligations.FailedCommandStatusWord := by
  intro s t i op nch v hidle hi ht herr
  cases (exec_start_idle hidle hi).symm.trans ht
  obtain ⟨e, he, hblock⟩ := startCommand_of_err herr
  obtain ⟨u, hu, hdata⟩ := exec_rdStatus_rdata (startCommand (storeCtrl op nch s))
  refine ⟨fun a => congrArg (Memory.read · a) (startCommand_mem _), e, u, he, hu, ?_⟩
  rw [hdata, hblock, statusWord_raiseError (by exact hidle)]
  cases e <;> rfl

end Sys2Proof.Machine
end

section
/-! Two instances of the block over one memory (60_exceptions.md R171): a step of either reads and writes the bytes of
its own pixel only, so steps on ranges that do not meet commute. -/

namespace Sys2Proof.Machine

/-- `m'` is `m` with pixel `k` of the command processed: its destination bytes are the pixel function of the source
bytes that `m` holds, and every other byte is as in `m` (41_commands.md R125). -/
structure PixelDone (o : Operands) (k : Nat) (m m' : Memory) : Prop where
  new  : ∀ j, j < o.nch → Memory.read m' (dstAddr o k j) = (pix o.op o.nch (sourcePixel m o k))[j]?
  keep : ∀ a, (∀ j, j < o.nch → a ≠ dstAddr o k j) → Memory.read m' a = Memory.read m a

/-- Bytes of intervals that do not meet are different bytes. -/
theorem ne_of_intervals_apart {a lo hi a' lo' hi' : Nat} (ha : lo ≤ a ∧ a ≤ hi) (ha' : lo' ≤ a' ∧ a' ≤ hi')
    (h : hi < lo' ∨ hi' < lo) : a ≠ a' := by omega

/-- The source bytes of pixel `k` of the one command are not destination bytes of pixel `k'` of the other. -/
def SourceApart (o : Operands) (k : Nat) (o' : Operands) (k' : Nat) : Prop :=
  ∀ j j', j < o.nch → j' < o'.nch → srcAddr o k j ≠ dstAddr o' k' j'

theorem sourceApart_of_ends {o o' : Operands} {k k' : Nat} (hk : k < o.n) (hk' : k' < o'.n)
    (h : dstEnd o' < o.src ∨ srcEnd o < o'.dst) : SourceApart o k o' k' := fun _ _ hj hj' =>
  ne_of_intervals_apart ⟨src_le_srcAddr o k _, srcAddr_le o hk hj⟩
    ⟨dst_le_dstAddr o' k' _, dstAddr_le o' hk' hj'⟩ h.symm

/-- The destination bytes of the two pixels are apart. -/
def DestinationApart (o : Operands) (k : Nat) (o' : Operands) (k' : Nat) : Prop :=
  ∀ j j', j < o.nch → j' < o'.nch → dstAddr o k j ≠ dstAddr o' k' j'

theorem destinationApart_of_ends {o o' : Operands} {k k' : Nat} (hk : k < o.n) (hk' : k' < o'.n)
    (h : dstEnd o < o'.dst ∨ dstEnd o' < o.dst) : DestinationApart o k o' k' := fun _ _ hj hj' =>
  ne_of_intervals_apart ⟨dst_le_dstAddr o k _, dstAddr_le o hk hj⟩
    ⟨dst_le_dstAddr o' k' _, dstAddr_le o' hk' hj'⟩ h

theorem DestinationApart.symm {o o' : Operands} {k k' : Nat} (h : DestinationApart o k o' k') :
    DestinationApart o' k' o k := fun j j' hj hj' => (h j' j hj' hj).symm

section
variable {o o' : Operands} {k k' : Nat} {m m' : Memory}

theorem PixelDone.read_srcAddr (h : PixelDone o' k' m m') (hsrc : SourceApart o k o' k') {j : Nat} (hj : j < o.nch) :
    Memory.read m' (srcAddr o k j) = Memory.read m (srcAddr o k j) :=
  h.keep _ fun j' => hsrc j j' hj

theorem PixelDone.sourcePixel_eq (h : PixelDone o' k' m m') (hsrc : SourceApart o k o' k') :
    sourcePixel m' o k = sourcePixel m o k :=
  List.map_congr_left fun _ hj => congrArg (Option.getD · 0) (h.read_srcAddr hsrc (List.mem_range.1 hj))

end

/-- A destination byte of the one pixel holds the same in both orders: the pixel's sources are the same, and the other
pixel does not reach the byte. -/
theorem PixelDone.read_dstAddr_comm {o o' : Operands} {k k' j : Nat} {m m1 m2 m12 m21 : Memory}
    (h1 : PixelDone o k m m1) (h12 : PixelDone o' k' m1 m12) (h2 : PixelDone o' k' m m2) (h21 : PixelDone o k m2 m21)
    (hsrc : SourceApart o k o' k') (hdst : DestinationApart o k o' k') (hj : j < o.nch) :
    Memory.read m21 (dstAddr o k j) = Memory.read m12 (dstAddr o k j) := by
  rw [h21.new j hj, h2.sourcePixel_eq hsrc, ← h1.new j hj, h12.keep _ fun j' => hdst j j' hj]

/-- Pixels whose bytes are apart give the same memory in either order. -/
theorem PixelDone.comm {o o' : Operands} {k k' : Nat} {m m1 m2 m12 m21 : Memory}
    (h1 : PixelDone o k m m1) (h12 : PixelDone o' k' m1 m12) (h2 : PixelDone o' k' m m2) (h21 : PixelDone o k m2 m21)
    (hsrc : SourceApart o k o' k') (hsrc' : SourceApart o' k' o k) (hdst : DestinationApart o k o' k') (a : Nat) :
    Memory.read m21 a = Memory.read m12 a := by
  by_cases ha : ∃ j, j < o.nch ∧ a = dstAddr o k j
  · obtain ⟨j, hj, rfl⟩ := ha
    exact h1.read_dstAddr_comm h12 h2 h21 hsrc hdst hj
  by_cases ha' : ∃ j, j < o'.nch ∧ a = dstAddr o' k' j
  · obtain ⟨j, hj, rfl⟩ := ha'
    exact (h2.read_dstAddr_comm h21 h1 h12 hsrc' hdst.symm hj).symm
  have hout : ∀ j, j < o.nch → a ≠ dstAddr o k j := fun j hj heq => ha ⟨j, hj, heq⟩
  have hout' : ∀ j, j < o'.nch → a ≠ dstAddr o' k' j := fun j hj heq => ha' ⟨j, hj, heq⟩
  rw [h21.keep a hout, h2.keep a hout', h12.keep a hout', h1.keep a hout]

/-- Without a hazard record no race touches the block's command. -/
theorem unraced_asInstance (s : State) (b : Block) : Unraced (s.asInstance b) := ⟨rfl, rfl⟩

/-- A running block's pixel lies inside MEM_SIZE, whichever machine the block is in (60_exceptions.md R164). -/
theorem Block.Inv.pixel_inside {memSize : Nat} {b : Block} (hb : Block.Inv memSize b) (hbusy : b.busy = true) {j : Nat}
    (hj : j < (operands b).nch) :
    srcAddr (operands b) b.k j < memSize ∧ dstAddr (operands b) b.k j < memSize := by
  obtain ⟨-, hacc, hk⟩ := hb.running hbusy
  obtain ⟨-, -, -, -, -, hsrc, hdst, -⟩ := hacc.checked
  exact ⟨(srcAddr_le _ hk hj).trans_lt hsrc, (dstAddr_le _ hk hj).trans_lt hdst⟩

/-- Memory holds every source byte of the pixel. -/
def PixelReady (o : Operands) (k : Nat) (m : Memory) : Prop :=
  ∀ j, j < o.nch → (Memory.read m (srcAddr o k j)).isSome

/-- A pixel of another command whose bytes are apart makes no difference to what a pixel is ready for. -/
theorem PixelDone.ready_iff {o o' : Operands} {k k' : Nat} {m m' : Memory} (h : PixelDone o' k' m m')
    (hsrc : SourceApart o k o' k') : PixelReady o k m' ↔ PixelReady o k m :=
  forall₂_congr fun _ hj => by rw [h.read_srcAddr hsrc hj]

section
variable {s : State} {b : Block} (hb : Block.Inv s.memSize b) (hbusy : b.busy = true)
include hb hbusy

/-- A step of a running block that has its source bytes completes and processes its pixel. -/
theorem engineStep_asInstance_of_ready (hready : PixelReady (operands b) b.k s.mem) :
    ∃ t, engineStep (s.asInstance b) = .next t ∧ PixelDone (operands b) b.k s.mem t.mem := by
  obtain ⟨t, ht, hnew, hkeep⟩ := engineStep_of_unraced (unraced_asInstance s b)
    (fun _ hj => hb.pixel_inside hbusy hj) hready
  exact ⟨t, ht, hnew, hkeep⟩

/-- A step of a running block that completes had its source bytes. -/
theorem ready_of_engineStep_asInstance {t : State} (h : engineStep (s.asInstance b) = .next t) :
    PixelReady (operands b) b.k s.mem := by
  intro j hj
  by_contra hnone
  have hmissing : ¬∀ j, j < (operands b).nch → (engineSees (s.asInstance b) (srcAddr (operands b) b.k j)).isSome :=
    fun hall => by
      have hsees := hall j hj
      rw [engineSees_of_quiet (finds_of_nil (unraced_asInstance s b) _)] at hsees
      exact hnone hsees
  cases h.symm.trans (engineStep_of_not_found (fun _ hj => hb.pixel_inside hbusy hj) hmissing)

theorem pixelDone_of_engineStep_asInstance {t : State} (h : engineStep (s.asInstance b) = .next t) :
    PixelDone (operands b) b.k s.mem t.mem := by
  obtain ⟨u, hu, hdone⟩ := engineStep_asInstance_of_ready hb hbusy (ready_of_engineStep_asInstance hb hbusy h)
  cases h.symm.trans hu
  exact hdone

end

theorem engineStep_asInstance_block {s t : State} {b : Block} (h : engineStep (s.asInstance b) = .next t) :
    t.block = endPixel b := congrArg State.block (engineStep_frame h)

theorem engineStep_asInstance_memSize {s t : State} {b : Block} (h : engineStep (s.asInstance b) = .next t) :
    t.memSize = s.memSize := by
  rw [engineStep_frame h]
  rfl

/-- Settles O44: each pixel is ready in the other order because the other pixel leaves its source bytes, and the
memories agree by `PixelDone.comm`. -/
theorem instancesOnDisjointRangesCommute : Obligations.InstancesOnDisjointRangesCommute := by
  intro s t1 t2 b1 b2 hb1 hb2 hbusy1 hbusy2 hapart ht1 ht2
  obtain ⟨hends2, hends, hends1⟩ := hapart
  obtain ⟨-, -, hk1⟩ := hb1.running hbusy1
  obtain ⟨-, -, hk2⟩ := hb2.running hbusy2
  have hsrc1 : SourceApart (operands b1) b1.k (operands b2) b2.k := sourceApart_of_ends hk1 hk2 hends1
  have hsrc2 : SourceApart (operands b2) b2.k (operands b1) b1.k := sourceApart_of_ends hk2 hk1 hends2
  have hdst : DestinationApart (operands b1) b1.k (operands b2) b2.k := destinationApart_of_ends hk1 hk2 hends
  have hready1 := ready_of_engineStep_asInstance hb1 hbusy1 ht1
  have hdone1 := pixelDone_of_engineStep_asInstance hb1 hbusy1 ht1
  have hb2t : Block.Inv t1.memSize b2 := engineStep_asInstance_memSize ht1 ▸ hb2
  have hready2 := (hdone1.ready_iff hsrc2).1 (ready_of_engineStep_asInstance hb2t hbusy2 ht2)
  have hdone12 := pixelDone_of_engineStep_asInstance hb2t hbusy2 ht2
  obtain ⟨u2, hu2, hdone2⟩ := engineStep_asInstance_of_ready hb2 hbusy2 hready2
  have hb1u : Block.Inv u2.memSize b1 := engineStep_asInstance_memSize hu2 ▸ hb1
  obtain ⟨u1, hu1, hdone21⟩ := engineStep_asInstance_of_ready hb1u hbusy1 ((hdone2.ready_iff hsrc1).2 hready1)
  exact ⟨u2, u1, hu2, hu1,
    (engineStep_asInstance_block hu1).trans (engineStep_asInstance_block ht1).symm,
    (engineStep_asInstance_block hu2).trans (engineStep_asInstance_block ht2).symm,
    hdone1.comm hdone12 hdone2 hdone21 hsrc1 hsrc2 hdst⟩

end Sys2Proof.Machine
end

section
/-! Host and engine take turns while BUSY (70_reset_and_hazards.md R187, R190): the count of host steps before the
engine's next step may be any number, and each host step lowers it. -/

namespace Sys2Proof.Machine

theorem hostBudget_of_pace {s : State} {n : Nat} {ns : List Nat} (h : s.pace = n :: ns) : hostBudget s = n := by
  simp only [hostBudget, h]

/-- Settles O10: the engine moves where the pace puts no host step before it, the host where it puts one. -/
theorem eitherAgentMayMoveWhileBusy : Obligations.EitherAgentMayMoveWhileBusy := by
  intro s e rest hbusy hq
  refine ⟨⟨[0], ?engine⟩, ⟨[1], ?host⟩⟩
  case engine => exact agent_of_busy (s := { s with pace := [0] }) hbusy (.inr (hostBudget_of_pace rfl))
  case host =>
    refine agent_of_queue_cons (s := { s with pace := [1] }) hq fun _ => ?_
    rw [hostBudget_of_pace (n := 1) rfl]
    exact Nat.one_ne_zero

theorem exec_pace {i : Instr} {s t : State} (h : exec i s = .next t) : t.pace = s.pace := by
  rcases exec_cases h with ⟨_, rfl | ⟨rfl, -⟩⟩ | ⟨rfl, -⟩ | rfl | ⟨-, _, rfl⟩ | ⟨-, _, _, _, _, _, rfl⟩ |
    ⟨-, op, nch, rfl | rfl⟩
  case inr.inr.inr.inr.inr.inr =>
    rw [startCommand_eq]
    rfl
  all_goals rfl

/-- No event reaches the pace; only the taking of it does. -/
theorem step_host_pace {s t : State} {e : Event} (hagent : agent s = .host e) (h : step s = .next t) :
    t.pace = (takeEvent s).pace := by
  rcases step_cases h with ⟨hnobody, -⟩ | ⟨hengine, -⟩ | ⟨_, _, -, -, hx⟩ | ⟨_, _, _, _, u, -, -, hx, rfl | rfl⟩ |
    ⟨_, _, -, hw⟩ | ⟨_, -, hr⟩ | ⟨-, rfl⟩
  · cases hnobody.symm.trans hagent
  · cases hengine.symm.trans hagent
  · exact exec_pace hx
  · exact exec_pace hx
  · exact exec_pace (t := u) hx
  · rw [hostMemWrite_frame hw]
  · rw [(hostMemRead_next hr).2.1]
  · rw [(platformReset_eq _).1]

/-- A host step while BUSY leaves one host step fewer before the engine's next step. -/
theorem hostBudget_of_step_host {s t : State} {e : Event} (hbusy : s.block.busy = true) (hagent : agent s = .host e)
    (h : step s = .next t) : hostBudget t + 1 = hostBudget s := by
  have hpos : 0 < hostBudget s := by
    obtain ⟨hnobody, -⟩ | ⟨hengine, -⟩ | ⟨_, _, -, -, hpos⟩ := agent_cases s
    · cases hnobody.symm.trans hagent
    · cases hengine.symm.trans hagent
    · exact hpos hbusy
  have hpace : t.pace = (hostBudget s - 1) :: s.pace.tail := by
    rw [step_host_pace hagent h]
    exact if_pos hbusy
  rw [hostBudget_of_pace hpace]
  omega

/-- Settles O11: a host step keeps the block while BUSY but for WIB, and `hostBudget_of_step_host` counts it. -/
theorem hostStepsBeforeTheEngineRunOut : Obligations.HostStepsBeforeTheEngineRunOut := by
  intro s t e hbusy hagent hreset h
  have hblock : t.block.busy = true ∧ t.block.k = s.block.k := by
    have hb := step_block h
    generalize t.block = b at hb ⊢
    cases hb with
    | kept => exact ⟨hbusy, rfl⟩
    | pixel hengine => cases hengine.symm.trans hagent
    | reset hhost =>
      cases hhost.symm.trans hagent
      exact absurd rfl hreset
    | dropped => exact ⟨hbusy, rfl⟩
    | written _ _ _ _ _ hidle => cases hidle.symm.trans hbusy
  exact ⟨hblock.1, hblock.2, hostBudget_of_step_host hbusy hagent h⟩

end Sys2Proof.Machine
end

section
/-! A START written straight after reset (70_reset_and_hazards.md R183). -/

namespace Sys2Proof.Machine

/-- With every operand register 0 the strides cannot hold a channel, so the OP check or the next one fails. -/
theorem validate_of_reset_operands (memSize : Nat) (op : BitVec 4) (nch : Byte) :
    validate memSize (operands { Block.reset with op := op, nch := nch }) =
      some (if op = 1 ∨ op = 2 then .param else .op) := by
  by_cases hop : op = 1 ∨ op = 2
  · rw [if_pos hop, validate_of_no_pixels hop rfl, if_pos]
    change nch.toNat = 0 ∨ 0 < nch.toNat ∨ 0 < nch.toNat
    omega
  · obtain ⟨hfwd, hinv⟩ := not_or.1 hop
    rw [if_neg hop, validate_of_reserved_op hfwd hinv]

/-- Settles O28: validation ends the START with the error of `validate_of_reset_operands`, so O25 and O26 say what it
leaves and what STATUS shows. -/
theorem startAfterResetIsAnError : Obligations.StartAfterResetIsAnError := by
  intro s v hreset hstart
  have hidle : s.block.busy = false := by rw [hreset]; rfl
  have hvalid : validate s.memSize (operands { s.block with op := opField v, nch := nchField v }) =
      some (if opField v = 1 ∨ opField v = 2 then .param else .op) := by
    rw [hreset, validate_of_reset_operands]
  have hform : Instr.wrCtrl v = .wrCtrl v ∧ v.getLsbD 31 = true ∧ opField v = v.extractLsb' 0 4 ∧
      nchField v = v.extractLsb' 8 8 := ⟨rfl, hstart, rfl, rfl⟩
  obtain ⟨t, ht, herr, -, htidle, -⟩ :=
    errorRecordsOnlyStatus s (nchField v) (opField v) (.wrCtrl v) v _ hidle (.inr (.inr hform)) hvalid
  obtain ⟨hmem, e, u, he, hu, hdata⟩ :=
    failedCommandStatusWord s t (.wrCtrl v) (opField v) (nchField v) v hidle (.inr (.inr hform)) ht herr
  refine ⟨t, u, (commandIsACtrlWrite v s).trans ht, hu, htidle, hmem, ?_⟩
  cases he.symm.trans hvalid
  rw [hdata, hreset]
  change _ = if opField v = 1 ∨ opField v = 2 then _ else _
  by_cases hop : opField v = 1 ∨ opField v = 2
  · simp only [if_pos hop]
    rfl
  · simp only [if_neg hop]
    rfl

end Sys2Proof.Machine
end

section
/-! What the engine and a racing host read find of an open command's bytes: the old byte or the new one, by a free choice
(70_reset_and_hazards.md R186, R188; 20_memory.md R54). -/

namespace Sys2Proof.Machine

/-- A read of a byte a race has touched chooses among the byte at START and those the race brought. -/
theorem seen_of_raced {w : Window} {a : Nat} {u v : Byte} {vs : List Byte} (hfinds : w.finds a = v :: vs)
    (hbefore : Memory.read w.before a = some u) (draw : Nat) (m : Memory) :
    seen draw w m a = some (choose draw a u (v :: vs)) := by
  simp only [seen, hfinds, hbefore, Option.map_some]

/-- Where racing writes have touched a destination byte, the engine's byte or the last of them stands. -/
theorem landed_of_raced {w : Window} {a : Nat} {v : Byte} {vs : List Byte} (h : w.racing a = v :: vs)
    (draw : Nat) (x : Byte) :
    landed draw w a x = if Config.choice draw a % 2 = 0 then x else v := by
  rw [landed, h]
  exact choose_two draw a x v

theorem foundPixel_eq {s : State} {o : Operands} {k : Nat} {p : List Byte} (hlen : p.length = o.nch)
    (hp : ∀ j, j < o.nch → engineSees s (srcAddr o k j) = p[j]?) : foundPixel s o k = p := by
  refine List.ext_getElem (by simp [foundPixel, hlen]) fun j hj hj' => ?_
  simp [foundPixel, hp j (hlen ▸ hj'), hj']

theorem getElem?_pix_of_lt {op : BitVec 4} {nch j : Nat} {p : List Byte} (hj : j < p.length) :
    ∃ x, (pix op nch p)[j]? = some x :=
  ⟨_, List.getElem?_eq_getElem (by rwa [pix_length])⟩

/-- Settles O57: the reads are `seen`, the writes are `landed`, and between them stands the pixel function. -/
theorem engineRaceTakesOldOrNewBytes : Obligations.EngineRaceTakesOldOrNewBytes := by
  refine ⟨fun s a => engineSees_of_quiet, fun s a u v vs hfinds hbefore => ?reads, ?step,
    fun _ _ _ _ => newPixel_eq_some⟩
  case reads =>
    have hsees : engineSees s a = some (choose s.draws a u (v :: vs)) := seen_of_raced hfinds hbefore _ _
    exact ⟨hsees.trans (choose_eq_getElem _ _ _ _), _, choose_mem _ _ _ _, hsees⟩
  case step =>
    intro s p hi hbusy o k hlen hp
    have hfound : ∀ j, j < o.nch → (engineSees s (srcAddr o k j)).isSome := fun j hj => by
      rw [hp j hj, List.getElem?_eq_getElem (hlen ▸ hj)]
      rfl
    obtain ⟨t, ht, hkeep, hstore⟩ := engineStep_of_found (fun _ hj => hi.pixel_inside hbusy hj) hfound
    rw [foundPixel_eq hlen hp] at hstore
    refine ⟨t, ht, hkeep, fun j hj => ?_⟩
    obtain ⟨x, hx⟩ := getElem?_pix_of_lt (op := o.op) (nch := o.nch) (hlen ▸ hj : j < p.length)
    have hstored : Memory.read t.mem (dstAddr o k j) =
        some (landed (s.draws + 1) (currentWindow s) (dstAddr o k j) x) :=
      (hstore j hj).trans (congrArg (Option.map _) hx)
    refine ⟨x, hx, fun hquiet => ?_, fun v vs hraced => ?_⟩
    · rw [hstored, landed_of_quiet hquiet]
    · rw [hstored, landed_of_raced hraced]

/-- Where no race has touched the source bytes of a pixel, the pixel to recompute is that of the bytes at START. -/
theorem newPixel_of_quiet {w : Window} {k : Nat}
    (h : ∀ i, i < w.ops.nch → w.finds (srcAddr w.ops k i) = [] ∧ (Memory.read w.before (srcAddr w.ops k i)).isSome)
    (draw : Nat) : newPixel draw w k = some (pix w.ops.op w.ops.nch (sourcePixel w.before w.ops k)) := by
  refine newPixel_eq_some.2 ⟨_, by simp [sourcePixel], fun i hi => ?_, rfl⟩
  obtain ⟨hquiet, hsome⟩ := h i hi
  obtain ⟨u, hu⟩ := Option.isSome_iff_exists.1 hsome
  rw [seen_of_quiet hquiet]
  simp [sourcePixel, hi, hu]

theorem oldAndNew_of_not_dst {w : Window} {a : Nat} (h : isDstByte w.ops a = false) (draw : Nat) :
    oldAndNew draw w a = [] := by
  have hnone : pixelAt w.ops.dst w.ops.ds w.ops.n w.ops.nch a = none := by
    simpa [isDstByte] using h
  simp only [oldAndNew, hnone]

theorem oldAndNew_of_dstAddr {w : Window} {k j draw : Nat} {u x : Byte} {q : List Byte} (hstride : w.ops.nch ≤ w.ops.ds)
    (hk : k < w.ops.n) (hj : j < w.ops.nch) (hold : Memory.read w.before (dstAddr w.ops k j) = some u)
    (hq : newPixel (draw + 1) w k = some q) (hx : q[j]? = some x) :
    oldAndNew draw w (dstAddr w.ops k j) = [u, x] := by
  have hpixel : pixelAt w.ops.dst w.ops.ds w.ops.n w.ops.nch (dstAddr w.ops k j) = some k :=
    (pixelAt_eq_some hstride).2 ⟨hk, j, hj, rfl⟩
  have hchannel : dstAddr w.ops k j - dstAddr w.ops k 0 = j := by unfold dstAddr; omega
  simp [oldAndNew, hpixel, hold, hq, hchannel, hx]

theorem racingReads_of_only {s : State} {pre post : List Window} {w : Window} {a : Nat}
    (hw : s.windows = pre ++ w :: post) (hothers : ∀ v ∈ pre ++ post, isDstByte v.ops a = false) :
    racingReads s a = oldAndNew s.draws w a := by
  have hnone : ∀ ws, ws ⊆ pre ++ post → ws.flatMap (fun w => oldAndNew s.draws w a) = [] := fun ws hws =>
    List.flatMap_eq_nil_iff.2 fun v hv => oldAndNew_of_not_dst (hothers v (hws hv)) _
  rw [racingReads, hw, List.flatMap_append, List.flatMap_cons, hnone pre (List.subset_append_left _ _),
    hnone post (List.subset_append_right _ _), List.append_nil, List.nil_append]

theorem hostMemRead_of_racing {s : State} {a : Nat} {c : Byte} {cs : List Byte} (ha : a < s.memSize)
    (h : racingReads s a = c :: cs) :
    hostMemRead a s = .next { s with
      hostByte := choose s.draws a c (cs ++ (Memory.read s.mem a).toList), draws := s.draws + 2 } := by
  rw [hostMemRead, if_neg (by omega), h]

/-- Settles O58: the read races with one command only, and chooses among its old byte, its new byte and the one in
memory. -/
theorem racingReadReturnsOldOrNewByte : Obligations.RacingReadReturnsOldOrNewByte := by
  intro s pre post w k j u x hi hw a hothers hk hj hsource hold hnew
  obtain ⟨hacc, -⟩ := hi.windows w (by simp [hw])
  obtain ⟨-, -, -, hstride, -, -, hend, -⟩ := hacc.checked
  have hreads : racingReads s a = [u, x] := (racingReads_of_only hw hothers).trans
    (oldAndNew_of_dstAddr hstride hk hj hold (newPixel_of_quiet hsource _) hnew)
  refine ⟨_, hostMemRead_of_racing ((dstAddr_le _ hk hj).trans_lt hend) hreads, ?_⟩
  have hmem := choose_mem s.draws a u ([x] ++ (Memory.read s.mem a).toList)
  have hplace := choose_eq_getElem s.draws a u ([x] ++ (Memory.read s.mem a).toList)
  cases hstands : Memory.read s.mem a with
  | none =>
    simp only [hstands] at hmem
    refine ⟨?_, fun _ h => absurd rfl h, fun _ h => absurd rfl h⟩
    simpa using hmem
  | some z =>
    simp only [hstands] at hmem hplace
    refine ⟨by simpa [eq_comm] using hmem, fun h _ => ?_, fun h _ => ?_⟩
    · simpa [h] using hplace
    · simpa [h] using hplace

end Sys2Proof.Machine
end

section
/-! How a racing host write spreads over the open commands, window by window (70_reset_and_hazards.md R186): which
pixels it hits, and what one recomputed pixel leaves in memory. -/

namespace Sys2Proof.Machine

theorem srcPixelOf_eq_none_iff {o : Operands} {a : Nat} : srcPixelOf o a = none ↔ isSrcByte o a = false := by
  simp [isSrcByte]

theorem lt_of_srcPixelOf {o : Operands} {a k : Nat} (h : srcPixelOf o a = some k) : k < o.n := by
  unfold srcPixelOf pixelAt at h
  split_ifs at h with hin
  cases h
  exact hin.2.1

theorem pixelsHit_eq_nil {o : Operands} {done : Nat} {as : List Nat}
    (h : ∀ b ∈ as, ∀ k, srcPixelOf o b = some k → done ≤ k) : pixelsHit o done as = [] := by
  refine List.eq_nil_iff_forall_not_mem.2 fun k hk => ?_
  obtain ⟨hlt, b, hb, hpixel⟩ := mem_pixelsHit.1 hk
  exact absurd (h b hb k hpixel) (by omega)

theorem pixelsHit_of_no_source {o : Operands} {as : List Nat} (h : ∀ b ∈ as, isSrcByte o b = false) (done : Nat) :
    pixelsHit o done as = [] :=
  pixelsHit_eq_nil fun b hb k hk => by cases (srcPixelOf_eq_none_iff.2 (h b hb)).symm.trans hk

theorem eraseDups_of_forall_eq {l : List Nat} {k : Nat} (hne : l ≠ []) (h : ∀ x ∈ l, x = k) : l.eraseDups = [k] := by
  cases l with
  | nil => exact absurd rfl hne
  | cons x xs =>
    obtain ⟨rfl, hxs⟩ := List.forall_mem_cons.1 h
    have hrest : xs.filter (fun y => !y == x) = [] := List.filter_eq_nil_iff.2 fun y hy => by simp [hxs y hy]
    rw [List.eraseDups_cons, hrest, List.eraseDups_nil]

theorem pixelsHit_eq_singleton {o : Operands} {done k : Nat} {as : List Nat} (hk : k < done)
    (hhit : ∃ b ∈ as, srcPixelOf o b = some k) (honly : ∀ b ∈ as, ∀ x, srcPixelOf o b = some x → x = k) :
    pixelsHit o done as = [k] := by
  obtain ⟨b, hb, hpixel⟩ := hhit
  refine eraseDups_of_forall_eq (List.ne_nil_of_mem (a := k) ?_) fun x hx => ?_
  · simpa [hk] using ⟨b, hb, hpixel⟩
  · obtain ⟨hx, -⟩ := List.mem_filter.1 hx
    obtain ⟨c, hc, hpixel'⟩ := List.mem_filterMap.1 hx
    exact honly c hc x hpixel'

theorem Window.feed_of_no_source {cs : List Host.Cell} {w : Window} (h : ∀ c ∈ cs, isSrcByte w.ops c.1 = false) :
    w.feed cs = w := by
  have hnone : cs.filter (fun c => isSrcByte w.ops c.1) = [] :=
    List.filter_eq_nil_iff.2 fun c hc => by simp [h c hc]
  rw [Window.feed, hnone, List.nil_append]

theorem recompute_of_none {w : Window} {r : Spread} {k : Nat} (h : newPixel r.state.draws w k = none) :
    recompute w r k = r := by
  rw [recompute, h]

theorem recompute_of_some {w : Window} {r : Spread} {k : Nat} {q : List Byte}
    (h : newPixel r.state.draws w k = some q) :
    recompute w r k = { r with
      state := { r.state with
        mem := relandBytes (r.state.draws + 1) w (dstAddr w.ops k 0) q r.state.mem, draws := r.state.draws + 2 }
      cells := cellsFrom (dstAddr w.ops k 0) q ++ r.cells } := by
  rw [recompute, h]

theorem foldl_recompute_of_none {w : Window} {r : Spread} {ks : List Nat}
    (h : ∀ k ∈ ks, newPixel r.state.draws w k = none) : ks.foldl (recompute w) r = r := by
  induction ks with
  | nil => rfl
  | cons k ks ih =>
    obtain ⟨hk, hks⟩ := List.forall_mem_cons.1 h
    rw [List.foldl_cons, recompute_of_none hk, ih hks]

section
variable {a : Nat} {s : State} {w : Window} {done : Nat} {older : List (Window × Nat)}

theorem spread_cons_windows :
    (spread a s ((w, done) :: older)).windows =
      w.feed (spread a s older).cells :: (spread a s older).windows := rfl

theorem spread_cons_of_no_hit (h : pixelsHit w.ops done (a :: (spread a s older).cells.map (·.1)) = []) :
    spread a s ((w, done) :: older) = { spread a s older with
      windows := w.feed (spread a s older).cells :: (spread a s older).windows } := by
  rw [spread, h, List.foldl_nil]

theorem spread_cons_of_one_hit {k : Nat} {q : List Byte}
    (hhit : pixelsHit w.ops done (a :: (spread a s older).cells.map (·.1)) = [k])
    (hq : newPixel (spread a s older).state.draws (w.feed (spread a s older).cells) k = some q) :
    spread a s ((w, done) :: older) =
      { state := { (spread a s older).state with
          mem := relandBytes ((spread a s older).state.draws + 1) (w.feed (spread a s older).cells)
            (dstAddr w.ops k 0) q (spread a s older).state.mem
          draws := (spread a s older).state.draws + 2 }
        cells := cellsFrom (dstAddr w.ops k 0) q ++ (spread a s older).cells
        windows := w.feed (spread a s older).cells :: (spread a s older).windows } := by
  rw [spread, hhit, List.foldl_cons, List.foldl_nil, recompute_of_some hq]
  rfl

/-- A write that hits no processed pixel with a value spreads no further. -/
theorem spread_of_nothing_hit {ps : List (Window × Nat)}
    (h : ∀ p ∈ ps, ∀ k, srcPixelOf p.1.ops a = some k → p.2 ≤ k ∨ newPixel s.draws p.1 k = none) :
    spread a s ps = { state := s, cells := [], windows := ps.map (·.1) } := by
  induction ps with
  | nil => rfl
  | cons p older ih =>
    obtain ⟨w, done⟩ := p
    obtain ⟨hw, holder⟩ := List.forall_mem_cons.1 h
    have hnone : ∀ k ∈ pixelsHit w.ops done [a], newPixel s.draws w k = none := fun k hk => by
      obtain ⟨hlt, b, hb, hpixel⟩ := mem_pixelsHit.1 hk
      cases List.mem_singleton.1 hb
      exact (hw k hpixel).resolve_left (by dsimp only; omega)
    have hfold := foldl_recompute_of_none (w := w)
      (r := { state := s, cells := [], windows := older.map (·.1) }) hnone
    simp only [spread, ih holder, List.map_nil, Window.feed_of_no_source (cs := []) (w := w) nofun, hfold,
      List.map_cons]

/-- A write to a source byte of one open command only, of a processed pixel: that pixel is recomputed. -/
theorem spread_of_one_source {k : Nat} {q : List Byte} (hothers : ∀ p ∈ older, isSrcByte p.1.ops a = false)
    (hk : srcPixelOf w.ops a = some k) (hdone : k < done) (hq : newPixel s.draws w k = some q) :
    spread a s ((w, done) :: older) =
      { state := { s with
          mem := relandBytes (s.draws + 1) w (dstAddr w.ops k 0) q s.mem, draws := s.draws + 2 }
        cells := cellsFrom (dstAddr w.ops k 0) q
        windows := w :: older.map (·.1) } := by
  have holder : spread a s older = { state := s, cells := [], windows := older.map (·.1) } :=
    spread_of_nothing_hit fun p hp x hx => by cases (srcPixelOf_eq_none_iff.2 (hothers p hp)).symm.trans hx
  have hfeed : w.feed (spread a s older).cells = w := by rw [holder]; exact Window.feed_of_no_source nofun
  have hhit : pixelsHit w.ops done (a :: (spread a s older).cells.map (·.1)) = [k] := by
    rw [holder]
    exact pixelsHit_eq_singleton hdone ⟨a, List.mem_singleton_self a, hk⟩ (by simp [hk, eq_comm])
  rw [spread_cons_of_one_hit hhit (by rw [hfeed, holder]; exact hq), hfeed, holder, List.append_nil]

/-- Newer commands that neither the write nor the recomputed bytes reach only join the record. -/
theorem spread_append_of_unreached {newer ps : List (Window × Nat)}
    (h : ∀ p ∈ newer, ∀ b ∈ a :: (spread a s ps).cells.map (·.1), isSrcByte p.1.ops b = false) :
    spread a s (newer ++ ps) = { spread a s ps with
      windows := newer.map (·.1) ++ (spread a s ps).windows } := by
  induction newer with
  | nil => rfl
  | cons p newer ih =>
    obtain ⟨w, done⟩ := p
    obtain ⟨hw, hnewer⟩ := List.forall_mem_cons.1 h
    have hrest := ih hnewer
    have hcells : (spread a s (newer ++ ps)).cells = (spread a s ps).cells := by rw [hrest]
    have hfeed : w.feed (spread a s ps).cells = w := Window.feed_of_no_source fun c hc =>
      hw c.1 (List.mem_cons_of_mem _ (List.mem_map_of_mem hc))
    rw [List.cons_append, spread_cons_of_no_hit (by rw [hcells]; exact pixelsHit_of_no_source hw done), hcells, hfeed,
      hrest]
    rfl

end

theorem cellsFrom_map_fst (a : Nat) (vs : List Byte) : (cellsFrom a vs).map (·.1) = List.range' a vs.length := by
  induction vs generalizing a with
  | nil => rfl
  | cons v vs ih => rw [cellsFrom, List.map_cons, ih, List.length_cons, List.range'_succ]

/-- The bytes of a recomputed pixel are the destination bytes of that pixel. -/
theorem mem_cells_of_pixel {o : Operands} {k b : Nat} {q : List Byte} (hlen : q.length = o.nch) :
    b ∈ (cellsFrom (dstAddr o k 0) q).map (·.1) ↔ ∃ j, j < o.nch ∧ b = dstAddr o k j := by
  rw [cellsFrom_map_fst, hlen, List.mem_range'_1]
  constructor
  · rintro ⟨hle, hlt⟩
    exact ⟨b - dstAddr o k 0, by omega, by unfold dstAddr at *; omega⟩
  · rintro ⟨j, hj, rfl⟩
    unfold dstAddr
    omega

theorem forall_mem_cells {o : Operands} {k : Nat} {q : List Byte} (hlen : q.length = o.nch) {P : Nat → Prop} :
    (∀ b ∈ (cellsFrom (dstAddr o k 0) q).map (·.1), P b) ↔ ∀ j, j < o.nch → P (dstAddr o k j) := by
  simp only [mem_cells_of_pixel hlen]
  exact ⟨fun h j hj => h _ ⟨j, hj, rfl⟩, fun h b ⟨j, hj, hb⟩ => hb ▸ h j hj⟩

theorem newPixel_length {draw k : Nat} {w : Window} {q : List Byte} (h : newPixel draw w k = some q) :
    q.length = w.ops.nch := by
  obtain ⟨p, hlen, -, rfl⟩ := newPixel_eq_some.1 h
  rw [pix_length, hlen]

/-- What a destination byte of a recomputed pixel may hold: the recomputed byte, the last racing host write, or the byte
that stood there (92_eei_decisions.md D27). -/
def outcomes (w : Window) (m : Memory) (d : Nat) (x : Byte) : List Byte :=
  x :: ((w.racing d).take 1 ++ (Memory.read m d).toList)

/-- `m'` is `m` with the recomputed bytes `q` of pixel `k` settled one by one: each destination byte of the pixel is the
outcome that the free choice picks, and every other byte is as in `m`. -/
structure PixelSettled (draw : Nat) (w : Window) (k : Nat) (q : List Byte) (m m' : Memory) : Prop where
  settled : ∀ j, j < w.ops.nch → ∃ x, q[j]? = some x ∧
    Memory.read m' (dstAddr w.ops k j) = (outcomes w m (dstAddr w.ops k j) x)[
      Config.choice draw (dstAddr w.ops k j) % (outcomes w m (dstAddr w.ops k j) x).length]?
  keep : ∀ b, (∀ j, j < w.ops.nch → b ≠ dstAddr w.ops k j) → Memory.read m' b = Memory.read m b

theorem pixelSettled_relandBytes {w : Window} {q : List Byte} (hlen : q.length = w.ops.nch) (draw k : Nat) (m : Memory) :
    PixelSettled draw w k q m (relandBytes draw w (dstAddr w.ops k 0) q m) where
  settled j hj := by
    have hx : q[j]? = some q[j] := List.getElem?_eq_getElem (hlen ▸ hj)
    have hchannel : dstAddr w.ops k j - dstAddr w.ops k 0 = j := by unfold dstAddr; omega
    have hle : dstAddr w.ops k 0 ≤ dstAddr w.ops k j := by unfold dstAddr; omega
    refine ⟨q[j], hx, ?_⟩
    rw [relandBytes_read, if_pos hle, hchannel, hx]
    exact choose_eq_getElem _ _ _ _
  keep b hb := by
    rw [relandBytes_read]
    split
    case isTrue hle =>
      have hout : q.length ≤ b - dstAddr w.ops k 0 := by
        by_contra hlt
        exact hb (b - dstAddr w.ops k 0) (by omega) (by unfold dstAddr at *; omega)
      rw [List.getElem?_eq_none hout]
    case isFalse => rfl

end Sys2Proof.Machine
end

section
/-! A racing host write (70_reset_and_hazards.md R186): the write itself, its record in the open windows, and the pixels
of the open commands it reaches. -/

namespace Sys2Proof.Machine

theorem touches_of_isSrcByte {o : Operands} {a : Nat} (h : isSrcByte o a = true) : touches o a = true := by
  simp [touches, h]

theorem Window.note_of_isSrcByte {w : Window} {a : Nat} (h : isSrcByte w.ops a = true) (v : Byte) :
    Window.note a v w = { w with raced := (a, v) :: w.raced } := if_pos (touches_of_isSrcByte h)

theorem Reached.destination {os : List Operands} {a b : Nat} (h : Reached os a b) :
    ∃ o ∈ os, isDstByte o b = true := by
  obtain ⟨o, older, hsuffix, hdst, -⟩ := h
  exact ⟨o, hsuffix.subset List.mem_cons_self, hdst⟩

theorem hostLanded_of_not_dst {s : State} {a : Nat} (h : ∀ w ∈ s.windows, isDstByte w.ops a = false) (v : Byte) :
    hostLanded s a v = v := if_neg (by simpa using h)

theorem hostLanded_of_dst {s : State} {a : Nat} (h : ∃ w ∈ s.windows, isDstByte w.ops a = true) (v : Byte) :
    hostLanded s a v = choose s.draws a v (Memory.read s.mem a).toList := if_pos (by simpa using h)

/-- The open windows once the host's write is recorded, with the same counts of processed pixels. -/
theorem processed_landHost (a : Nat) (v : Byte) (s : State) :
    processed (landHost a v s) = (processed s).map fun p => (Window.note a v p.1, p.2) := by
  unfold processed landHost
  cases s.windows with
  | nil => rfl
  | cons w ws => simp

/-- How many pixels of an open command are processed: those of the newest up to `k` while it runs, all of every other. -/
theorem processed_count {s : State} {newer older : List (Window × Nat)} {w : Window} {done : Nat}
    (h : processed s = newer ++ (w, done) :: older) :
    done = if newer = [] ∧ s.block.busy = true then s.block.k else w.ops.n := by
  cases hw : s.windows with
  | nil => simp [processed, hw] at h
  | cons x xs =>
    simp only [processed, hw] at h
    cases newer with
    | nil =>
      obtain ⟨hhead, -⟩ := List.cons.inj h
      cases hhead
      simp
    | cons p newer =>
      obtain ⟨-, htail⟩ := List.cons.inj h
      have hmem : (w, done) ∈ xs.map fun w => (w, w.ops.n) := by simp [htail]
      obtain ⟨y, -, hy⟩ := List.mem_map.1 hmem
      cases hy
      simp

/-- The open windows as `processed` lists them, cut at one of them. -/
theorem processed_append {s : State} {pre post : List Window} {w : Window} (h : s.windows = pre ++ w :: post) :
    ∃ newer older done, processed s = newer ++ (w, done) :: older ∧ newer.map (·.1) = pre ∧ older.map (·.1) = post ∧
      done = if pre = [] ∧ s.block.busy = true then s.block.k else w.ops.n := by
  obtain ⟨newer, rest, hsplit, hpre, hrest⟩ := List.map_eq_append_iff.1 ((processed_map s).trans h)
  obtain ⟨⟨_, done⟩, older, rfl, rfl, hpost⟩ := List.map_eq_cons_iff.1 hrest
  refine ⟨newer, older, done, hsplit, hpre, hpost, (processed_count hsplit).trans ?_⟩
  simp [← hpre]

section
variable {s t : State} {a : Nat} {v : Byte} (htouched : ∃ w ∈ s.windows, touches w.ops a = true)
  (h : hostMemWrite a v s = .next t)
include htouched h

theorem hostMemWrite_of_touched :
    t.windows = (spread a (landHost a v s) (processed (landHost a v s))).windows ∧
      t.mem = (spread a (landHost a v s) (processed (landHost a v s))).state.mem := by
  unfold hostMemWrite at h
  split_ifs at h with _ hany
  · cases h
    exact ⟨rfl, rfl⟩
  · exact absurd (by simpa using htouched) hany

/-- A write to source bytes of pixels that are not processed, or have no value, changes the written byte only. -/
theorem hostMemWrite_of_nothing_hit
    (hnothing : ∀ pre w post k, s.windows = pre ++ w :: post → srcPixelOf w.ops a = some k →
      (pre = [] ∧ s.block.busy = true ∧ s.block.k ≤ k) ∨
        newPixel (s.draws + 1) { w with raced := (a, v) :: w.raced } k = none) :
    t.windows = s.windows.map (Window.note a v) ∧ t.mem = Memory.write s.mem a (hostLanded s a v) := by
  have hspread : spread a (landHost a v s) (processed (landHost a v s)) =
      { state := landHost a v s, cells := [], windows := (processed (landHost a v s)).map (·.1) } := by
    refine spread_of_nothing_hit fun p hp k hk => ?_
    rw [processed_landHost] at hp
    obtain ⟨⟨w, done⟩, hmem, rfl⟩ := List.mem_map.1 hp
    obtain ⟨newer, older, hsplit⟩ := List.append_of_mem hmem
    have hwindows : s.windows = newer.map (·.1) ++ w :: older.map (·.1) := by
      rw [← processed_map, hsplit, List.map_append, List.map_cons]
    rw [Window.note_ops] at hk
    rw [Window.note_of_isSrcByte (isSrcByte_of_srcPixelOf hk)]
    refine (hnothing _ w _ k hwindows hk).imp_left fun ⟨hnil, hbusy, hle⟩ => ?_
    rw [processed_count hsplit, if_pos ⟨List.map_eq_nil_iff.1 hnil, hbusy⟩]
    exact hle
  obtain ⟨hwindows, hmem⟩ := hostMemWrite_of_touched htouched h
  rw [hspread] at hwindows hmem
  exact ⟨hwindows.trans (processed_map _), hmem⟩

end

/-- Memory once a write of `v` to `a` and the recomputed bytes `q` of pixel `k` of an open command, whose source byte `a`
is, have been settled. -/
def settledMem (a : Nat) (v : Byte) (s : State) (w : Window) (k : Nat) (q : List Byte) : Memory :=
  relandBytes (s.draws + 2) (Window.note a v w) (dstAddr w.ops k 0) q (Memory.write s.mem a (hostLanded s a v))

section
variable {s t : State} {a k : Nat} {v : Byte} {w : Window} {q : List Byte}

theorem pixelSettled_settledMem (hlen : q.length = w.ops.nch) :
    PixelSettled (s.draws + 2) (Window.note a v w) k q (Memory.write s.mem a (hostLanded s a v))
      (settledMem a v s w k q) := by
  rw [← Window.note_ops a v w] at hlen
  simpa only [settledMem, Window.note_ops] using pixelSettled_relandBytes hlen (s.draws + 2) k _

theorem spread_landHost_of_one_source {older : List (Window × Nat)} {done : Nat}
    (hothers : ∀ p ∈ older, isSrcByte p.1.ops a = false) (hk : srcPixelOf w.ops a = some k) (hdone : k < done)
    (hq : newPixel (s.draws + 1) (Window.note a v w) k = some q) :
    spread a (landHost a v s) ((Window.note a v w, done) :: older.map fun p => (Window.note a v p.1, p.2)) =
      { state := { landHost a v s with mem := settledMem a v s w k q, draws := s.draws + 3 }
        cells := cellsFrom (dstAddr w.ops k 0) q
        windows := Window.note a v w :: older.map fun p => Window.note a v p.1 } := by
  have hnoted : ∀ p ∈ older.map (fun p => (Window.note a v p.1, p.2)), isSrcByte p.1.ops a = false :=
    List.forall_mem_map.2 fun p hp => by rw [Window.note_ops]; exact hothers p hp
  rw [spread_of_one_source (s := landHost a v s) hnoted (by rwa [Window.note_ops]) hdone hq, Window.note_ops,
    List.map_map]
  rfl

/-- A write to a source byte of one open command only, of a processed pixel that feeds no newer command: that pixel is
recomputed and nothing else changes. -/
theorem hostMemWrite_of_one_source {pre post : List Window} (hw : s.windows = pre ++ w :: post)
    (hothers : ∀ x ∈ pre ++ post, isSrcByte x.ops a = false) (hk : srcPixelOf w.ops a = some k)
    (hdone : pre = [] → s.block.busy = true → k < s.block.k)
    (hfeed : ∀ x ∈ pre, ∀ j, j < w.ops.nch → isSrcByte x.ops (dstAddr w.ops k j) = false)
    (hq : newPixel (s.draws + 1) (Window.note a v w) k = some q) (h : hostMemWrite a v s = .next t) :
    t.windows = s.windows.map (Window.note a v) ∧ t.mem = settledMem a v s w k q := by
  obtain ⟨newer, older, done, hsplit, rfl, rfl, hcount⟩ := processed_append hw
  obtain ⟨hothersNewer, hothersOlder⟩ := List.forall_mem_append.1 hothers
  have hlt : k < done := by
    rw [hcount]
    split
    case isTrue hcurrent => exact hdone hcurrent.1 hcurrent.2
    case isFalse => exact lt_of_srcPixelOf hk
  have htail := spread_landHost_of_one_source (s := s) (List.forall_mem_map.1 hothersOlder) hk hlt hq
  have hlen : q.length = w.ops.nch := by simpa using newPixel_length hq
  have hunreached : ∀ p ∈ newer.map fun p => (Window.note a v p.1, p.2),
      ∀ b ∈ a :: (cellsFrom (dstAddr w.ops k 0) q).map (·.1), isSrcByte p.1.ops b = false := by
    refine List.forall_mem_map.2 fun p hp => ?_
    rw [Window.note_ops]
    have hpre := List.mem_map_of_mem (f := (·.1)) hp
    exact List.forall_mem_cons.2 ⟨hothersNewer _ hpre, (forall_mem_cells hlen).2 (hfeed _ hpre)⟩
  obtain ⟨hwindows, hmem⟩ :=
    hostMemWrite_of_touched ⟨w, by simp [hw], touches_of_isSrcByte (isSrcByte_of_srcPixelOf hk)⟩ h
  rw [processed_landHost, hsplit, List.map_append, List.map_cons,
    spread_append_of_unreached (by rw [htail]; exact hunreached), htail] at hwindows hmem
  refine ⟨hwindows.trans ?_, hmem⟩
  rw [hw]
  simp [Function.comp_def]

end

/-- Settles O55: `hostMemWrite_next` for what every racing write keeps, `hostMemWrite_of_nothing_hit` and
`hostMemWrite_of_one_source` for the two ways it spreads. -/
theorem racingWriteOpensOnlyDestinationBytes : Obligations.RacingWriteOpensOnlyDestinationBytes := by
  intro s t a v hi htouched h noted
  obtain ⟨-, hframe, hrecord, -, -, hkeep, hlanded, -⟩ := hostMemWrite_next (fun w hw => (hi.windows w hw).1) h
  refine ⟨by rw [hframe], by rw [hrecord, List.map_map]; rfl, hkeep, hlanded, fun hnot => ?plain, fun hdst => ?choice,
    fun hnothing => ?nothing, ?one⟩
  case plain =>
    have hunreached : ¬Reached (s.windows.map (·.ops)) a a := fun hreached => by
      obtain ⟨_, hmem, hdst⟩ := hreached.destination
      obtain ⟨w, hw, rfl⟩ := List.mem_map.1 hmem
      cases (hnot w hw).symm.trans hdst
    have hv := hostLanded_of_not_dst hnot v
    exact ⟨hv ▸ hlanded hunreached, hv⟩
  case choice =>
    rw [hostLanded_of_dst hdst]
    refine ⟨fun hnone => by rw [hnone]; rfl, fun u hu => ?_⟩
    rw [hu]
    exact choose_two _ _ _ _
  case nothing =>
    obtain ⟨hwindows, hmem⟩ := hostMemWrite_of_nothing_hit htouched h hnothing
    rw [hmem]
    exact ⟨hwindows, Memory.read_write_same _ _ _, fun b hb => Memory.read_write_ne _ _ hb⟩
  case one =>
    intro pre w post k q hw hothers hk hdone hfeed w' hq
    have hnote : Window.note a v w = w' := Window.note_of_isSrcByte (isSrcByte_of_srcPixelOf hk) v
    obtain ⟨hwindows, hmem⟩ := hostMemWrite_of_one_source hw hothers hk hdone hfeed (hnote.symm ▸ hq) h
    obtain ⟨hsettled, hother⟩ : PixelSettled (s.draws + 2) w' k q (Memory.write s.mem a (hostLanded s a v)) t.mem :=
      hmem ▸ hnote ▸ pixelSettled_settledMem (newPixel_length (w := w') hq)
    exact ⟨hwindows, fun b hb hout => (hother b hout).trans (Memory.read_write_ne _ _ hb),
      fun hout => (hother a hout).trans (Memory.read_write_same _ _ _), hsettled⟩

end Sys2Proof.Machine
end

section
/-! A racing host write on an older open command's source, and the newer command that the older one's pixel feeds
(70_reset_and_hazards.md R186; 92_eei_decisions.md D27). -/

namespace Sys2Proof.Machine

theorem processed_of_windows_cons {s : State} {w : Window} {ws : List Window} (h : s.windows = w :: ws) :
    processed s = (w, if s.block.busy then s.block.k else w.ops.n) :: ws.map fun w => (w, w.ops.n) := by
  simp only [processed, h]

/-- The newer command's window once the recomputed bytes `q` of the older command's pixel `k` are recorded in it. -/
def fedWindow (a : Nat) (v : Byte) (newer older : Window) (k : Nat) (q : List Byte) : Window :=
  (Window.note a v newer).feed (cellsFrom (dstAddr older.ops k 0) q)

theorem fedWindow_eq (a : Nat) (v : Byte) (newer older : Window) (k : Nat) (q : List Byte) :
    fedWindow a v newer older k q = { Window.note a v newer with
      fed := (cellsFrom (dstAddr older.ops k 0) q).filter (fun c => isSrcByte newer.ops c.1) ++ newer.fed } := by
  simp only [fedWindow, Window.feed, Window.note_ops, Window.note_fed]

/-- Where the recomputed bytes fall in one pixel of the newer command, the race reaches no other pixel of it. -/
theorem eq_of_srcPixelOf_cells {o o' : Operands} {a k k' : Nat} {q : List Byte} (hlen : q.length = o.nch)
    (ha : isSrcByte o' a = false) (honly : ∀ j x, j < o.nch → srcPixelOf o' (dstAddr o k j) = some x → x = k') :
    ∀ b ∈ a :: (cellsFrom (dstAddr o k 0) q).map (·.1), ∀ x, srcPixelOf o' b = some x → x = k' :=
  List.forall_mem_cons.2 ⟨fun x hx => by simp [srcPixelOf_eq_none_iff.2 ha] at hx,
    (forall_mem_cells hlen).2 fun j hj x hx => honly j x hj hx⟩

/-- The write recomputes the older command's pixel and feeds the newer command; what goes on is a matter of the pixels it
then hits there. -/
theorem hostMemWrite_feeds_newer {s t : State} {a k : Nat} {v : Byte} {newer older : Window} {post : List Window}
    {q : List Byte} {hits : List Nat} (hw : s.windows = newer :: older :: post)
    (hothers : ∀ x ∈ newer :: post, isSrcByte x.ops a = false) (hk : srcPixelOf older.ops a = some k)
    (hq : newPixel (s.draws + 1) (Window.note a v older) k = some q) (h : hostMemWrite a v s = .next t)
    (hhits : pixelsHit newer.ops (if s.block.busy then s.block.k else newer.ops.n)
      (a :: (cellsFrom (dstAddr older.ops k 0) q).map (·.1)) = hits) :
    t.windows = fedWindow a v newer older k q :: Window.note a v older :: post.map (Window.note a v) ∧
    (hits = [] → t.mem = settledMem a v s older k q) ∧
    ∀ k' q', hits = [k'] → newPixel (s.draws + 3) (fedWindow a v newer older k q) k' = some q' →
      t.mem = relandBytes (s.draws + 4) (fedWindow a v newer older k q) (dstAddr newer.ops k' 0) q'
        (settledMem a v s older k q) := by
  have hpost : ∀ p ∈ post.map fun w => (w, w.ops.n), isSrcByte p.1.ops a = false :=
    List.forall_mem_map.2 fun x hx => hothers x (List.mem_cons_of_mem _ hx)
  have htail := spread_landHost_of_one_source (s := s) hpost hk (lt_of_srcPixelOf hk) hq
  obtain ⟨hwindows, hmem⟩ :=
    hostMemWrite_of_touched ⟨older, by simp [hw], touches_of_isSrcByte (isSrcByte_of_srcPixelOf hk)⟩ h
  rw [processed_landHost, processed_of_windows_cons hw, List.map_cons, List.map_cons, List.map_cons] at hwindows hmem
  refine ⟨?record, fun hnone => ?unhit, fun k' q' hone hq' => ?hit⟩
  case record =>
    rw [hwindows, spread_cons_windows, htail]
    simp [fedWindow, Function.comp_def]
  case unhit =>
    rw [hmem, spread_cons_of_no_hit (by rw [htail, Window.note_ops]; exact hhits.trans hnone), htail]
  case hit =>
    rw [hmem, spread_cons_of_one_hit (by rw [htail, Window.note_ops]; exact hhits.trans hone)
      (by rw [htail]; exact hq'), htail, Window.note_ops]
    rfl

/-- Settles O56: the older command's pixel is settled first (`settledMem`), and the newer command's next where it is hit
and processed. -/
theorem raceReachesNewerCommands : Obligations.RaceReachesNewerCommands := by
  intro s t a v newer older post k k' q q' hi hw hothers hk h note cells fedNewer outs m0 hq
  have hops : (note older).ops = older.ops := Window.note_ops a v older
  have hfedOps : fedNewer.ops = newer.ops := Window.note_ops a v newer
  have hlen : q.length = older.ops.nch := (newPixel_length hq).trans (congrArg Operands.nch hops)
  have hnewer : isSrcByte newer.ops a = false := hothers newer List.mem_cons_self
  obtain ⟨hwindows, hunhit, hhit⟩ := hostMemWrite_feeds_newer hw hothers hk hq h rfl
  rw [show fedWindow a v newer older k q = fedNewer from fedWindow_eq a v newer older k q] at hwindows hhit
  obtain ⟨hsettled, hkeep⟩ : PixelSettled (s.draws + 2) (note older) k q m0 (settledMem a v s older k q) :=
    pixelSettled_settledMem hlen
  rw [hops] at hsettled hkeep
  refine ⟨hwindows, settledMem a v s older k q, hsettled, hkeep, fun hapart b => ?apart,
    fun _ honly hbusy hle b => ?unprocessed, fun hsome honly hdone hq' => ?processed⟩
  case apart =>
    have hnone := pixelsHit_of_no_source (List.forall_mem_cons.2 ⟨hnewer, (forall_mem_cells hlen).2 hapart⟩)
      (if s.block.busy then s.block.k else newer.ops.n)
    rw [hunhit hnone]
  case unprocessed =>
    have hreach := eq_of_srcPixelOf_cells hlen hnewer honly
    rw [hunhit (pixelsHit_eq_nil fun b hb x hx => by rw [if_pos hbusy, hreach b hb x hx]; exact hle)]
  case processed =>
    obtain ⟨j, hj, hpixel⟩ := hsome
    have hlt : k' < if s.block.busy then s.block.k else newer.ops.n := by
      split
      case isTrue hbusy => exact hdone hbusy
      case isFalse => exact lt_of_srcPixelOf hpixel
    have hmem : dstAddr older.ops k j ∈ a :: cells.map (·.1) :=
      List.mem_cons_of_mem _ ((mem_cells_of_pixel hlen).2 ⟨j, hj, rfl⟩)
    have hone := pixelsHit_eq_singleton hlt ⟨_, hmem, hpixel⟩ (eq_of_srcPixelOf_cells hlen hnewer honly)
    obtain ⟨hsettled', hkeep'⟩ := pixelSettled_relandBytes (newPixel_length hq') (s.draws + 4) k'
      (settledMem a v s older k q)
    rw [hfedOps, ← hhit k' q' hone hq'] at hsettled' hkeep'
    exact ⟨hsettled', hkeep'⟩

end Sys2Proof.Machine
end
